-- ==== Sys2Proof/Word.lean ====
section
/-! DEFINITION. The words of the block and byte sequences (00_scope.md R9, R10, R13). -/

namespace Sys2Proof

/-- A bus word and a command word: 32 bits (R13). -/
abbrev Word := BitVec 32

/-- An octet, the serial data unit (R13). -/
abbrev Byte := BitVec 8

/-- A CRC value (R13), and the width of TXLEN, RXLEN and ARG0. -/
abbrev Half := BitVec 16

/-- A finite list of octets, index 0 first on the wire (R10). -/
abbrev Bytes := List (BitVec 8)

end Sys2Proof
end

