-- ==== Sys2Proof/Config.lean ====
section
/-! DEFINITION. The instance parameters of 00_scope.md R6, the timing quantities of R7 and R8, and the free values. -/

namespace Sys2Proof

/-- SEQ_MAX, the maximum length of a delimiter or end-of-line sequence: fixed at 16 (R6). -/
def Config.seqMax : Nat := 16

/-- The parameters an instance of the block fixes (R6). They are data of the state, so that a statement about
every state is a statement about every instance. -/
structure Config.Params where
  /-- NCHAN, number of command channels. -/
  nchan : Nat
  /-- NPORT, number of physical serial ports. -/
  nport : Nat
  /-- NHANDLE, number of handle slots. -/
  nhandle : Nat
  /-- BUF_BYTES, size of each TX and RX buffer. -/
  bufBytes : Nat
  /-- SUPPORTED_BAUDS with BYTE_NS: pairs (rate, nanoseconds per byte). -/
  baudTable : List (Nat × Nat)
  /-- DEFAULT_BYTE_NS, the byte time of a rate outside the table. -/
  defaultByteNs : Nat
  /-- QUIET_NUM of the quiet-interval law. -/
  quietNum : Nat
  /-- QUIET_DEN of the quiet-interval law. -/
  quietDen : Nat
  /-- BLOCK_ID, the value of the ID register. -/
  blockId : Word
deriving DecidableEq, Repr

/-- The reference instance of R6. DESIGN CHOICE (log 1), unsafe: the spec gives no other values. -/
def Config.reference : Config.Params where
  nchan := 4
  nport := 4
  nhandle := 8
  bufBytes := 256
  baudTable := [(9600, 1000)]
  defaultByteNs := 1000
  quietNum := 3
  quietDen := 1
  blockId := 0x53504331#32

/-- The byte time of a baud rate (R7): the table's entry, else the default. It depends on the rate alone. -/
def Config.byteTime (p : Config.Params) (baud : Word) : Nat :=
  (p.baudTable.lookup baud.toNat).getD p.defaultByteNs

/-- The quiet interval for a byte time (R6, R8): the floor of QUIET_NUM * bt / QUIET_DEN, at least 1. DEDUCED (log 12), safe. -/
def Config.quietNs (p : Config.Params) (bt : Nat) : Nat :=
  max 1 (p.quietNum * bt / p.quietDen)

/-- The settle time (R8): exactly two byte times. -/
def Config.settleNs (bt : Nat) : Nat := 2 * bt

/-- The duration of a write of `n` bytes (R8). -/
def Config.writeNs (bt n : Nat) : Nat := n * bt

/-- The read timeout of a TIMEOUT_MS value (R8): none when it is 0. -/
def Config.timeoutNs (ms : Word) : Option Nat :=
  if ms = 0#32 then none else some (ms.toNat * 1000000)

/-- The k-th free octet: a byte the spec leaves at any value (93_implementation_defined.md U1, U2, U3). DESIGN CHOICE
of the form only (log 5), safe: nothing is known of its values. -/
opaque Config.freeByte : Nat → BitVec 8

/-- The k-th free bus word (93_implementation_defined.md U1, U5). DESIGN CHOICE of the form only (log 5), safe. -/
opaque Config.freeWord : Nat → BitVec 32

end Sys2Proof
end

