-- ==== Sys2Proof/Syntax.lean ====
section
/-! DEFINITION. The 21 commands of SPC-CMD v1 (30_encoding.md R84): one constructor per row of the opcode table. -/

namespace Sys2Proof

/-- A command with its one operand, the handle index of `HSEL` (R80, R88). -/
inductive Instr where
  /-- SUM.ADD: append the additive checksum (R102). -/
  | sumAdd (h : Nat)
  /-- SUM.CHK: validate the additive checksum (R103). -/
  | sumChk (h : Nat)
  /-- SUM.STRIP: validate and remove the additive checksum (R104). -/
  | sumStrip (h : Nat)
  /-- CRC.ADD: append the CRC-16 (R112). -/
  | crcAdd (h : Nat)
  /-- CRC.CHK: validate the CRC-16 (R113). -/
  | crcChk (h : Nat)
  /-- CRC.STRIP: validate and remove the CRC-16 (R114). -/
  | crcStrip (h : Nat)
  /-- WR: write only (R150). -/
  | wr (h : Nat)
  /-- XQ: write, then read to a quiet interval (R151). -/
  | xq (h : Nat)
  /-- XN: write, then read an exact length (R152). -/
  | xn (h : Nat)
  /-- XD: write, then read to a delimiter (R153). -/
  | xd (h : Nat)
  /-- XL: write, then read a line (R154). -/
  | xl (h : Nat)
  /-- RQ: read to a quiet interval (R155). -/
  | rq (h : Nat)
  /-- RN: read an exact length (R156). -/
  | rn (h : Nat)
  /-- RD: read to a delimiter (R157). -/
  | rd (h : Nat)
  /-- RL: read a line (R158). -/
  | rl (h : Nat)
  /-- ASC.BUILD: build an ASCII frame (R183). -/
  | ascBuild (h : Nat)
  /-- ASC.PARSE: parse an ASCII reply (R184). -/
  | ascParse (h : Nat)
  /-- ASC.REQ: build, exchange and parse, ASCII (R185). -/
  | ascReq (h : Nat)
  /-- RTU.BUILD: build a binary frame (R191). -/
  | rtuBuild (h : Nat)
  /-- RTU.PARSE: parse a binary reply (R192). -/
  | rtuParse (h : Nat)
  /-- RTU.REQ: build, exchange and parse, binary (R193). -/
  | rtuReq (h : Nat)
deriving DecidableEq, Repr

end Sys2Proof
end

