-- ==== Sys2Proof/WellFormed.lean ====
section
/-! DEFINITION. What the encoding and the parameter table require of data before it means anything
(30_encoding.md R80; 00_scope.md R6; 20_memory.md R63). -/

namespace Sys2Proof

/-- The handle operand of a command. -/
def Instr.handle : Instr → Nat
  | .sumAdd h => h
  | .sumChk h => h
  | .sumStrip h => h
  | .crcAdd h => h
  | .crcChk h => h
  | .crcStrip h => h
  | .wr h => h
  | .xq h => h
  | .xn h => h
  | .xd h => h
  | .xl h => h
  | .rq h => h
  | .rn h => h
  | .rd h => h
  | .rl h => h
  | .ascBuild h => h
  | .ascParse h => h
  | .ascReq h => h
  | .rtuBuild h => h
  | .rtuParse h => h
  | .rtuReq h => h

/-- A command is well formed when its handle index fits the 8 bits of `HSEL` (R80). Whether the instance has that
slot is no matter of the encoding: the acceptance checks it (R82 step 3). -/
def Instr.wf (i : Instr) : Bool := decide (i.handle < 256)

/-- Every entry of the byte-time table is a positive rate with a positive time, and no rate stands twice (R6). -/
def Config.baudTableWf (t : List (Nat × Nat)) : Bool :=
  t.all (fun e => decide (0 < e.1 ∧ 0 < e.2)) && decide (t.map Prod.fst).Nodup

/-- The constraints of R6 on the parameters of an instance. -/
def Config.Params.wf (p : Config.Params) : Bool :=
  decide (1 ≤ p.nchan ∧ p.nchan ≤ 8)
    && decide (1 ≤ p.nport ∧ p.nport ≤ 64)
    && decide (1 ≤ p.nhandle ∧ p.nhandle ≤ 448)
    && decide (4 ≤ p.bufBytes ∧ p.bufBytes ≤ 1024 ∧ p.bufBytes % 4 = 0)
    && Config.baudTableWf p.baudTable
    && decide (0 < p.defaultByteNs)
    && decide (0 < p.quietDen)

/-- A host access is well formed when it is 32 bits wide at a multiple of 4 (R63). The width is in bytes. -/
def busAccessOk (addr : BitVec 16) (width : Nat) : Bool :=
  decide (width = 4) && decide (addr.toNat % 4 = 0)

end Sys2Proof
end

