-- ==== Sys2Proof/Decode.lean ====
section
/-! DEFINITION. Decoding, encoding and the assembler syntax of a command word (30_encoding.md R80 to R88). -/

namespace Sys2Proof

/-- Why a word is no command: the two checks of R82 that the word alone decides, in their order. -/
inductive DecodeError where
  /-- R82 step 1: `w[7:0]` is not an opcode of R84. Safe: the spec names the error, IllegalCommand(1). -/
  | unlistedOpcode
  /-- R82 step 2: `w[31:16]` is not 0. Safe: the spec names the error, IllegalCommand(2). -/
  | reservedBits
deriving DecidableEq, Repr

/-- The opcode map of R84. -/
def opcodeTable : List (BitVec 8 × (Nat → Instr)) :=
  [ (0x10#8, .sumAdd)
  , (0x11#8, .sumChk)
  , (0x12#8, .sumStrip)
  , (0x18#8, .crcAdd)
  , (0x19#8, .crcChk)
  , (0x1A#8, .crcStrip)
  , (0x20#8, .wr)
  , (0x21#8, .xq)
  , (0x22#8, .xn)
  , (0x23#8, .xd)
  , (0x24#8, .xl)
  , (0x31#8, .rq)
  , (0x32#8, .rn)
  , (0x33#8, .rd)
  , (0x34#8, .rl)
  , (0x40#8, .ascBuild)
  , (0x41#8, .ascParse)
  , (0x42#8, .ascReq)
  , (0x48#8, .rtuBuild)
  , (0x49#8, .rtuParse)
  , (0x4A#8, .rtuReq) ]

/-- The fields of the format CMDW (R80). -/
def wordOpc (w : Word) : BitVec 8 := w.extractLsb' 0 8

/-- `HSEL`, zero-extended to a handle index (R80, R87). -/
def wordHsel (w : Word) : Nat := (w.extractLsb' 8 8).toNat

/-- Bits 31:16, which must be 0 (R80). -/
def wordReserved (w : Word) : BitVec 16 := w.extractLsb' 16 16

/-- Decoding at acceptance, steps 1 and 2 of R82 in their order: total, and a word that is no command is rejected by
the name of the check it fails. -/
def decode (w : Word) : Except DecodeError Instr :=
  match opcodeTable.lookup (wordOpc w) with
  | none => .error .unlistedOpcode
  | some mk => if wordReserved w = 0#16 then .ok (mk (wordHsel w)) else .error .reservedBits

/-- The opcode of a command (R84). -/
def Instr.opc : Instr → BitVec 8
  | .sumAdd _ => 0x10#8
  | .sumChk _ => 0x11#8
  | .sumStrip _ => 0x12#8
  | .crcAdd _ => 0x18#8
  | .crcChk _ => 0x19#8
  | .crcStrip _ => 0x1A#8
  | .wr _ => 0x20#8
  | .xq _ => 0x21#8
  | .xn _ => 0x22#8
  | .xd _ => 0x23#8
  | .xl _ => 0x24#8
  | .rq _ => 0x31#8
  | .rn _ => 0x32#8
  | .rd _ => 0x33#8
  | .rl _ => 0x34#8
  | .ascBuild _ => 0x40#8
  | .ascParse _ => 0x41#8
  | .ascReq _ => 0x42#8
  | .rtuBuild _ => 0x48#8
  | .rtuParse _ => 0x49#8
  | .rtuReq _ => 0x4A#8

/-- The command word of a command (R80): `OPC` in 7:0, `HSEL` in 15:8, 0 above. -/
def encode (i : Instr) : Word :=
  0#16 ++ BitVec.ofNat 8 i.handle ++ i.opc

/-- The decoder on an instruction given as the opcode table numbers its bits: one 32-bit word, the bits at and above
`nbits` zero (R81: one command length). -/
def decodeTableWord (nbits w : Nat) : Option Instr :=
  match decode (BitVec.ofNat 32 (w % 2 ^ nbits)) with
  | .ok i => some i
  | .error _ => none

/-- The mnemonic of a command (R84). -/
def Instr.mnemonic : Instr → String
  | .sumAdd _ => "SUM.ADD"
  | .sumChk _ => "SUM.CHK"
  | .sumStrip _ => "SUM.STRIP"
  | .crcAdd _ => "CRC.ADD"
  | .crcChk _ => "CRC.CHK"
  | .crcStrip _ => "CRC.STRIP"
  | .wr _ => "WR"
  | .xq _ => "XQ"
  | .xn _ => "XN"
  | .xd _ => "XD"
  | .xl _ => "XL"
  | .rq _ => "RQ"
  | .rn _ => "RN"
  | .rd _ => "RD"
  | .rl _ => "RL"
  | .ascBuild _ => "ASC.BUILD"
  | .ascParse _ => "ASC.PARSE"
  | .ascReq _ => "ASC.REQ"
  | .rtuBuild _ => "RTU.BUILD"
  | .rtuParse _ => "RTU.PARSE"
  | .rtuReq _ => "RTU.REQ"

/-- An uppercase hex digit as a character. -/
def hexChar (d : BitVec 4) : Char :=
  if d.toNat ≤ 9 then Char.ofNat (0x30 + d.toNat) else Char.ofNat (0x41 + (d.toNat - 10))

/-- The 8 hex digits of a word, high digit first. DEDUCED (log 18), safe: uppercase, as the listings of
95_test_vectors.md print them. -/
def hexWord (w : Word) : String :=
  String.ofList ([7, 6, 5, 4, 3, 2, 1, 0].map fun k => hexChar (w.extractLsb' (4 * k) 4))

/-- The assembler's form of a command (R88): the mnemonic, then the handle. -/
def assemblerText (i : Instr) : String :=
  i.mnemonic ++ " h" ++ toString i.handle

/-- A disassembler's line for any word (R88). -/
def disassemble (w : Word) : String :=
  match decode w with
  | .ok i => assemblerText i
  | .error _ => ".illegal 0x" ++ hexWord w

end Sys2Proof
end

