-- ==== Sys2Proof/Machine/Errors.lean ====
section
/-! DEFINITION. The errors a command can end with and their codes (60_exceptions.md R210). -/

namespace Sys2Proof.Machine

/-- The error classes (R210). -/
inductive ErrClass where
  | transport | checksum | semantic | configuration | illegal
deriving DecidableEq, Repr

/-- The complete list of errors (R210), one constructor per row of its table. -/
inductive CmdError where
  /-- TransportError(1): the open failed. -/
  | openFailed
  /-- TransportError(2): the configuration apply failed. -/
  | applyFailed
  /-- TransportError(3): the write failed. -/
  | writeFailed
  /-- TransportError(4): read timeout. -/
  | readTimeout
  /-- TransportError(5): short read in mode N. -/
  | shortRead
  /-- TransportError(6): receive overflow. -/
  | rxOverflow
  /-- ChecksumError(1): additive checksum mismatch. -/
  | sumMismatch
  /-- ChecksumError(2): fewer than 2 octets with the additive policy enabled. -/
  | sumShort
  /-- ChecksumError(3): CRC mismatch. -/
  | crcMismatch
  /-- ChecksumError(4): fewer than 2 octets with the CRC policy enabled. -/
  | crcShort
  /-- SemanticError(1): missing or unexpected separator. -/
  | badSeparator
  /-- SemanticError(2): missing, malformed or mismatched address. -/
  | badAddress
  /-- SemanticError(3): missing declared length, or a count different from it. -/
  | badLength
  /-- ConfigurationError(1): `PORT >= NPORT`. -/
  | portRange
  /-- ConfigurationError(2): `FRAME.DATA` not 7 or 8. -/
  | badData
  /-- ConfigurationError(3): `FRAME.PARITY > 4`. -/
  | badParity
  /-- ConfigurationError(4): `EOLLEN` 0 or above SEQ_MAX. -/
  | badEol
  /-- ConfigurationError(5): `BAUD = 0`. -/
  | baudZero
  /-- IllegalCommand(1): an opcode not in the map. -/
  | opcUnlisted
  /-- IllegalCommand(2): `CMD[31:16]` not 0. -/
  | reservedBits
  /-- IllegalCommand(3): `HSEL >= NHANDLE`. -/
  | handleRange
  /-- IllegalCommand(4): an operand range check fails. -/
  | operandRange
deriving DecidableEq, Repr

/-- The value of `STATUS.ERR` for a class (R213). -/
def ErrClass.code : ErrClass → BitVec 4
  | .transport => 1#4
  | .checksum => 2#4
  | .semantic => 3#4
  | .configuration => 4#4
  | .illegal => 5#4

/-- The class of an error (R210). -/
def CmdError.cls : CmdError → ErrClass
  | .openFailed | .applyFailed | .writeFailed | .readTimeout | .shortRead | .rxOverflow => .transport
  | .sumMismatch | .sumShort | .crcMismatch | .crcShort => .checksum
  | .badSeparator | .badAddress | .badLength => .semantic
  | .portRange | .badData | .badParity | .badEol | .baudZero => .configuration
  | .opcUnlisted | .reservedBits | .handleRange | .operandRange => .illegal

/-- The detail code of an error, the value of `STATUS.SUB` (R210). -/
def CmdError.sub : CmdError → BitVec 8
  | .openFailed => 1#8
  | .applyFailed => 2#8
  | .writeFailed => 3#8
  | .readTimeout => 4#8
  | .shortRead => 5#8
  | .rxOverflow => 6#8
  | .sumMismatch => 1#8
  | .sumShort => 2#8
  | .crcMismatch => 3#8
  | .crcShort => 4#8
  | .badSeparator => 1#8
  | .badAddress => 2#8
  | .badLength => 3#8
  | .portRange => 1#8
  | .badData => 2#8
  | .badParity => 3#8
  | .badEol => 4#8
  | .baudZero => 5#8
  | .opcUnlisted => 1#8
  | .reservedBits => 2#8
  | .handleRange => 3#8
  | .operandRange => 4#8

/-- The value of `STATUS.ERR` for an error (R210). -/
def CmdError.errCode (e : CmdError) : BitVec 4 := e.cls.code

end Sys2Proof.Machine
end

