-- ==== Sys2Proof/Machine/Codec.lean ====
section
/-! DEFINITION. The pure engines: the additive checksum and the CRC-16 (41_checksum.md), and the frame assemblers and
checkers (43_framers.md). -/

namespace Sys2Proof.Machine

/-- The additive checksum: the sum of the octets modulo 256 (R100). -/
def sum8 (s : Bytes) : Byte := BitVec.ofNat 8 (s.map BitVec.toNat).sum

/-- An uppercase hex digit as an octet (R101). -/
def hexDigit (d : BitVec 4) : Byte :=
  if d.toNat ≤ 9 then BitVec.ofNat 8 (0x30 + d.toNat) else BitVec.ofNat 8 (0x41 + (d.toNat - 10))

/-- Two uppercase hex digits, high nibble first (R101). -/
def hex2 (v : Byte) : Bytes := [hexDigit (v.extractLsb' 4 4), hexDigit (v.extractLsb' 0 4)]

/-- One shift of the CRC register (R110): the bit shifted out decides whether the polynomial is added. -/
def crcShift (c : Half) : Half :=
  if c.getLsbD 0 then (c >>> 1) ^^^ 0xA001#16 else c >>> 1

/-- `k` shifts of the CRC register. -/
def crcShifts : Nat → Half → Half
  | 0, c => c
  | k + 1, c => crcShifts k (crcShift c)

/-- One octet into the CRC (R110): into the low byte, then 8 shifts. -/
def crcByte (c : Half) (b : Byte) : Half := crcShifts 8 (c ^^^ b.setWidth 16)

/-- The CRC-16 with the seed 0xFFFF (R110). -/
def crc16 (s : Bytes) : Half := s.foldl crcByte 0xFFFF#16

/-- The wire form of a CRC, low byte first (R111). -/
def crcBytes (v : Half) : Bytes := [v.extractLsb' 0 8, v.extractLsb' 8 8]

/-- The octets before the last two. -/
def body2 (s : Bytes) : Bytes := s.take (s.length - 2)

/-- The last two octets. -/
def tail2 (s : Bytes) : Bytes := s.drop (s.length - 2)

/-- The output of SUM.ADD (R102). -/
def sumAdd (en : Bool) (s : Bytes) : Bytes := if en then s ++ hex2 (sum8 s) else s

/-- The verdict of SUM.CHK (R103). -/
def sumChk (en : Bool) (s : Bytes) : Bool :=
  if en then decide (2 ≤ s.length) && decide (tail2 s = hex2 (sum8 (body2 s))) else true

/-- SUM.STRIP (R104): also the first check of the ASCII parse (R184). -/
def sumStrip (en : Bool) (s : Bytes) : Except CmdError Bytes :=
  if en then
    if s.length < 2 then .error .sumShort
    else if tail2 s ≠ hex2 (sum8 (body2 s)) then .error .sumMismatch
    else .ok (body2 s)
  else .ok s

/-- The output of CRC.ADD (R112). -/
def crcAdd (en : Bool) (s : Bytes) : Bytes := if en then s ++ crcBytes (crc16 s) else s

/-- The verdict of CRC.CHK (R113). -/
def crcChk (en : Bool) (s : Bytes) : Bool :=
  if en then decide (2 ≤ s.length) && decide (tail2 s = crcBytes (crc16 (body2 s))) else true

/-- CRC.STRIP (R114): also the first check of the binary parse (R192). -/
def crcStrip (en : Bool) (s : Bytes) : Except CmdError Bytes :=
  if en then
    if s.length < 2 then .error .crcShort
    else if tail2 s ≠ crcBytes (crc16 (body2 s)) then .error .crcMismatch
    else .ok (body2 s)
  else .ok s

/-- The value of a hex digit octet, of either case (R181); none for any other octet. -/
def digitVal (a : Byte) : Option Nat :=
  if 0x30 ≤ a.toNat ∧ a.toNat ≤ 0x39 then some (a.toNat - 0x30)
  else if 0x41 ≤ a.toNat ∧ a.toNat ≤ 0x46 then some (a.toNat - 0x41 + 10)
  else if 0x61 ≤ a.toNat ∧ a.toNat ≤ 0x66 then some (a.toNat - 0x61 + 10)
  else none

/-- The value of two hex digits, high digit first (R181). -/
def hexVal (a b : Byte) : Option Nat :=
  match digitVal a, digitVal b with
  | some x, some y => some (16 * x + y)
  | _, _ => none

/-- The reply separators (R182). -/
def sepSet : List Byte := [0x21#8, 0x3F#8, 0x3E#8, 0x7E#8]

/-- The frame of ASC.BUILD (R183). -/
def ascFrame (sep addr : Byte) (addrEn sumEn : Bool) (eolSeq s : Bytes) : Bytes :=
  sumAdd sumEn ((sep :: if addrEn then hex2 addr else []) ++ s) ++ eolSeq

/-- What a successful parse gives: the value for `RES` and the output. -/
structure Rec where
  res : Byte
  body : Bytes
deriving DecidableEq, Repr

/-- The content checks of an ASCII reply whose checksum was removed (R184): the separator, then the address. -/
def ascContent (addr : Byte) (addrEn : Bool) (r : Bytes) : Except CmdError Rec :=
  match r with
  | [] => .error .badSeparator
  | sep :: rest =>
    if sep ∉ sepSet then .error .badSeparator
    else if addrEn then
      match rest with
      | a :: b :: body => if hexVal a b = some addr.toNat then .ok ⟨sep, body⟩ else .error .badAddress
      | _ => .error .badAddress
    else .ok ⟨sep, rest⟩

/-- ASC.PARSE (R184): the checksum first, then the content (R180). -/
def ascParse (addr : Byte) (addrEn sumEn : Bool) (r : Bytes) : Except CmdError Rec :=
  match sumStrip sumEn r with
  | .error e => .error e
  | .ok r => ascContent addr addrEn r

/-- The frame of RTU.BUILD (R191). -/
def rtuFrame (addr fn : Byte) (crcEn : Bool) (s : Bytes) : Bytes := crcAdd crcEn (addr :: fn :: s)

/-- The content checks of a binary reply whose CRC was removed (R192): the address, then the declared length. -/
def rtuContent (addr : Byte) (r : Bytes) : Except CmdError Rec :=
  match r with
  | [] => .error .badAddress
  | a :: rest =>
    if a ≠ addr then .error .badAddress
    else
      match rest with
      | fn :: len :: data => if data.length = len.toNat then .ok ⟨fn, data⟩ else .error .badLength
      | _ => .error .badLength

/-- RTU.PARSE (R192): the CRC first, then the content (R180). -/
def rtuParse (addr : Byte) (crcEn : Bool) (r : Bytes) : Except CmdError Rec :=
  match crcStrip crcEn r with
  | .error e => .error e
  | .ok r => rtuContent addr r

/-- `endsWith(s, d)` of 00_scope.md R10. -/
def endsWith (s d : Bytes) : Bool :=
  decide (d.length ≤ s.length) && decide (s.drop (s.length - d.length) = d)

/-- `s` without its last `k` octets. -/
def dropTail (s : Bytes) (k : Nat) : Bytes := s.take (s.length - k)

end Sys2Proof.Machine
end

