-- ==== Sys2Proof/Machine/State.lean ====
section
/-! DEFINITION. The state of the block (10_state.md), the steps its agents can take, and its reset (R48). -/

namespace Sys2Proof.Machine

/-- The phase of a channel's sequencer (R23, R27). -/
inductive Phase where
  | idle | waitLock | write | settle | read
deriving DecidableEq, Repr

/-- The line direction of a port (R45). -/
inductive Dir where
  | idle | tx | rx
deriving DecidableEq, Repr

/-- The mode of an exchange (42_transceiver.md R135): write only, quiet interval, exact length, delimiter, line. -/
inductive Mode where
  | w | q | n | d | l
deriving DecidableEq, Repr

/-- What the end of a successful exchange does with its output (R145): complete with it, or parse it as R184 or R192.
The model's own name for a function of the opcode (log 14). -/
inductive Reply where
  | plain | ascii | binary
deriving DecidableEq, Repr

/-- Four words that hold a packed sequence of 16 bytes: `DELIM[0..3]` (R29), `EOL[0..3]` (R39). -/
structure Quad where
  w0 : Word
  w1 : Word
  w2 : Word
  w3 : Word
deriving DecidableEq, Repr

/-- The snapshot `OP` taken at acceptance (R46, R135). -/
structure Op where
  /-- The opcode of the command. -/
  opc : BitVec 8
  /-- The handle index. -/
  h : Nat
  /-- The port index `p`. -/
  port : Nat
  mode : Mode
  /-- Whether the exchange has a WRITE phase (R135). -/
  hasWrite : Bool
  reply : Reply
  /-- The outgoing bytes `OUT`. -/
  out : Bytes
  /-- The exact length `N`. -/
  n : Nat
  /-- The delimiter `D`. -/
  delim : Bytes
  /-- The end-of-line marker `EOLSEQ`. -/
  eolSeq : Bytes
  addr : Byte
  addrEn : Bool
  sumEn : Bool
  crcEn : Bool
deriving DecidableEq, Repr

/-- The snapshot `LINE` taken at the lock grant (R46, R141). -/
structure Line where
  bt : Nat
  quiet : Nat
  /-- The timeout in nanoseconds, none when unbounded. -/
  timeout : Option Nat
  baud : Word
  data : BitVec 4
  parity : BitVec 3
  stop : BitVec 2
  flow : BitVec 4
deriving DecidableEq, Repr

/-- One command channel: its registers (R21 to R30) and its internal state (R46). `TXBUF` and `RXBUF` are in
`State.mem`. -/
structure Chan where
  cmd : Word
  busy : Bool
  done : Bool
  result : Bool
  rej : Bool
  err : BitVec 4
  sub : BitVec 8
  phase : Phase
  txlen : Half
  rxlen : Half
  arg0 : Half
  dlen : BitVec 5
  delim : Quad
  res : Byte
  op : Op
  line : Line
  watch : Bool
  acc : Bytes
  lastRx : Option Nat
  tRead : Nat
  tEnd : Nat
deriving DecidableEq, Repr

/-- One handle slot (R33 to R41). `FRAME` and `PROTO` are kept as the words the host reads. -/
structure Handle where
  port : BitVec 6
  baud : Word
  frame : Word
  timeoutMs : Word
  eolLen : BitVec 5
  eol : Quad
  proto : Word
  charset : Word
deriving DecidableEq, Repr

/-- One serial port (R45). -/
structure Port where
  /-- `OPEN`. -/
  opened : Bool
  /-- `OWNER`, a channel index. -/
  owner : Option Nat
  /-- `WAITERS`, a set kept as a strictly rising list. DEDUCED (log 15), safe. -/
  waiters : List Nat
  dir : Dir
  /-- `APPLIED`. -/
  applied : Option Line
  /-- The octets handed to the PHY, oldest first, each with the instant its slot begins. DESIGN CHOICE (log 11),
  unsafe: the model's record of an output (R142), which no rule reads, and its equal slots. -/
  sent : List (Nat × Byte)
deriving DecidableEq, Repr

/-- The answer of the register bus to the last host access (20_memory.md R63). DESIGN CHOICE (log 10), safe. -/
inductive BusResponse where
  /-- No access yet. -/
  | none
  /-- A write was taken. -/
  | ack
  /-- A read returned this word. -/
  | data (w : Word)
  /-- Bus error of a write. -/
  | writeError
  /-- Bus error of a read, whose data is any value. -/
  | readError (w : Word)
deriving DecidableEq, Repr

/-- A step of one agent of R20. What the agent is free to choose (an address, an octet, a draw, an instant, which
waiter is granted) is in the step. -/
inductive Event where
  /-- The host writes `v` with an access of `width` bytes (R63). -/
  | hostWrite (addr : BitVec 16) (width : Nat) (v : Word)
  /-- The host reads with an access of `width` bytes. -/
  | hostRead (addr : BitVec 16) (width : Nat)
  /-- The grant step of port `p` for channel `c`, with the draws of R133 (b). -/
  | grant (p c : Nat) (openOk applyOk : Bool)
  /-- The due deadline step of channel `c` (R142, R143, R144), with the draw of R133 (c). -/
  | deadline (c : Nat) (writeOk : Bool)
  /-- An octet arrives on port `p` (R133 (a)). `writeOk` is the draw of R133 (c) for the deadline step of WRITE, where
  that step is due at this instant and so fires before the octet (R138). -/
  | rx (p : Nat) (b : Byte) (writeOk : Bool)
  /-- The clock advances to `t` (R134). -/
  | advance (t : Nat)
  /-- The reset input (70_reset_and_hazards.md R240). -/
  | reset
deriving DecidableEq, Repr

/-- Bytes by their byte address in the register space: the canonical form lists addresses strictly rising. An
unlisted address holds no known value (R31, R32). -/
abbrev Memory := List Host.Cell

/-- The whole machine. -/
structure State where
  /-- The parameters of the instance (R6); no step changes them. -/
  cfg : Config.Params
  chans : List Chan
  handles : List Handle
  ports : List Port
  /-- The bytes of the `TXBUF` and `RXBUF` windows (20_memory.md R60 (b)). -/
  mem : Memory
  /-- `now`, in nanoseconds (R134). -/
  now : Nat
  /-- The model's own: how many free values were drawn (log 5). -/
  free : Nat
  /-- The model's own: the channel whose `CMD` write is being accepted (log 13). -/
  sel : Nat
  /-- The model's own: the last answer of the register bus (log 10). -/
  resp : BusResponse
  /-- The model's own: the coming steps of the agents, in order (log 2). -/
  sched : List Event
deriving DecidableEq, Repr

/-- Why the machine stops with a fault. Only an entry of the schedule can raise one, never a command. -/
inductive Fault where
  /-- A `grant` or `rx` entry names a port the instance does not have. Safe: R20 has no such agent. -/
  | noSuchPort
  /-- A `grant` or `deadline` entry names a channel the instance does not have. Safe: R20 has no such agent. -/
  | noSuchChannel
deriving DecidableEq, Repr

/-- Why a step has no meaning. -/
inductive Refusal where
  /-- An arm of `exec` without a meaning. No arm raises it. Safe. -/
  | notModelled (mnemonic : String)
  /-- A schedule entry names a grant, a deadline or a clock step that is not enabled now (R134, R140, R142 to R144).
  Safe: the block takes no such step (log 3). -/
  | stepNotEnabled
deriving DecidableEq, Repr

/-- Four zero words. -/
def Quad.zero : Quad := ⟨0#32, 0#32, 0#32, 0#32⟩

/-- The content of `OP` before it is first set. DESIGN CHOICE (log 8), unsafe: R46 leaves it unspecified, and unread. -/
def Op.reset : Op where
  opc := 0#8
  h := 0
  port := 0
  mode := .w
  hasWrite := false
  reply := .plain
  out := []
  n := 0
  delim := []
  eolSeq := []
  addr := 0#8
  addrEn := false
  sumEn := false
  crcEn := false

/-- The content of `LINE` before it is first set. DESIGN CHOICE (log 8), unsafe: R46 leaves it unspecified, and unread. -/
def Line.reset : Line where
  bt := 0
  quiet := 0
  timeout := none
  baud := 0#32
  data := 0#4
  parity := 0#3
  stop := 0#2
  flow := 0#4

/-- A channel after reset (R48). -/
def Chan.reset : Chan where
  cmd := 0#32
  busy := false
  done := false
  result := false
  rej := false
  err := 0#4
  sub := 0#8
  phase := .idle
  txlen := 0#16
  rxlen := 0#16
  arg0 := 0#16
  dlen := 0#5
  delim := Quad.zero
  res := 0#8
  op := Op.reset
  line := Line.reset
  watch := false
  acc := []
  lastRx := none
  tRead := 0
  tEnd := 0

/-- A handle slot after reset (R48): only `PROTO` is not 0, with both policies enabled. -/
def Handle.reset : Handle where
  port := 0#6
  baud := 0#32
  frame := 0#32
  timeoutMs := 0#32
  eolLen := 0#5
  eol := Quad.zero
  proto := 0x600#32
  charset := 0#32

/-- A port after reset (R45). -/
def Port.reset : Port where
  opened := false
  owner := none
  waiters := []
  dir := .idle
  applied := none
  sent := []

/-- An instance with parameters `p` right after reset (R48). -/
def State.resetOf (p : Config.Params) : State where
  cfg := p
  chans := List.replicate p.nchan Chan.reset
  handles := List.replicate p.nhandle Handle.reset
  ports := List.replicate p.nport Port.reset
  mem := []
  now := 0
  free := 0
  sel := 0
  resp := .none
  sched := []

/-- The machine right after reset. DESIGN CHOICE (log 1), unsafe: the instance is the reference instance of R6. -/
def State.reset : State := State.resetOf Config.reference

end Sys2Proof.Machine
end

