-- ==== Sys2Proof/Machine/Ops.lean ====
section
/-! DEFINITION. The named operations over memory, registers and the rest of the state, and the two ends of a command:
taking an error (60_exceptions.md R213) and the success end (R214). -/

namespace Sys2Proof.Machine

/-- The known value of the byte at an address; none where nothing was written. -/
def Memory.read? : Memory → Nat → Option Byte
  | [], _ => none
  | (k, b) :: m, a => if k = a then some b else Memory.read? m a

/-- Write one byte, keeping the addresses strictly rising. -/
def Memory.write : Memory → Nat → Byte → Memory
  | [], a, b => [(a, b)]
  | (k, v) :: m, a, b =>
    if a < k then (a, b) :: (k, v) :: m
    else if a = k then (a, b) :: m
    else (k, v) :: Memory.write m a b

/-- Write bytes at rising addresses from `a` on. -/
def Memory.writeBytes : Memory → Nat → Bytes → Memory
  | m, _, [] => m
  | m, a, b :: bs => Memory.writeBytes (Memory.write m a b) (a + 1) bs

/-- The canonical form: addresses strictly rising. -/
abbrev Memory.wf (m : Memory) : Prop := m.Pairwise (fun x y => x.1 < y.1)

/-- The first address of a channel's register window (20_memory.md R62). -/
def chanBase (c : Nat) : Nat := 0x8000 + 0x1000 * c

/-- The address of byte `k` of `TXBUF` of channel `c` (R62, R64). -/
def txAddr (c k : Nat) : Nat := chanBase c + 0x400 + k

/-- The address of byte `k` of `RXBUF` of channel `c` (R62, R64). -/
def rxAddr (c k : Nat) : Nat := chanBase c + 0x800 + k

/-- The four bytes of a word, low byte first (R64). -/
def wordBytes (w : Word) : Bytes :=
  [w.extractLsb' 0 8, w.extractLsb' 8 8, w.extractLsb' 16 8, w.extractLsb' 24 8]

/-- The word of four bytes, low byte first (R64). -/
def bytesWord (b0 b1 b2 b3 : Byte) : Word := b3 ++ b2 ++ b1 ++ b0

/-- The 16 packed bytes of `DELIM` or `EOL` (10_state.md R29, R39). -/
def Quad.bytes (q : Quad) : Bytes :=
  wordBytes q.w0 ++ wordBytes q.w1 ++ wordBytes q.w2 ++ wordBytes q.w3

/-- Word `j` of four. -/
def Quad.get (q : Quad) (j : Nat) : Word :=
  match j with
  | 0 => q.w0
  | 1 => q.w1
  | 2 => q.w2
  | _ => q.w3

/-- Replace word `j` of four. -/
def Quad.set (q : Quad) (j : Nat) (w : Word) : Quad :=
  match j with
  | 0 => { q with w0 := w }
  | 1 => { q with w1 := w }
  | 2 => { q with w2 := w }
  | _ => { q with w3 := w }

/-- Channel `c`, as after reset where the instance has none. -/
def State.chan (s : State) (c : Nat) : Chan := s.chans.getD c Chan.reset

/-- Handle slot `h`, as after reset where the instance has none. -/
def State.handle (s : State) (h : Nat) : Handle := s.handles.getD h Handle.reset

/-- Port `p`, as after reset where the instance has none. -/
def State.port (s : State) (p : Nat) : Port := s.ports.getD p Port.reset

/-- Update channel `c`. -/
def State.modChan (s : State) (c : Nat) (f : Chan → Chan) : State := { s with chans := s.chans.modify c f }

/-- Update handle slot `h`. -/
def State.modHandle (s : State) (h : Nat) (f : Handle → Handle) : State := { s with handles := s.handles.modify h f }

/-- Update port `p`. -/
def State.modPort (s : State) (p : Nat) (f : Port → Port) : State := { s with ports := s.ports.modify p f }

/-- Replace the memory. -/
def State.setMem (s : State) (m : Memory) : State := { s with mem := m }

/-- Replace the clock. -/
def State.setNow (s : State) (t : Nat) : State := { s with now := t }

/-- Count `k` more free values as drawn. -/
def State.addFree (s : State) (k : Nat) : State := { s with free := s.free + k }

/-- Select the channel on which `exec` runs. -/
def State.setSel (s : State) (c : Nat) : State := { s with sel := c }

/-- Set the bus response. -/
def State.setResp (s : State) (r : BusResponse) : State := { s with resp := r }

/-- Replace the schedule. -/
def State.setSched (s : State) (l : List Event) : State := { s with sched := l }

/-- The model's read of one byte of the buffer windows: its known value, none where nothing was written. -/
def State.byte? (s : State) (a : Nat) : Option Byte := s.mem.read? a

/-- Byte `k` of the operand of channel `c` (R31): a byte that no host write has written is a free value. DESIGN CHOICE
(log 6), safe. -/
def State.txByte (s : State) (c k : Nat) : Byte :=
  (s.byte? (txAddr c k)).getD (Config.freeByte (s.free + k))

/-- The first `n` bytes of `TXBUF` of channel `c` (R31). -/
def State.txBytes (s : State) (c n : Nat) : Bytes := (List.range n).map (s.txByte c)

/-- Add a channel to a set of waiters, kept strictly rising (R45). -/
def waitersAdd : List Nat → Nat → List Nat
  | [], c => [c]
  | w :: ws, c => if c < w then c :: w :: ws else if c = w then w :: ws else w :: waitersAdd ws c

/-- Take a channel out of a set of waiters. -/
def waitersRemove (ws : List Nat) (c : Nat) : List Nat := ws.filter (fun w => w ≠ c)

/-- A channel after an error end (60_exceptions.md R213). -/
def Chan.raise (e : CmdError) (ch : Chan) : Chan :=
  { ch with err := e.errCode, sub := e.sub, result := false, rxlen := 0#16, res := 0#8, phase := .idle,
            busy := false, done := true }

/-- A channel after a success end with `k` output bytes (R214): `RESULT` and `RES` stay as the command set them. -/
def Chan.complete (k : Nat) (ch : Chan) : Chan :=
  { ch with rxlen := BitVec.ofNat 16 k, err := 0#4, sub := 0#8, phase := .idle, busy := false, done := true }

/-- `RESULT <- v`. -/
def Chan.setResult (v : Bool) (ch : Chan) : Chan := { ch with result := v }

/-- `RES <- v`. -/
def Chan.setRes (v : Byte) (ch : Chan) : Chan := { ch with res := v }

/-- A channel after the acceptance of the word `w` (R211). -/
def Chan.accept (w : Word) (ch : Chan) : Chan :=
  { ch with cmd := w, busy := true, done := false, result := false, rej := false, err := 0#4, sub := 0#8,
            rxlen := 0#16, res := 0#8 }

/-- A channel after a rejected `CMD` write (R211): only `REJ` changes. -/
def Chan.reject (ch : Chan) : Chan := { ch with rej := true }

/-- Taking an error: `raise E(sub)` on channel `c` (R213), one shared operation. -/
def State.raise (s : State) (c : Nat) (e : CmdError) : State := s.modChan c (Chan.raise e)

/-- The success end: `complete(out)` on channel `c` (R214). -/
def State.complete (s : State) (c : Nat) (out : Bytes) : State :=
  (s.modChan c (Chan.complete out.length)).setMem (s.mem.writeBytes (rxAddr c 0) out)

/-- The acceptance of the word `w` on channel `c` (R211), before the decode. -/
def State.accept (s : State) (c : Nat) (w : Word) : State := (s.modChan c (Chan.accept w)).setSel c

/-- A parse's end (43_framers.md R184, R192): the record into `RES` and the output, or the error. -/
def State.endParse (s : State) (c : Nat) (r : Except CmdError Rec) : State :=
  match r with
  | .ok rec => (s.modChan c (Chan.setRes rec.res)).complete c rec.body
  | .error e => s.raise c e

/-- Entering WAIT_LOCK with the snapshot `o` (42_transceiver.md R135). -/
def State.enterWaitLock (s : State) (c : Nat) (o : Op) : State :=
  (s.modChan c fun ch => { ch with op := o, phase := .waitLock }).modPort o.port
    fun pt => { pt with waiters := waitersAdd pt.waiters c }

end Sys2Proof.Machine
end

