-- ==== Sys2Proof/Machine/Flags.lean ====
section
/-! DEFINITION. The flag and status words (10_state.md R23, R43, R44, R47) and the fields of FRAME and PROTO (R36, R40). -/

namespace Sys2Proof.Machine

/-- The value of `STATUS.PHASE` (R23). -/
def Phase.code : Phase → BitVec 3
  | .idle => 0#3
  | .waitLock => 1#3
  | .write => 2#3
  | .settle => 3#3
  | .read => 4#3

/-- The value of `PORT_STATUS.DIR` (R44). -/
def Dir.code : Dir → BitVec 2
  | .idle => 0#2
  | .tx => 1#2
  | .rx => 2#2

/-- The word `STATUS` (R23). -/
def Chan.statusWord (ch : Chan) : Word :=
  0#13 ++ ch.phase.code ++ ch.sub ++ ch.err ++ BitVec.ofBool ch.rej ++ BitVec.ofBool ch.result
    ++ BitVec.ofBool ch.done ++ BitVec.ofBool ch.busy

/-- The word `PORT_STATUS` (R44). -/
def Port.statusWord (pt : Port) : Word :=
  0#25 ++ pt.dir.code ++ BitVec.ofNat 3 (pt.owner.getD 0) ++ BitVec.ofBool pt.owner.isSome ++ BitVec.ofBool pt.opened

/-- The word `PARAMS` (R43). -/
def paramsWord (p : Config.Params) : Word :=
  0#1 ++ BitVec.ofNat 11 p.bufBytes ++ BitVec.ofNat 9 p.nhandle ++ BitVec.ofNat 7 p.nport ++ BitVec.ofNat 4 p.nchan

/-- The bits of `FRAME` that are stored (R36). -/
def frameMask : Word := 0x0000F37F#32

/-- The bits of `PROTO` that are stored (R40). -/
def protoMask : Word := 0x000007FF#32

/-- `FRAME.DATA` (R36). -/
def Handle.data (hd : Handle) : BitVec 4 := hd.frame.extractLsb' 0 4

/-- `FRAME.PARITY` (R36). -/
def Handle.parity (hd : Handle) : BitVec 3 := hd.frame.extractLsb' 4 3

/-- `FRAME.STOP` (R36). -/
def Handle.stop (hd : Handle) : BitVec 2 := hd.frame.extractLsb' 8 2

/-- `FRAME.FLOW` (R36). -/
def Handle.flow (hd : Handle) : BitVec 4 := hd.frame.extractLsb' 12 4

/-- `PROTO.ADDR` (R40). -/
def Handle.addr (hd : Handle) : Byte := hd.proto.extractLsb' 0 8

/-- `PROTO.ADDR_EN` (R40). -/
def Handle.addrEn (hd : Handle) : Bool := hd.proto.getLsbD 8

/-- `PROTO.SUM_EN`, the ChecksumPolicy of the additive checksum (R40, R47). -/
def Handle.sumEn (hd : Handle) : Bool := hd.proto.getLsbD 9

/-- `PROTO.CRC_EN`, the ChecksumPolicy of the CRC-16 (R40, R47). -/
def Handle.crcEn (hd : Handle) : Bool := hd.proto.getLsbD 10

end Sys2Proof.Machine
end

