-- ==== Sys2Proof/Machine/Operands.lean ====
section
/-! DEFINITION. The operands of a command, read once at acceptance (20_memory.md R67; 30_encoding.md R87), the acceptance
checks (30_encoding.md R82, R83) and the snapshot OP (42_transceiver.md R135). -/

namespace Sys2Proof.Machine

/-- Everything a command reads at acceptance (R67). -/
structure Operands where
  /-- The handle index `h`. -/
  h : Nat
  /-- `n = TXLEN`. -/
  n : Nat
  /-- `TX(c)`. -/
  tx : Bytes
  arg0 : Half
  /-- `DLEN`. -/
  dlen : Nat
  /-- The delimiter, bytes 0 to DLEN-1 of `DELIM`. -/
  delim : Bytes
  /-- `hd[h].PORT`. -/
  port : Nat
  addr : Byte
  addrEn : Bool
  sumEn : Bool
  crcEn : Bool
  /-- `hd[h].EOLLEN`. -/
  eolLen : Nat
  /-- The end-of-line marker, bytes 0 to EOLLEN-1 of `hd[h].EOL`. -/
  eolSeq : Bytes
deriving DecidableEq, Repr

/-- The operands of a command with handle `h` on the selected channel (R67, R87). -/
def State.operands (s : State) (h : Nat) : Operands :=
  let ch := s.chan s.sel
  let hd := s.handle h
  { h := h
    n := ch.txlen.toNat
    tx := s.txBytes s.sel ch.txlen.toNat
    arg0 := ch.arg0
    dlen := ch.dlen.toNat
    delim := ch.delim.bytes.take ch.dlen.toNat
    port := hd.port.toNat
    addr := hd.addr
    addrEn := hd.addrEn
    sumEn := hd.sumEn
    crcEn := hd.crcEn
    eolLen := hd.eolLen.toNat
    eolSeq := hd.eol.bytes.take hd.eolLen.toNat }

/-- `ARG0[7:0]`: the send separator or the function code (R87). -/
def Operands.argByte (o : Operands) : Byte := o.arg0.extractLsb' 0 8

/-- `N = zext_16(ARG0[15:0])` (R87). -/
def Operands.exactLen (o : Operands) : Nat := o.arg0.toNat

/-- Two bytes where a policy or an address is enabled, none otherwise. -/
def twoIf (en : Bool) : Nat := if en then 2 else 0

/-- A range check that only the common one of R83 covers. -/
def fitsAny (_ : Nat) (_ : Operands) : Bool := true

/-- SUM.ADD (R83). -/
def fitsSum (buf : Nat) (o : Operands) : Bool := decide (o.n + twoIf o.sumEn ≤ buf)

/-- CRC.ADD (R83). -/
def fitsCrc (buf : Nat) (o : Operands) : Bool := decide (o.n + twoIf o.crcEn ≤ buf)

/-- XN and RN (R83). -/
def fitsExact (buf : Nat) (o : Operands) : Bool := decide (o.exactLen ≤ buf)

/-- XD and RD (R83). -/
def fitsDelim (_ : Nat) (o : Operands) : Bool := decide (1 ≤ o.dlen ∧ o.dlen ≤ Config.seqMax)

/-- ASC.BUILD and ASC.REQ (R83). -/
def fitsAsc (buf : Nat) (o : Operands) : Bool :=
  decide (1 + twoIf o.addrEn + o.n + twoIf o.sumEn + o.eolLen ≤ buf)

/-- RTU.BUILD and RTU.REQ (R83). -/
def fitsRtu (buf : Nat) (o : Operands) : Bool := decide (2 + o.n + twoIf o.crcEn ≤ buf)

/-- What a command's acceptance checks need to know of it (R82, R83). -/
structure Needs where
  /-- Step 4: the range check of R83 beside the common one. -/
  fits : Nat → Operands → Bool
  /-- Step 5: a transceiver or request command. -/
  port : Bool
  /-- Step 6: XL, RL, ASC.BUILD, ASC.REQ. -/
  eol : Bool

/-- Steps 3 to 6 of R82 in their order: the first check that fails, if one does. -/
def acceptError (p : Config.Params) (o : Operands) (need : Needs) : Option CmdError :=
  if p.nhandle ≤ o.h then some .handleRange
  else if p.bufBytes < o.n ∨ need.fits p.bufBytes o = false then some .operandRange
  else if need.port = true ∧ p.nport ≤ o.port then some .portRange
  else if need.eol = true ∧ (o.eolLen = 0 ∨ Config.seqMax < o.eolLen) then some .badEol
  else none

/-- The common part of every meaning: the checks, then the command with the operands read at this instant (R82). The
operand bytes may have drawn `n` free values. -/
def State.accepted (s : State) (h : Nat) (need : Needs) (run : Operands → State → State) : State :=
  match acceptError s.cfg (s.operands h) need with
  | some e => s.raise s.sel e
  | none => run (s.operands h) (s.addFree (s.operands h).n)

/-- The end of an atomic command (60_exceptions.md R215) with verdict `result`. -/
def State.finish (s : State) (result : Bool) (out : Bytes) : State :=
  (s.modChan s.sel (Chan.setResult result)).complete s.sel out

/-- The end of an atomic command whose engine may fail. -/
def State.finishE (s : State) (r : Except CmdError Bytes) : State :=
  match r with
  | .ok out => s.finish false out
  | .error e => s.raise s.sel e

/-- The snapshot OP of a command (42_transceiver.md R135). `OUT` is `TX(c)` but for the request commands. -/
def Operands.op (o : Operands) (opc : BitVec 8) (mode : Mode) (hasWrite : Bool) (reply : Reply) (out : Bytes) : Op where
  opc := opc
  h := o.h
  port := o.port
  mode := mode
  hasWrite := hasWrite
  reply := reply
  out := out
  n := o.exactLen
  delim := o.delim
  eolSeq := o.eolSeq
  addr := o.addr
  addrEn := o.addrEn
  sumEn := o.sumEn
  crcEn := o.crcEn

/-- A transceiver command's acceptance (R135): the checks, then WAIT_LOCK. -/
def State.startExchange (s : State) (h : Nat) (fits : Nat → Operands → Bool) (eol : Bool) (opc : BitVec 8) (mode : Mode)
    (hasWrite : Bool) (reply : Reply) (out : Operands → Bytes) : State :=
  s.accepted h ⟨fits, true, eol⟩ fun o s => s.enterWaitLock s.sel (o.op opc mode hasWrite reply (out o))

end Sys2Proof.Machine
end

