-- ==== Sys2Proof/Machine/Bus.lean ====
section
/-! DEFINITION. The register bus: the address map, reads and writes (20_memory.md R62 to R69; 10_state.md R22 to R44). -/

namespace Sys2Proof.Machine

/-- A register of a handle slot. -/
inductive HandleReg where
  | port | baud | frame | timeoutMs | eolLen
  /-- `EOL[j]`. -/
  | eol (j : Nat)
  | proto | charset
deriving DecidableEq, Repr

/-- A register of a channel. -/
inductive ChanReg where
  | cmd | status | txlen | rxlen | arg0 | dlen
  /-- `DELIM[j]`. -/
  | delim (j : Nat)
  | res
deriving DecidableEq, Repr

/-- What an aligned address of the register space names (R62). -/
inductive Target where
  | id | params
  /-- Read as 0, writes ignored (R66). -/
  | reserved
  | portStatus (p : Nat)
  | handleReg (h : Nat) (r : HandleReg)
  | chanReg (c : Nat) (r : ChanReg)
  /-- The word of `TXBUF` whose first byte is byte `k`. -/
  | txbuf (c k : Nat)
  /-- The word of `RXBUF` whose first byte is byte `k`. -/
  | rxbuf (c k : Nat)
deriving DecidableEq, Repr

/-- The register at an offset of a handle slot's window (R62). -/
def handleRegAt (off : Nat) : Option HandleReg :=
  match off with
  | 0x00 => some .port
  | 0x04 => some .baud
  | 0x08 => some .frame
  | 0x0C => some .timeoutMs
  | 0x10 => some .eolLen
  | 0x14 => some (.eol 0)
  | 0x18 => some (.eol 1)
  | 0x1C => some (.eol 2)
  | 0x20 => some (.eol 3)
  | 0x24 => some .proto
  | 0x28 => some .charset
  | _ => none

/-- The register at an offset of a channel's window (R62). -/
def chanRegAt (off : Nat) : Option ChanReg :=
  match off with
  | 0x000 => some .cmd
  | 0x004 => some .status
  | 0x008 => some .txlen
  | 0x00C => some .rxlen
  | 0x010 => some .arg0
  | 0x014 => some .dlen
  | 0x018 => some (.delim 0)
  | 0x01C => some (.delim 1)
  | 0x020 => some (.delim 2)
  | 0x024 => some (.delim 3)
  | 0x028 => some .res
  | _ => none

/-- The target of an offset of a present channel's window: its registers, then the two buffer windows, whose offsets
at or above BUF_BYTES are reserved (R62, R66). -/
def chanTarget (p : Config.Params) (c off : Nat) : Target :=
  if off < 0x400 then
    match chanRegAt off with
    | some r => .chanReg c r
    | none => .reserved
  else if off < 0x800 then
    if off - 0x400 < p.bufBytes then .txbuf c (off - 0x400) else .reserved
  else if off < 0xC00 then
    if off - 0x800 < p.bufBytes then .rxbuf c (off - 0x800) else .reserved
  else .reserved

/-- The address map (R62) for an aligned address. -/
def targetAt (p : Config.Params) (addr : BitVec 16) : Target :=
  let a := addr.toNat
  if a = 0x0000 then .id
  else if a = 0x0004 then .params
  else if a < 0x0100 then .reserved
  else if a < 0x0200 then .portStatus ((a - 0x0100) / 4)
  else if a < 0x1000 then .reserved
  else if a < 0x8000 then
    let h := (a - 0x1000) / 0x40
    if h < p.nhandle then
      match handleRegAt ((a - 0x1000) % 0x40) with
      | some r => .handleReg h r
      | none => .reserved
    else .reserved
  else
    let c := (a - 0x8000) / 0x1000
    if c < p.nchan then chanTarget p c ((a - 0x8000) % 0x1000) else .reserved

/-- The value of a handle register (10_state.md R34 to R41). -/
def Handle.readReg (hd : Handle) : HandleReg → Word
  | .port => hd.port.setWidth 32
  | .baud => hd.baud
  | .frame => hd.frame
  | .timeoutMs => hd.timeoutMs
  | .eolLen => hd.eolLen.setWidth 32
  | .eol j => hd.eol.get j
  | .proto => hd.proto
  | .charset => hd.charset

/-- A host write to a handle register (R34 to R41): the bits the register has are stored. -/
def Handle.writeReg (hd : Handle) (r : HandleReg) (v : Word) : Handle :=
  match r with
  | .port => { hd with port := v.setWidth 6 }
  | .baud => { hd with baud := v }
  | .frame => { hd with frame := v &&& frameMask }
  | .timeoutMs => { hd with timeoutMs := v }
  | .eolLen => { hd with eolLen := v.setWidth 5 }
  | .eol j => { hd with eol := hd.eol.set j v }
  | .proto => { hd with proto := v &&& protoMask }
  | .charset => { hd with charset := v }

/-- The value of a channel register (R22 to R30). `RXLEN` and `RES` read as any value while the channel is busy
(R68): `k` numbers the free value. -/
def Chan.readReg (ch : Chan) (k : Nat) : ChanReg → Word
  | .cmd => ch.cmd
  | .status => ch.statusWord
  | .txlen => ch.txlen.setWidth 32
  | .rxlen => if ch.busy = true then Config.freeWord k else ch.rxlen.setWidth 32
  | .arg0 => ch.arg0.setWidth 32
  | .dlen => ch.dlen.setWidth 32
  | .delim j => ch.delim.get j
  | .res => if ch.busy = true then Config.freeWord k else ch.res.setWidth 32

/-- A host write to an operand register (R24, R26, R28, R29): ignored while busy (R68), as are writes to the
read-only ones always (R66). `CMD` is not written here but issued (R211). -/
def Chan.writeReg (ch : Chan) (r : ChanReg) (v : Word) : Chan :=
  if ch.busy = true then ch
  else
    match r with
    | .cmd => ch
    | .status => ch
    | .txlen => { ch with txlen := v.setWidth 16 }
    | .rxlen => ch
    | .arg0 => { ch with arg0 := v.setWidth 16 }
    | .dlen => { ch with dlen := v.setWidth 5 }
    | .delim j => { ch with delim := ch.delim.set j v }
    | .res => ch

/-- Byte `k` of `RXBUF` as a host reads it (R32): an output byte of the last command, or any value at and above
`RXLEN` and while busy. `i` numbers the free value. DESIGN CHOICE of the form only (log 7), safe. -/
def State.rxByte (s : State) (c k i : Nat) : Byte :=
  if (s.chan c).busy = false ∧ k < (s.chan c).rxlen.toNat then (s.byte? (rxAddr c k)).getD (Config.freeByte i)
  else Config.freeByte i

/-- Byte `k` of `TXBUF` as a host reads it (R31): any value where nothing was written. `i` numbers the free value. -/
def State.txReadByte (s : State) (c k i : Nat) : Byte := (s.byte? (txAddr c k)).getD (Config.freeByte i)

/-- The word a host reads at a target (R62, R64, R66). -/
def State.readTarget (s : State) : Target → Word
  | .id => s.cfg.blockId
  | .params => paramsWord s.cfg
  | .reserved => 0#32
  | .portStatus p => if p < s.cfg.nport then (s.port p).statusWord else 0#32
  | .handleReg h r => (s.handle h).readReg r
  | .chanReg c r => (s.chan c).readReg s.free r
  | .txbuf c k =>
    bytesWord (s.txReadByte c k s.free) (s.txReadByte c (k + 1) (s.free + 1)) (s.txReadByte c (k + 2) (s.free + 2))
      (s.txReadByte c (k + 3) (s.free + 3))
  | .rxbuf c k =>
    bytesWord (s.rxByte c k s.free) (s.rxByte c (k + 1) (s.free + 1)) (s.rxByte c (k + 2) (s.free + 2))
      (s.rxByte c (k + 3) (s.free + 3))

/-- A host write at a target other than a `CMD` register (R62, R66, R68). -/
def State.writeTarget (s : State) (t : Target) (v : Word) : State :=
  match t with
  | .id => s
  | .params => s
  | .reserved => s
  | .portStatus _ => s
  | .handleReg h r => s.modHandle h fun hd => hd.writeReg r v
  | .chanReg c r => s.modChan c fun ch => ch.writeReg r v
  | .txbuf c k =>
    if (s.chan c).busy = true then s else s.setMem (s.mem.writeBytes (txAddr c k) (wordBytes v))
  | .rxbuf _ _ => s

/-- A host read (R63): the word on the bus, or a bus error with any data. At most four free values are drawn. -/
def State.hostRead (s : State) (addr : BitVec 16) (width : Nat) : State :=
  if busAccessOk addr width = true then (s.setResp (.data (s.readTarget (targetAt s.cfg addr)))).addFree 4
  else (s.setResp (.readError (Config.freeWord s.free))).addFree 4

/-- A host write that issues no command (R63): taken, or a bus error that changes nothing. -/
def State.hostWrite (s : State) (addr : BitVec 16) (width : Nat) (v : Word) : State :=
  if busAccessOk addr width = true then (s.writeTarget (targetAt s.cfg addr) v).setResp .ack
  else s.setResp .writeError

/-- The address of `CMD` of channel `c` (R62). -/
def cmdAddr (c : Nat) : BitVec 16 := BitVec.ofNat 16 (chanBase c)

/-- The channel and word of a host write that is an attempt to issue a command (R22): an access the bus takes, at the
`CMD` register of a present channel. -/
def issued? (p : Config.Params) (e : Event) : Option (Nat × Word) :=
  match e with
  | .hostWrite addr width v =>
    if busAccessOk addr width = true then
      match targetAt p addr with
      | .chanReg c .cmd => some (c, v)
      | _ => none
    else none
  | _ => none

end Sys2Proof.Machine
end

