-- ==== Sys2Proof/Machine/Exchange.lean ====
section
/-! DEFINITION. The exchange after its acceptance: the grant step, the deadline steps, received octets, the end of an
exchange, and what the clock may do (42_transceiver.md R134 to R147). -/

namespace Sys2Proof.Machine

/-- The grant's snapshot LINE (R141, R7, R8). -/
def lineSnapshot (p : Config.Params) (hd : Handle) : Line where
  bt := Config.byteTime p hd.baud
  quiet := Config.quietNs p (Config.byteTime p hd.baud)
  timeout := Config.timeoutNs hd.timeoutMs
  baud := hd.baud
  data := hd.data
  parity := hd.parity
  stop := hd.stop
  flow := hd.flow

/-- The configuration checks of the grant in their order (R141, R216). -/
def lineError (l : Line) : Option CmdError :=
  if l.baud = 0#32 then some .baudZero
  else if l.data ≠ 7#4 ∧ l.data ≠ 8#4 then some .badData
  else if 4 < l.parity.toNat then some .badParity
  else none

/-- A port closed and released (R145). -/
def Port.release (pt : Port) : Port := { pt with opened := false, dir := .idle, owner := none }

/-- What the end of a successful exchange does with its output (R145): a transceiver command completes with it, a
request command parses it (43_framers.md R185, R193). -/
def State.endReply (s : State) (c : Nat) (out : Bytes) : State :=
  let o := (s.chan c).op
  match o.reply with
  | .plain => s.complete c out
  | .ascii => s.endParse c (ascParse o.addr o.addrEn o.sumEn out)
  | .binary => s.endParse c (rtuParse o.addr o.crcEn out)

/-- The end of an exchange of channel `c` (R145): watcher removed, port closed and released on every path, then the
output or the error. -/
def State.endExchange (s : State) (c : Nat) (r : Except CmdError Bytes) : State :=
  let s := (s.modPort (s.chan c).op.port Port.release).modChan c
    fun ch => { ch with watch := false, phase := .idle, result := false }
  match r with
  | .ok out => s.endReply c out
  | .error e => s.raise c e

/-- `enterRead()` of channel `c` (R144). -/
def State.enterRead (s : State) (c : Nat) : State :=
  let o := (s.chan c).op
  let s := (s.modPort o.port fun pt => { pt with dir := .rx }).modChan c
    fun ch => { ch with phase := .read, tRead := s.now, acc := [], lastRx := none }
  if o.mode = .n ∧ o.n = 0 then s.endExchange c (.ok []) else s

/-- The octets of a write in index order (R142), each with the instant its slot begins. DESIGN CHOICE (log 11), unsafe: the
equal slots are the model's, R142 gives the order and the whole duration only. -/
def writeSlots (start bt : Nat) (out : Bytes) : List (Nat × Byte) :=
  out.zipIdx.map fun e => (start + e.2 * bt, e.1)

/-- The part of the grant step after the checks and the draws (R141): WRITE, or READ at once. -/
def State.beginExchange (s : State) (c : Nat) : State :=
  let o := (s.chan c).op
  let l := (s.chan c).line
  if o.hasWrite then
    (s.modPort o.port fun pt => { pt with dir := .tx, sent := pt.sent ++ writeSlots s.now l.bt o.out }).modChan c
      fun ch => { ch with phase := .write, tEnd := s.now + Config.writeNs l.bt o.out.length, watch := decide (o.mode ≠ .w) }
  else
    (s.modChan c fun ch => { ch with watch := true }).enterRead c

/-- The grant step of port `p` for channel `c` with its two draws (R141), one atomic step. -/
def State.grantStep (s : State) (p c : Nat) (openOk applyOk : Bool) : State :=
  let l := lineSnapshot s.cfg (s.handle (s.chan c).op.h)
  let s := (s.modPort p fun pt => { pt with waiters := waitersRemove pt.waiters c, owner := some c }).modChan c
    fun ch => { ch with line := l }
  match lineError l with
  | some e => s.endExchange c (.error e)
  | none =>
    if openOk = false then s.endExchange c (.error .openFailed)
    else
      let s := s.modPort p fun pt => { pt with opened := true }
      if applyOk = false then s.endExchange c (.error .applyFailed)
      else (s.modPort p fun pt => { pt with applied := some l }).beginExchange c

/-- Whether the channel's mode has a quiet-interval end (R144): modes Q and N. -/
def Mode.hasQuiet : Mode → Bool
  | .q => true
  | .n => true
  | .w => false
  | .d => false
  | .l => false

/-- `LAST_RX + QUIET` where the quiet timer is armed (R144, R223). -/
def Chan.quietDeadline (ch : Chan) : Option Nat :=
  if ch.op.mode.hasQuiet = true ∧ ch.acc ≠ [] then ch.lastRx.map (· + ch.line.quiet) else none

/-- `T_READ + TIMEOUT` where there is a timeout (R144, R223). -/
def Chan.timeoutDeadline (ch : Chan) : Option Nat := ch.line.timeout.map (ch.tRead + ·)

/-- Condition (a) of R144. -/
def Chan.quietDue (ch : Chan) (now : Nat) : Bool := ch.quietDeadline.any (fun t => decide (t ≤ now))

/-- Condition (b) of R144, its comparison alone. -/
def Chan.timeoutDue (ch : Chan) (now : Nat) : Bool := ch.timeoutDeadline.any (fun t => decide (t ≤ now))

/-- Whether a deadline step of the channel is due (R142, R143, R144). -/
def Chan.due (ch : Chan) (now : Nat) : Bool :=
  match ch.phase with
  | .idle => false
  | .waitLock => false
  | .write => decide (now = ch.tEnd)
  | .settle => decide (now = ch.tEnd)
  | .read => ch.quietDue now || ch.timeoutDue now

/-- The pending deadlines of a channel (R134). -/
def Chan.deadlines (ch : Chan) : List Nat :=
  match ch.phase with
  | .idle => []
  | .waitLock => []
  | .write => [ch.tEnd]
  | .settle => [ch.tEnd]
  | .read => ch.quietDeadline.toList ++ ch.timeoutDeadline.toList

/-- The deadline step of WRITE (R142). -/
def State.writeDeadline (s : State) (c : Nat) (writeOk : Bool) : State :=
  if writeOk = false then s.endExchange c (.error .writeFailed)
  else if (s.chan c).op.mode = .w then
    s.modChan c fun ch => { ch with phase := .settle, tEnd := s.now + Config.settleNs ch.line.bt }
  else s.enterRead c

/-- The deadline step of READ (R144): the quiet end before the timeout (R138). -/
def State.readDeadline (s : State) (c : Nat) : State :=
  let ch := s.chan c
  if ch.quietDue s.now = true then
    if ch.op.mode = .q then s.endExchange c (.ok ch.acc) else s.endExchange c (.error .shortRead)
  else s.endExchange c (.error .readTimeout)

/-- The due deadline step of channel `c`. -/
def State.deadlineStep (s : State) (c : Nat) (writeOk : Bool) : State :=
  match (s.chan c).phase with
  | .idle => s
  | .waitLock => s
  | .write => s.writeDeadline c writeOk
  | .settle => s.endExchange c (.ok [])
  | .read => s.readDeadline c

/-- The end condition that the last appended octet meets (R139), with the output it gives. -/
def Chan.octetEnd (ch : Chan) : Option Bytes :=
  match ch.op.mode with
  | .w => none
  | .q => none
  | .n => if ch.acc.length = ch.op.n then some ch.acc else none
  | .d => if endsWith ch.acc ch.op.delim = true then some (dropTail ch.acc ch.op.delim.length) else none
  | .l => if endsWith ch.acc ch.op.eolSeq = true then some (dropTail ch.acc ch.op.eolSeq.length) else none

/-- An octet for a channel in READ with no deadline due (the third case of R139). -/
def State.takeOctet (s : State) (c : Nat) (b : Byte) : State :=
  if (s.chan c).acc.length = s.cfg.bufBytes then s.endExchange c (.error .rxOverflow)
  else
    let s := s.modChan c fun ch => { ch with acc := ch.acc ++ [b], lastRx := some s.now }
    match (s.chan c).octetEnd with
    | some out => s.endExchange c (.ok out)
    | none => s

/-- What becomes of an octet that arrives on port `p` (R138, R139). Where a deadline step of the owner is due, in WRITE,
SETTLE or READ, it fires first and the octet is still to be handled: the flag says so (log 17). -/
def State.rxStep (s : State) (p : Nat) (b : Byte) (writeOk : Bool) : State × Bool :=
  match (s.port p).owner with
  | none => (s, false)
  | some c =>
    if (s.chan c).due s.now = true then (s.deadlineStep c writeOk, true)
    else if (s.chan c).phase ≠ .read ∨ (s.chan c).watch = false then (s, false)
    else (s.takeOctet c b, false)

/-- A grant step of the port is due (R140). -/
def Port.grantDue (pt : Port) : Bool := pt.owner.isNone && !pt.waiters.isEmpty

/-- The clock may advance to `t` (R134): nothing is due now, and no pending deadline is passed over. -/
def State.mayAdvance (s : State) (t : Nat) : Bool :=
  decide (s.now < t)
    && s.chans.all (fun ch => !ch.due s.now)
    && s.ports.all (fun pt => !pt.grantDue)
    && s.chans.all (fun ch => ch.deadlines.all (fun d => decide (t ≤ d)))

end Sys2Proof.Machine
end

