-- ==== Sys2Proof/Machine/Agents.lean ====
section
/-! DEFINITION. The steps of the agents other than the issue of a command (10_state.md R20): the host's other accesses,
the grant, the deadlines, the octets, the clock and the reset input. -/

namespace Sys2Proof.Machine

open Host (Outcome)

/-- The reset input (70_reset_and_hazards.md R240, R241, R242): every register and every piece of internal state as
after reset; the parameters, the clock and the environment's coming steps stay (log 9, log 11). -/
def State.resetInput (s : State) : State :=
  { State.resetOf s.cfg with
    now := s.now
    free := s.free
    sched := s.sched
    ports := s.ports.map fun pt => { Port.reset with sent := pt.sent } }

/-- The grant step (R140, R141), where it is enabled. -/
def State.grant (s : State) (p c : Nat) (openOk applyOk : Bool) : Outcome State Fault Refusal :=
  if s.ports.length ≤ p then .fault .noSuchPort
  else if s.chans.length ≤ c then .fault .noSuchChannel
  else if (s.port p).owner.isSome = true ∨ c ∉ (s.port p).waiters then .refused .stepNotEnabled
  else .next (s.grantStep p c openOk applyOk)

/-- The deadline step (R142, R143, R144), where it is due. -/
def State.deadline (s : State) (c : Nat) (writeOk : Bool) : Outcome State Fault Refusal :=
  if s.chans.length ≤ c then .fault .noSuchChannel
  else if (s.chan c).due s.now = false then .refused .stepNotEnabled
  else .next (s.deadlineStep c writeOk)

/-- An octet on port `p` (R139). Where a deadline step of the owner fires first, the octet stays the next step (R138). -/
def State.rx (s : State) (p : Nat) (b : Byte) (writeOk : Bool) : Outcome State Fault Refusal :=
  if s.ports.length ≤ p then .fault .noSuchPort
  else
    match s.rxStep p b writeOk with
    | (t, true) => .next (t.setSched (.rx p b writeOk :: t.sched))
    | (t, false) => .next t

/-- The clock step (R134), where it is enabled. -/
def State.advance (s : State) (t : Nat) : Outcome State Fault Refusal :=
  if s.mayAdvance t = true then .next (s.setNow t) else .refused .stepNotEnabled

/-- One step of an agent, other than the issue of a command. -/
def State.agentStep (s : State) (e : Event) : Outcome State Fault Refusal :=
  match e with
  | .hostWrite addr width v => .next (s.hostWrite addr width v)
  | .hostRead addr width => .next (s.hostRead addr width)
  | .grant p c openOk applyOk => s.grant p c openOk applyOk
  | .deadline c writeOk => s.deadline c writeOk
  | .rx p b writeOk => s.rx p b writeOk
  | .advance t => s.advance t
  | .reset => .next s.resetInput

end Sys2Proof.Machine
end

