-- ==== Sys2Proof/Machine/Checksum.lean ====
section
/-! DEFINITION. The six checksum commands (41_checksum.md). -/

namespace Sys2Proof.Machine

open Host (Outcome)

/-- `SUM.ADD h` (R102). -/
def execSumAdd (h : Nat) (s : State) : Outcome State Fault Refusal :=
  .next (s.accepted h ⟨fitsSum, false, false⟩ fun o s => s.finish false (sumAdd o.sumEn o.tx))

/-- `SUM.CHK h` (R103): the verdict goes to RESULT, a failed check is no error. -/
def execSumChk (h : Nat) (s : State) : Outcome State Fault Refusal :=
  .next (s.accepted h ⟨fitsAny, false, false⟩ fun o s => s.finish (sumChk o.sumEn o.tx) [])

/-- `SUM.STRIP h` (R104). -/
def execSumStrip (h : Nat) (s : State) : Outcome State Fault Refusal :=
  .next (s.accepted h ⟨fitsAny, false, false⟩ fun o s => s.finishE (sumStrip o.sumEn o.tx))

/-- `CRC.ADD h` (R112). -/
def execCrcAdd (h : Nat) (s : State) : Outcome State Fault Refusal :=
  .next (s.accepted h ⟨fitsCrc, false, false⟩ fun o s => s.finish false (crcAdd o.crcEn o.tx))

/-- `CRC.CHK h` (R113): the verdict goes to RESULT, a failed check is no error. -/
def execCrcChk (h : Nat) (s : State) : Outcome State Fault Refusal :=
  .next (s.accepted h ⟨fitsAny, false, false⟩ fun o s => s.finish (crcChk o.crcEn o.tx) [])

/-- `CRC.STRIP h` (R114). -/
def execCrcStrip (h : Nat) (s : State) : Outcome State Fault Refusal :=
  .next (s.accepted h ⟨fitsAny, false, false⟩ fun o s => s.finishE (crcStrip o.crcEn o.tx))

end Sys2Proof.Machine
end

