-- ==== Sys2Proof/Machine/Framers.lean ====
section
/-! DEFINITION. The six framer commands (43_framers.md R183 to R185, R191 to R193). -/

namespace Sys2Proof.Machine

open Host (Outcome)

/-- The frame R183 builds from the operands. -/
def Operands.ascOut (o : Operands) : Bytes := ascFrame o.argByte o.addr o.addrEn o.sumEn o.eolSeq o.tx

/-- The frame R191 builds from the operands. -/
def Operands.rtuOut (o : Operands) : Bytes := rtuFrame o.addr o.argByte o.crcEn o.tx

/-- `ASC.BUILD h` (R183). -/
def execAscBuild (h : Nat) (s : State) : Outcome State Fault Refusal :=
  .next (s.accepted h ⟨fitsAsc, false, true⟩ fun o s =>
    (s.modChan s.sel (Chan.setRes 0#8)).finish false o.ascOut)

/-- `ASC.PARSE h` (R184). -/
def execAscParse (h : Nat) (s : State) : Outcome State Fault Refusal :=
  .next (s.accepted h ⟨fitsAny, false, false⟩ fun o s =>
    (s.modChan s.sel (Chan.setResult false)).endParse s.sel (ascParse o.addr o.addrEn o.sumEn o.tx))

/-- `ASC.REQ h` (R185): the frame of R183 goes out, mode L, and the reply is parsed in the exchange's end step. -/
def execAscReq (h : Nat) (s : State) : Outcome State Fault Refusal :=
  .next (s.startExchange h fitsAsc true 0x42#8 .l true .ascii Operands.ascOut)

/-- `RTU.BUILD h` (R191). -/
def execRtuBuild (h : Nat) (s : State) : Outcome State Fault Refusal :=
  .next (s.accepted h ⟨fitsRtu, false, false⟩ fun o s =>
    (s.modChan s.sel (Chan.setRes 0#8)).finish false o.rtuOut)

/-- `RTU.PARSE h` (R192). -/
def execRtuParse (h : Nat) (s : State) : Outcome State Fault Refusal :=
  .next (s.accepted h ⟨fitsAny, false, false⟩ fun o s =>
    (s.modChan s.sel (Chan.setResult false)).endParse s.sel (rtuParse o.addr o.crcEn o.tx))

/-- `RTU.REQ h` (R193): the frame of R191 goes out, mode Q, and the reply is parsed in the exchange's end step. -/
def execRtuReq (h : Nat) (s : State) : Outcome State Fault Refusal :=
  .next (s.startExchange h fitsRtu false 0x4A#8 .q true .binary Operands.rtuOut)

end Sys2Proof.Machine
end

