-- ==== Sys2Proof/Machine/Transceiver.lean ====
section
/-! DEFINITION. The acceptance of the nine transceiver commands (42_transceiver.md R135, R150 to R158). What follows the
acceptance is Exchange.lean. -/

namespace Sys2Proof.Machine

open Host (Outcome)

/-- `WR h` (R150): mode W. -/
def execWr (h : Nat) (s : State) : Outcome State Fault Refusal :=
  .next (s.startExchange h fitsAny false 0x20#8 .w true .plain fun o => o.tx)

/-- `XQ h` (R151): mode Q with a WRITE phase. -/
def execXq (h : Nat) (s : State) : Outcome State Fault Refusal :=
  .next (s.startExchange h fitsAny false 0x21#8 .q true .plain fun o => o.tx)

/-- `XN h` (R152): mode N with a WRITE phase. -/
def execXn (h : Nat) (s : State) : Outcome State Fault Refusal :=
  .next (s.startExchange h fitsExact false 0x22#8 .n true .plain fun o => o.tx)

/-- `XD h` (R153): mode D with a WRITE phase. -/
def execXd (h : Nat) (s : State) : Outcome State Fault Refusal :=
  .next (s.startExchange h fitsDelim false 0x23#8 .d true .plain fun o => o.tx)

/-- `XL h` (R154): mode L with a WRITE phase; the marker is not appended to what is sent. -/
def execXl (h : Nat) (s : State) : Outcome State Fault Refusal :=
  .next (s.startExchange h fitsAny true 0x24#8 .l true .plain fun o => o.tx)

/-- `RQ h` (R155): mode Q without a WRITE phase. -/
def execRq (h : Nat) (s : State) : Outcome State Fault Refusal :=
  .next (s.startExchange h fitsAny false 0x31#8 .q false .plain fun o => o.tx)

/-- `RN h` (R156): mode N without a WRITE phase. -/
def execRn (h : Nat) (s : State) : Outcome State Fault Refusal :=
  .next (s.startExchange h fitsExact false 0x32#8 .n false .plain fun o => o.tx)

/-- `RD h` (R157): mode D without a WRITE phase. -/
def execRd (h : Nat) (s : State) : Outcome State Fault Refusal :=
  .next (s.startExchange h fitsDelim false 0x33#8 .d false .plain fun o => o.tx)

/-- `RL h` (R158): mode L without a WRITE phase. -/
def execRl (h : Nat) (s : State) : Outcome State Fault Refusal :=
  .next (s.startExchange h fitsAny true 0x34#8 .l false .plain fun o => o.tx)

end Sys2Proof.Machine
end

