-- ==== Sys2Proof/Machine/Dispatch.lean ====
section
/-! DEFINITION. Every command's meaning: one arm per constructor of Instr. -/

namespace Sys2Proof.Machine

open Host (Outcome)

def exec (i : Instr) (s : State) : Host.Outcome State Fault Refusal :=
  match i with
  | .sumAdd h => Sys2Proof.Machine.execSumAdd h s
  | .sumChk h => Sys2Proof.Machine.execSumChk h s
  | .sumStrip h => Sys2Proof.Machine.execSumStrip h s
  | .crcAdd h => Sys2Proof.Machine.execCrcAdd h s
  | .crcChk h => Sys2Proof.Machine.execCrcChk h s
  | .crcStrip h => Sys2Proof.Machine.execCrcStrip h s
  | .wr h => Sys2Proof.Machine.execWr h s
  | .xq h => Sys2Proof.Machine.execXq h s
  | .xn h => Sys2Proof.Machine.execXn h s
  | .xd h => Sys2Proof.Machine.execXd h s
  | .xl h => Sys2Proof.Machine.execXl h s
  | .rq h => Sys2Proof.Machine.execRq h s
  | .rn h => Sys2Proof.Machine.execRn h s
  | .rd h => Sys2Proof.Machine.execRd h s
  | .rl h => Sys2Proof.Machine.execRl h s
  | .ascBuild h => Sys2Proof.Machine.execAscBuild h s
  | .ascParse h => Sys2Proof.Machine.execAscParse h s
  | .ascReq h => Sys2Proof.Machine.execAscReq h s
  | .rtuBuild h => Sys2Proof.Machine.execRtuBuild h s
  | .rtuParse h => Sys2Proof.Machine.execRtuParse h s
  | .rtuReq h => Sys2Proof.Machine.execRtuReq h s

end Sys2Proof.Machine
end

