-- ==== Sys2Proof/Machine/Issue.lean ====
section
/-! DEFINITION. A host write to a `CMD` register: the rejection, or the acceptance, the decode and the command
(60_exceptions.md R211; 30_encoding.md R82). -/

namespace Sys2Proof.Machine

open Host (Outcome)

/-- The error of a word that is no command (R82 steps 1 and 2). -/
def decodeError : DecodeError → CmdError
  | .unlistedOpcode => .opcUnlisted
  | .reservedBits => .reservedBits

/-- The acceptance step on channel `c`, which is not busy (R211). -/
def State.acceptStep (s : State) (c : Nat) (w : Word) : Outcome State Fault Refusal :=
  match decode w with
  | .error e => .next ((s.accept c w).raise c (decodeError e))
  | .ok i => exec i (s.accept c w)

/-- A host write of `w` to `CMD` of channel `c` (R22, R211). The bus takes the write in both cases. -/
def State.issue (s : State) (c : Nat) (w : Word) : Outcome State Fault Refusal :=
  if (s.chan c).busy = true then .next ((s.modChan c Chan.reject).setResp .ack)
  else (s.setResp .ack).acceptStep c w

/-- A step the schedule names: a host write that issues a command, or a step of another kind. -/
def State.run (s : State) (e : Event) : Outcome State Fault Refusal :=
  match issued? s.cfg e with
  | some (c, w) => s.issue c w
  | none => s.agentStep e

/-- The first channel that is not busy, channel 0 where all are. -/
def State.freeChan (s : State) : Nat :=
  let k := s.chans.findIdx (fun ch => !ch.busy)
  if k < s.chans.length then k else 0

end Sys2Proof.Machine
end

