-- ==== Sys2Proof/Machine/Step.lean ====
section
/-! DEFINITION. One step of the machine: the schedule's next step. -/

namespace Sys2Proof.Machine

/-- One step: the agent the schedule names steps. With an empty schedule no agent steps and the block stays as it is.
DESIGN CHOICE (log 2), safe: every interleaving of R20 and R71 is a schedule. -/
def step (s : State) : Host.Outcome State Fault Refusal :=
  match s.sched with
  | [] => .next s
  | e :: rest => (s.setSched rest).run e

/-- `s` with a host write of the instruction word to `CMD` of a channel that is not busy as the next step (log 2). A
block whose channels are all busy has channel 0's BUSY taken back, so that the write is accepted. -/
def State.withFetchWord (s : State) (nbits w : Nat) : State :=
  (s.modChan s.freeChan fun ch => { ch with busy := false }).setSched
    (.hostWrite (cmdAddr s.freeChan) 4 (BitVec.ofNat 32 (w % 2 ^ nbits)) :: s.sched)

end Sys2Proof.Machine
end

