-- ==== Sys2Proof/Safety.lean ====
section
/-! DEFINITION. What counts as a good state of the block and as a good end of a command, in the terms the statements
use. Written from the rules, not from the meanings. -/

namespace Sys2Proof.Safety

open Sys2Proof.Machine

/-- Everything a command on channel `c` may not touch: the parameters, the handle slots, the clock, the schedule, the
bus response and every other channel (20_memory.md R61; 60_exceptions.md R216, R218). -/
def OthersSame (s t : State) (c : Nat) : Prop :=
  t.cfg = s.cfg ∧ t.handles = s.handles ∧ t.now = s.now ∧ t.sched = s.sched ∧ t.resp = s.resp ∧ t.sel = s.sel
    ∧ t.chans.length = s.chans.length ∧ ∀ c', c' ≠ c → t.chan c' = s.chan c'

/-- Every byte of the buffer windows reads as before. -/
def MemSame (s t : State) : Prop := ∀ a, t.byte? a = s.byte? a

/-- Every byte outside the `n` bytes from `lo` on reads as before. -/
def MemSameOutside (s t : State) (lo n : Nat) : Prop := ∀ a, ¬(lo ≤ a ∧ a < lo + n) → t.byte? a = s.byte? a

/-- A success end of channel `c` with output `out` (60_exceptions.md R214); `ch` is the channel as the command left it
just before. `RXBUF[0..len(out))` holds the output and no other byte changed. -/
def EndsOk (s t : State) (c : Nat) (ch : Chan) (out : Bytes) : Prop :=
  OthersSame s t c
    ∧ t.chan c = { ch with rxlen := BitVec.ofNat 16 out.length, err := 0#4, sub := 0#8, phase := .idle, busy := false,
                           done := true }
    ∧ (∀ k b, out[k]? = some b → t.byte? (rxAddr c k) = some b)
    ∧ MemSameOutside s t (rxAddr c 0) out.length

/-- An error end of channel `c` with the codes `err` and `sub` (60_exceptions.md R213). No byte changed. -/
def EndsErr (s t : State) (c : Nat) (ch : Chan) (err : BitVec 4) (sub : BitVec 8) : Prop :=
  OthersSame s t c
    ∧ t.chan c = { ch with err := err, sub := sub, result := false, rxlen := 0#16, res := 0#8, phase := .idle,
                           busy := false, done := true }
    ∧ MemSame s t

/-- No port changed. -/
def PortsSame (s t : State) : Prop := t.ports = s.ports

/-- Port `p` became `pt` and no other port changed. -/
def PortBecomes (s t : State) (p : Nat) (pt : Port) : Prop :=
  t.ports.length = s.ports.length ∧ t.port p = pt ∧ ∀ p', p' ≠ p → t.port p' = s.port p'

/-- Port `p` is closed, released and turned to IDLE, and no other port changed (42_transceiver.md R145). -/
def PortReleased (s t : State) (p : Nat) : Prop :=
  PortBecomes s t p { s.port p with opened := false, owner := none, dir := .idle }

/-- The selected channel exists, the handle slot exists, and the operand length fits the buffer: what every command
needs (30_encoding.md R82 step 3, R83 first line). -/
def Ready (s : State) (h : Nat) : Prop :=
  s.sel < s.chans.length ∧ h < s.cfg.nhandle ∧ (s.chan s.sel).txlen.toNat ≤ s.cfg.bufBytes

/-- The operand bytes `TX(c)` of the selected channel (10_state.md R31). -/
def operand (s : State) : Bytes := s.txBytes s.sel (s.chan s.sel).txlen.toNat

/-- The end-of-line marker of a handle slot (10_state.md R39). -/
def marker (s : State) (h : Nat) : Bytes := (s.handle h).eol.bytes.take (s.handle h).eolLen.toNat

/-- The delimiter of the selected channel (10_state.md R29). -/
def delimiter (s : State) : Bytes := (s.chan s.sel).delim.bytes.take (s.chan s.sel).dlen.toNat

/-- The marker's length is legal (30_encoding.md R82 step 6). -/
def MarkerOk (s : State) (h : Nat) : Prop :=
  1 ≤ (s.handle h).eolLen.toNat ∧ (s.handle h).eolLen.toNat ≤ 16

/-- The handle's port exists (30_encoding.md R82 step 5). -/
def PortOk (s : State) (h : Nat) : Prop := (s.handle h).port.toNat < s.cfg.nport

/-- 2 where a bit is set, 0 where it is not: the two bytes a policy or the address adds (30_encoding.md R83). -/
def two (b : Bool) : Nat := if b then 2 else 0

/-- The range checks of 30_encoding.md R83, row by row, beside the one of every command. -/
def RangeOk (s : State) : Instr → Prop
  | .sumAdd h => (s.chan s.sel).txlen.toNat + two (s.handle h).sumEn ≤ s.cfg.bufBytes
  | .crcAdd h => (s.chan s.sel).txlen.toNat + two (s.handle h).crcEn ≤ s.cfg.bufBytes
  | .xn _ | .rn _ => (s.chan s.sel).arg0.toNat ≤ s.cfg.bufBytes
  | .xd _ | .rd _ => 1 ≤ (s.chan s.sel).dlen.toNat ∧ (s.chan s.sel).dlen.toNat ≤ 16
  | .ascBuild h | .ascReq h =>
    1 + two (s.handle h).addrEn + (s.chan s.sel).txlen.toNat + two (s.handle h).sumEn + (s.handle h).eolLen.toNat
      ≤ s.cfg.bufBytes
  | .rtuBuild h | .rtuReq h => 2 + (s.chan s.sel).txlen.toNat + two (s.handle h).crcEn ≤ s.cfg.bufBytes
  | _ => True

/-- The transceiver and request commands, which need the handle's port (30_encoding.md R82 step 5). -/
def usesPort : Instr → Bool
  | .wr _ | .xq _ | .xn _ | .xd _ | .xl _ | .rq _ | .rn _ | .rd _ | .rl _ | .ascReq _ | .rtuReq _ => true
  | _ => false

/-- The commands that need the end-of-line marker (30_encoding.md R82 step 6). -/
def usesMarker : Instr → Bool
  | .xl _ | .rl _ | .ascBuild _ | .ascReq _ => true
  | _ => false

/-- The sizes of the state are the instance's (10_state.md R21, R33, R45). -/
def Shape (s : State) : Prop :=
  s.chans.length = s.cfg.nchan ∧ s.handles.length = s.cfg.nhandle ∧ s.ports.length = s.cfg.nport

/-- The `(ERR, SUB)` pairs a channel can record: none, and the rows of 60_exceptions.md R210. -/
def errPairs : List (BitVec 4 × BitVec 8) :=
  [ (0#4, 0#8)
  , (1#4, 1#8), (1#4, 2#8), (1#4, 3#8), (1#4, 4#8), (1#4, 5#8), (1#4, 6#8)
  , (2#4, 1#8), (2#4, 2#8), (2#4, 3#8), (2#4, 4#8)
  , (3#4, 1#8), (3#4, 2#8), (3#4, 3#8)
  , (4#4, 1#8), (4#4, 2#8), (4#4, 3#8), (4#4, 4#8), (4#4, 5#8)
  , (5#4, 1#8), (5#4, 2#8), (5#4, 3#8), (5#4, 4#8) ]

/-- Every channel's error record is one of R210, and a recorded error left no output (60_exceptions.md R218). -/
def ErrorsOk (s : State) : Prop :=
  ∀ ch ∈ s.chans, (ch.err, ch.sub) ∈ errPairs
    ∧ (ch.err ≠ 0#4 → ch.rxlen = 0#16 ∧ ch.res = 0#8 ∧ ch.result = false)

/-- `BUSY = 1` exactly while the phase is not IDLE, as the host sees a channel between two steps (10_state.md R23). -/
def BusyOk (s : State) : Prop := ∀ ch ∈ s.chans, (ch.busy = true ↔ ch.phase ≠ .idle)

/-- The reserved bits of FRAME and PROTO read 0 (10_state.md R36, R40). -/
def ReservedZero (s : State) : Prop :=
  ∀ hd ∈ s.handles, hd.frame &&& ~~~0x0000F37F#32 = 0#32 ∧ hd.proto &&& ~~~0x000007FF#32 = 0#32

/-- The phases in which a channel holds its port. -/
def holding : Phase → Bool
  | .write | .settle | .read => true
  | .idle | .waitLock => false

/-- What the port of an owner shows: open, TX in WRITE and SETTLE, RX in READ; the watcher is registered in READ and,
but for a write-only exchange, before it (10_state.md R45; 42_transceiver.md R141, R147). -/
def OwnedOk (pt : Port) (ch : Chan) : Prop :=
  pt.opened = true ∧
    ((ch.phase = .write ∨ ch.phase = .settle) ∧ pt.dir = .tx ∧ (ch.op.mode ≠ .w → ch.watch = true)
      ∨ ch.phase = .read ∧ pt.dir = .rx ∧ ch.watch = true)

/-- The exclusive section of every port (10_state.md R45; 42_transceiver.md R162, R147): a free port is closed and IDLE,
an owned one belongs to a channel that is in WRITE, SETTLE or READ on it; every channel in one of these phases owns
its port; the waiters of a port are exactly the channels in WAIT_LOCK for it. -/
def Serialised (s : State) : Prop :=
  (∀ p, p < s.ports.length →
    ((s.port p).owner = none → (s.port p).opened = false ∧ (s.port p).dir = .idle)
      ∧ (∀ c, (s.port p).owner = some c →
          c < s.chans.length ∧ (s.chan c).op.port = p ∧ OwnedOk (s.port p) (s.chan c))
      ∧ (s.port p).waiters.Pairwise (· < ·)
      ∧ ∀ c, c ∈ (s.port p).waiters → c < s.chans.length ∧ (s.chan c).phase = .waitLock ∧ (s.chan c).op.port = p)
    ∧ ∀ c, c < s.chans.length →
        (holding (s.chan c).phase = true →
          (s.chan c).op.port < s.ports.length ∧ (s.port (s.chan c).op.port).owner = some c)
        ∧ ((s.chan c).phase = .waitLock →
          (s.chan c).op.port < s.ports.length ∧ c ∈ (s.port (s.chan c).op.port).waiters)

/-- No deadline was passed over: every pending deadline of every channel is now or later (42_transceiver.md R134). -/
def DeadlinesAhead (s : State) : Prop := ∀ ch ∈ s.chans, ∀ d ∈ ch.deadlines, s.now ≤ d

/-- What is sent, received and kept of an exchange fits a buffer (60_exceptions.md R214; 30_encoding.md R83;
42_transceiver.md R139): the outgoing bytes, the accumulated octets, and the output length. -/
def FitsBuffers (s : State) : Prop :=
  ∀ ch ∈ s.chans, ch.rxlen.toNat ≤ s.cfg.bufBytes ∧ ch.op.out.length ≤ s.cfg.bufBytes ∧ ch.acc.length ≤ s.cfg.bufBytes

/-- The state in which the command of a `CMD` write runs (60_exceptions.md R211): the write of `w` to channel `c` is off
the schedule and taken by the bus, and the channel's registers are as the acceptance leaves them. -/
def issuedState (s : State) (rest : List Event) (c : Nat) (w : Word) : State :=
  { s with
    sched := rest
    resp := .ack
    sel := c
    chans := s.chans.modify c fun ch =>
      { ch with cmd := w, busy := true, done := false, result := false, rej := false, err := 0#4, sub := 0#8,
                rxlen := 0#16, res := 0#8 } }

/-- The address of `CMD` of channel `c` (20_memory.md R62). -/
def cmdAddress (c : Nat) : BitVec 16 := BitVec.ofNat 16 (0x8000 + 0x1000 * c)

/-- The next step of the schedule is a host write of `w` to `CMD` of a present channel (10_state.md R22). -/
def CmdWriteNext (s : State) (rest : List Event) (c : Nat) (w : Word) : Prop :=
  s.sched = .hostWrite (cmdAddress c) 4 w :: rest ∧ c < s.cfg.nchan ∧ s.cfg.nchan ≤ 8 ∧ c < s.chans.length

/-- The opcodes of 30_encoding.md R84. -/
def opcodes : List (BitVec 8) :=
  [ 0x10#8, 0x11#8, 0x12#8, 0x18#8, 0x19#8, 0x1A#8, 0x20#8, 0x21#8, 0x22#8, 0x23#8, 0x24#8
  , 0x31#8, 0x32#8, 0x33#8, 0x34#8, 0x40#8, 0x41#8, 0x42#8, 0x48#8, 0x49#8, 0x4A#8 ]

/-- The reply separators of 43_framers.md R182. -/
def separators : List Byte := [0x21#8, 0x3F#8, 0x3E#8, 0x7E#8]

/-- The operand is a body with its additive checksum (41_checksum.md R103). -/
def SumMatches (s : Bytes) : Prop := ∃ body, s = body ++ hex2 (sum8 body)

/-- The operand is a body with its CRC (41_checksum.md R113). -/
def CrcMatches (s : Bytes) : Prop := ∃ body, s = body ++ crcBytes (crc16 body)

/-- The snapshot OP at acceptance (42_transceiver.md R135; 10_state.md R46). -/
def snapshot (s : State) (h : Nat) (opc : BitVec 8) (mode : Mode) (hasWrite : Bool) (reply : Reply) (out : Bytes) : Op where
  opc := opc
  h := h
  port := (s.handle h).port.toNat
  mode := mode
  hasWrite := hasWrite
  reply := reply
  out := out
  n := (s.chan s.sel).arg0.toNat
  delim := delimiter s
  eolSeq := marker s h
  addr := (s.handle h).addr
  addrEn := (s.handle h).addrEn
  sumEn := (s.handle h).sumEn
  crcEn := (s.handle h).crcEn

/-- Channel `c` entered WAIT_LOCK with the snapshot `o` and is among the waiters of its port; nothing else changed
(42_transceiver.md R135). -/
def EntersWaitLock (s t : State) (c : Nat) (o : Op) : Prop :=
  OthersSame s t c ∧ t.chan c = { s.chan c with op := o, phase := .waitLock }
    ∧ (∃ ws, (∀ x, x ∈ ws ↔ x = c ∨ x ∈ (s.port o.port).waiters)
        ∧ PortBecomes s t o.port { s.port o.port with waiters := ws })
    ∧ MemSame s t

/-- The nine transceiver commands with the opcode, mode and write phase of each (30_encoding.md R84, R85). -/
def transceivers (h : Nat) : List (Instr × BitVec 8 × Mode × Bool) :=
  [ (.wr h, 0x20#8, .w, true), (.xq h, 0x21#8, .q, true), (.xn h, 0x22#8, .n, true), (.xd h, 0x23#8, .d, true)
  , (.xl h, 0x24#8, .l, true), (.rq h, 0x31#8, .q, false), (.rn h, 0x32#8, .n, false), (.rd h, 0x33#8, .d, false)
  , (.rl h, 0x34#8, .l, false) ]

/-- The frame of 43_framers.md R183. -/
def asciiFrame (s : State) (h : Nat) : Bytes :=
  let f := [(s.chan s.sel).arg0.extractLsb' 0 8]
    ++ (if (s.handle h).addrEn then hex2 (s.handle h).addr else []) ++ operand s
  (if (s.handle h).sumEn then f ++ hex2 (sum8 f) else f) ++ marker s h

/-- The frame of 43_framers.md R191. -/
def binaryFrame (s : State) (h : Nat) : Bytes :=
  let f := [(s.handle h).addr, (s.chan s.sel).arg0.extractLsb' 0 8] ++ operand s
  if (s.handle h).crcEn then f ++ crcBytes (crc16 f) else f

/-- The line snapshot of the grant (42_transceiver.md R141; 00_scope.md R7, R8). -/
def grantLine (s : State) (c : Nat) : Line :=
  let hd := s.handle (s.chan c).op.h
  let bt := (s.cfg.baudTable.lookup hd.baud.toNat).getD s.cfg.defaultByteNs
  { bt := bt
    quiet := max 1 (s.cfg.quietNum * bt / s.cfg.quietDen)
    timeout := if hd.timeoutMs = 0#32 then none else some (hd.timeoutMs.toNat * 1000000)
    baud := hd.baud
    data := hd.frame.extractLsb' 0 4
    parity := hd.frame.extractLsb' 4 3
    stop := hd.frame.extractLsb' 8 2
    flow := hd.frame.extractLsb' 12 4 }

/-- The grant of port `p` for the waiting channel `c`, with its two draws, is the next step, and it is due
(42_transceiver.md R140). -/
def GrantNext (s : State) (rest : List Event) (p c : Nat) (openOk applyOk : Bool) : Prop :=
  s.sched = .grant p c openOk applyOk :: rest ∧ p < s.ports.length ∧ c < s.chans.length ∧ (s.port p).owner = none
    ∧ c ∈ (s.port p).waiters ∧ (s.chan c).op.port = p

/-- A line configuration that passes the checks of the grant (42_transceiver.md R141). -/
def LineOk (l : Line) : Prop := l.baud ≠ 0#32 ∧ (l.data = 7#4 ∨ l.data = 8#4) ∧ l.parity.toNat ≤ 4

/-- The deadline step of channel `c` is the next step. -/
def DeadlineNext (s : State) (rest : List Event) (c : Nat) (writeOk : Bool) : Prop :=
  s.sched = .deadline c writeOk :: rest ∧ c < s.chans.length ∧ (s.chan c).op.port < s.ports.length

/-- The quiet interval has elapsed: condition (a) of 42_transceiver.md R144. -/
def QuietElapsed (s : State) (ch : Chan) : Prop :=
  (ch.op.mode = .q ∨ ch.op.mode = .n) ∧ ch.acc ≠ [] ∧ ∃ l, ch.lastRx = some l ∧ l + ch.line.quiet ≤ s.now

/-- The timeout has elapsed: condition (b) of 42_transceiver.md R144. -/
def TimeoutElapsed (s : State) (ch : Chan) : Prop := ∃ d, ch.line.timeout = some d ∧ ch.tRead + d ≤ s.now

/-- A deadline step of the channel is due (42_transceiver.md R142, R143, R144). -/
def DeadlineDue (s : State) (ch : Chan) : Prop :=
  (ch.phase = .write ∨ ch.phase = .settle) ∧ s.now = ch.tEnd
    ∨ ch.phase = .read ∧ (QuietElapsed s ch ∨ TimeoutElapsed s ch)

/-- A channel as `enterRead()` leaves it (42_transceiver.md R144). -/
def readEntered (s : State) (ch : Chan) : Chan :=
  { ch with phase := .read, tRead := s.now, acc := [], lastRx := none }

/-- An octet for port `p`, whose owner `c` is in READ, is the next step, and no deadline is due
(42_transceiver.md R139, third case). -/
def OctetNext (s : State) (rest : List Event) (p c : Nat) (b : Byte) : Prop :=
  (∃ writeOk, s.sched = .rx p b writeOk :: rest) ∧ p < s.ports.length ∧ c < s.chans.length ∧ (s.port p).owner = some c
    ∧ (s.chan c).op.port = p ∧ (s.chan c).phase = .read ∧ (s.chan c).watch = true
    ∧ ¬QuietElapsed s (s.chan c) ∧ ¬TimeoutElapsed s (s.chan c)

/-- The channel with the octet appended (42_transceiver.md R139). -/
def octetTaken (s : State) (ch : Chan) (b : Byte) : Chan := { ch with acc := ch.acc ++ [b], lastRx := some s.now }

/-- The appended octet ends the frame (42_transceiver.md R139): the exact length is reached, or the tail is the
delimiter or the marker. -/
def FrameEnds (ch : Chan) (acc : Bytes) : Prop :=
  (ch.op.mode = .n ∧ acc.length = ch.op.n) ∨ (ch.op.mode = .d ∧ ch.op.delim <:+ acc)
    ∨ (ch.op.mode = .l ∧ ch.op.eolSeq <:+ acc)

/-- The address is one the map reserves (20_memory.md R62, R66). -/
def ReservedAddress (p : Config.Params) (a : Nat) : Prop :=
  a % 4 = 0 ∧
    ((0x8 ≤ a ∧ a < 0x100) ∨ (0x200 ≤ a ∧ a < 0x1000)
      ∨ (0x1000 ≤ a ∧ a < 0x8000 ∧ (p.nhandle ≤ (a - 0x1000) / 0x40 ∨ 0x2C ≤ (a - 0x1000) % 0x40))
      ∨ (0x8000 ≤ a ∧
          (p.nchan ≤ (a - 0x8000) / 0x1000
            ∨ (0x2C ≤ (a - 0x8000) % 0x1000 ∧ (a - 0x8000) % 0x1000 < 0x400)
            ∨ (0x400 + p.bufBytes ≤ (a - 0x8000) % 0x1000 ∧ (a - 0x8000) % 0x1000 < 0x800)
            ∨ (0x800 + p.bufBytes ≤ (a - 0x8000) % 0x1000 ∧ (a - 0x8000) % 0x1000 < 0xC00)
            ∨ 0xC00 ≤ (a - 0x8000) % 0x1000)))

/-- The address is a read-only register's (20_memory.md R62): ID, PARAMS, PORT_STATUS, and STATUS, RXLEN, RES and RXBUF of a
present channel. -/
def ReadOnlyAddress (p : Config.Params) (a : Nat) : Prop :=
  a % 4 = 0 ∧
    (a = 0x0 ∨ a = 0x4 ∨ (0x100 ≤ a ∧ a < 0x200)
      ∨ (0x8000 ≤ a ∧ (a - 0x8000) / 0x1000 < p.nchan
        ∧ ((a - 0x8000) % 0x1000 = 0x4 ∨ (a - 0x8000) % 0x1000 = 0xC ∨ (a - 0x8000) % 0x1000 = 0x28
          ∨ (0x800 ≤ (a - 0x8000) % 0x1000 ∧ (a - 0x8000) % 0x1000 < 0x800 + p.bufBytes
            ∧ (a - 0x8000) % 0x1000 < 0xC00))))

/-- The registers of a handle slot: offset, register and the bits it stores (10_state.md R34 to R41; 20_memory.md R62). -/
def handleMap : List (Nat × HandleReg × Word) :=
  [ (0x00, .port, 0x3F#32), (0x04, .baud, 0xFFFFFFFF#32), (0x08, .frame, 0xF37F#32), (0x0C, .timeoutMs, 0xFFFFFFFF#32)
  , (0x10, .eolLen, 0x1F#32), (0x14, .eol 0, 0xFFFFFFFF#32), (0x18, .eol 1, 0xFFFFFFFF#32)
  , (0x1C, .eol 2, 0xFFFFFFFF#32), (0x20, .eol 3, 0xFFFFFFFF#32), (0x24, .proto, 0x7FF#32)
  , (0x28, .charset, 0xFFFFFFFF#32) ]

/-- The operand registers of a channel: offset, register and the bits it stores (10_state.md R24, R26, R28, R29). -/
def operandMap : List (Nat × ChanReg × Word) :=
  [ (0x08, .txlen, 0xFFFF#32), (0x10, .arg0, 0xFFFF#32), (0x14, .dlen, 0x1F#32), (0x18, .delim 0, 0xFFFFFFFF#32)
  , (0x1C, .delim 1, 0xFFFFFFFF#32), (0x20, .delim 2, 0xFFFFFFFF#32), (0x24, .delim 3, 0xFFFFFFFF#32) ]

/-- The address of offset `off` of the window of channel `c` (20_memory.md R62). -/
def chanAddress (c off : Nat) : BitVec 16 := BitVec.ofNat 16 (0x8000 + 0x1000 * c + off)

/-- The address of offset `off` of the window of handle slot `h` (20_memory.md R62). -/
def handleAddress (h off : Nat) : BitVec 16 := BitVec.ofNat 16 (0x1000 + 0x40 * h + off)

/-- The memory is in its canonical form and lists only bytes of the buffer windows (20_memory.md R60 (b), R62). -/
def Canonical (s : State) : Prop :=
  s.mem.wf ∧ ∀ e ∈ s.mem, ∃ c k, c < s.cfg.nchan ∧ k < s.cfg.bufBytes ∧ (e.1 = txAddr c k ∨ e.1 = rxAddr c k)

/-- Bit `i` of a byte sequence inverted, bit 0 the least significant of byte 0. -/
def flipBit (s : Bytes) (i : Nat) : Bytes := s.modify (i / 8) fun b => b ^^^ (1#8 <<< (i % 8))

/-- The phase transitions of 42_transceiver.md R146. -/
def transitions : List (Phase × Phase) :=
  [ (.idle, .waitLock), (.waitLock, .write), (.waitLock, .read), (.waitLock, .idle), (.write, .settle), (.write, .read)
  , (.write, .idle), (.settle, .idle), (.read, .idle) ]

/-- A channel after reset, register by register (10_state.md R48). -/
def ChanAtReset (ch : Chan) : Prop :=
  ch.cmd = 0#32 ∧ ch.busy = false ∧ ch.done = false ∧ ch.result = false ∧ ch.rej = false ∧ ch.err = 0#4 ∧ ch.sub = 0#8
    ∧ ch.phase = .idle ∧ ch.txlen = 0#16 ∧ ch.rxlen = 0#16 ∧ ch.arg0 = 0#16 ∧ ch.dlen = 0#5
    ∧ ch.delim = ⟨0#32, 0#32, 0#32, 0#32⟩ ∧ ch.res = 0#8 ∧ ch.watch = false ∧ ch.acc = [] ∧ ch.lastRx = none

/-- A handle slot after reset, register by register (10_state.md R48). -/
def HandleAtReset (hd : Handle) : Prop :=
  hd.port = 0#6 ∧ hd.baud = 0#32 ∧ hd.frame = 0#32 ∧ hd.timeoutMs = 0#32 ∧ hd.eolLen = 0#5
    ∧ hd.eol = ⟨0#32, 0#32, 0#32, 0#32⟩ ∧ hd.proto = 0x600#32 ∧ hd.charset = 0#32

/-- A port after reset (10_state.md R45). -/
def PortAtReset (pt : Port) : Prop :=
  pt.opened = false ∧ pt.owner = none ∧ pt.waiters = [] ∧ pt.dir = .idle ∧ pt.applied = none

/-- Every channel, handle slot and port of the instance is as after reset, and no buffer byte is known
(10_state.md R48). -/
def AtReset (s : State) : Prop :=
  Shape s ∧ (∀ ch ∈ s.chans, ChanAtReset ch) ∧ (∀ hd ∈ s.handles, HandleAtReset hd)
    ∧ (∀ pt ∈ s.ports, PortAtReset pt) ∧ ∀ a, s.byte? a = none

end Sys2Proof.Safety
end

