-- ==== Sys2Proof/Certificates/Slice0/Obligations.lean ====
section
/-! DEFINITION. The statements about the block. The rules are those of spec/; the predicates are those of Safety.lean. -/

open Sys2Proof
open Sys2Proof.Machine
open Sys2Proof.Safety

/-! ## Encoding -/

/-- 30_encoding.md R80, R84, R87: every command's word decodes to the command, with every handle index the field holds. -/
def Obligations.DecodeEncodeRoundTrip : Prop := ∀ i : Instr, i.wf = true → decode (encode i) = .ok i

/-- 30_encoding.md R81, R86: a word has one meaning: what a legal word decodes to encodes to that word. -/
def Obligations.DecodedWordEncodesBack : Prop :=
  ∀ (w : Word) (i : Instr), decode w = .ok i → encode i = w ∧ i.wf = true

/-- 30_encoding.md R86: an unlisted opcode, and a listed one with nonzero bits 31:16, are no command; the opcode is
checked first. -/
def Obligations.DecodeRefusesIllegalWords : Prop :=
  ∀ w : Word,
    (decode w = .error .unlistedOpcode ↔ w.extractLsb' 0 8 ∉ opcodes)
      ∧ (decode w = .error .reservedBits ↔ w.extractLsb' 0 8 ∈ opcodes ∧ w.extractLsb' 16 16 ≠ 0#16)

/-- 30_encoding.md R84, R88, 95_test_vectors.md section 4: words of every family. -/
def Obligations.DecodeKnownWords : Prop :=
  decode 0x00000010#32 = .ok (.sumAdd 0) ∧ decode 0x00000218#32 = .ok (.crcAdd 2)
    ∧ decode 0x00000742#32 = .ok (.ascReq 7) ∧ decode 0x0000024A#32 = .ok (.rtuReq 2)
    ∧ decode 0x00000322#32 = .ok (.xn 3) ∧ decode 0x00000034#32 = .ok (.rl 0)
    ∧ decode 0x00010010#32 = .error .reservedBits ∧ decode 0x00010013#32 = .error .unlistedOpcode

/-! ## The issue of a command -/

/-- 60_exceptions.md R211: a write to CMD of a channel that is not busy runs the decoded command in the state the
acceptance leaves. -/
def Obligations.StepRunsDecodedCommand : Prop :=
  ∀ (s : State) (rest : List Event) (c : Nat) (w : Word) (i : Instr),
    CmdWriteNext s rest c w → (s.chan c).busy = false → decode w = .ok i → step s = exec i (issuedState s rest c w)

/-- 10_state.md R22, 60_exceptions.md R219: a write to CMD of a busy channel sets REJ and changes nothing else. -/
def Obligations.BusyChannelRejectsCommand : Prop :=
  ∀ (s : State) (rest : List Event) (c : Nat) (w : Word),
    CmdWriteNext s rest c w → (s.chan c).busy = true →
      step s = .next { s with sched := rest, resp := .ack, chans := s.chans.modify c fun ch => { ch with rej := true } }

/-- 30_encoding.md R82, R83, 60_exceptions.md R216: the acceptance reports the first check that fails, and only that
one; where all hold, the command starts. -/
def Obligations.AcceptanceReportsFirstFailingCheck : Prop :=
  ∀ (s : State) (rest : List Event) (c : Nat) (w : Word), CmdWriteNext s rest c w → (s.chan c).busy = false →
    let u := issuedState s rest c w
    ∃ t, step s = .next t ∧
      (w.extractLsb' 0 8 ∉ opcodes → EndsErr u t c (u.chan c) 5#4 1#8 ∧ PortsSame u t)
      ∧ (w.extractLsb' 0 8 ∈ opcodes → w.extractLsb' 16 16 ≠ 0#16 →
          EndsErr u t c (u.chan c) 5#4 2#8 ∧ PortsSame u t)
      ∧ ∀ i, decode w = .ok i →
        (u.cfg.nhandle ≤ i.handle → EndsErr u t c (u.chan c) 5#4 3#8 ∧ PortsSame u t)
        ∧ (i.handle < u.cfg.nhandle → ¬((u.chan c).txlen.toNat ≤ u.cfg.bufBytes ∧ RangeOk u i) →
            EndsErr u t c (u.chan c) 5#4 4#8 ∧ PortsSame u t)
        ∧ (i.handle < u.cfg.nhandle → (u.chan c).txlen.toNat ≤ u.cfg.bufBytes → RangeOk u i →
            (usesPort i = true → ¬PortOk u i.handle → EndsErr u t c (u.chan c) 4#4 1#8 ∧ PortsSame u t)
            ∧ ((usesPort i = true → PortOk u i.handle) →
                (usesMarker i = true → ¬MarkerOk u i.handle → EndsErr u t c (u.chan c) 4#4 4#8 ∧ PortsSame u t)
                ∧ ((usesMarker i = true → MarkerOk u i.handle) →
                    if usesPort i then (t.chan c).phase = .waitLock ∧ (t.chan c).busy = true
                    else (t.chan c).phase = .idle ∧ (t.chan c).done = true ∧ (t.chan c).err ≠ 5#4
                      ∧ (t.chan c).err ≠ 4#4)))

/-! ## The checksum commands -/

/-- 41_checksum.md R102. -/
def Obligations.SumAddAppendsChecksum : Prop :=
  ∀ (s : State) (h : Nat), Ready s h →
    ∃ t, exec (.sumAdd h) s = .next t ∧ PortsSame s t
      ∧ (RangeOk s (.sumAdd h) →
          EndsOk s t s.sel { s.chan s.sel with result := false }
            (if (s.handle h).sumEn then operand s ++ hex2 (sum8 (operand s)) else operand s))
      ∧ (¬RangeOk s (.sumAdd h) → EndsErr s t s.sel (s.chan s.sel) 5#4 4#8)

/-- 41_checksum.md R103. -/
def Obligations.SumChkReportsVerdict : Prop :=
  ∀ (s : State) (h : Nat), Ready s h →
    ∃ t ok, exec (.sumChk h) s = .next t ∧ PortsSame s t
      ∧ (ok = true ↔ (s.handle h).sumEn = false ∨ SumMatches (operand s))
      ∧ EndsOk s t s.sel { s.chan s.sel with result := ok } []

/-- 41_checksum.md R104. -/
def Obligations.SumStripRemovesChecksum : Prop :=
  ∀ (s : State) (h : Nat), Ready s h →
    ∃ t, exec (.sumStrip h) s = .next t ∧ PortsSame s t
      ∧ ((s.handle h).sumEn = false → EndsOk s t s.sel { s.chan s.sel with result := false } (operand s))
      ∧ ((s.handle h).sumEn = true →
          ((operand s).length < 2 → EndsErr s t s.sel (s.chan s.sel) 2#4 2#8)
          ∧ (2 ≤ (operand s).length → ¬SumMatches (operand s) → EndsErr s t s.sel (s.chan s.sel) 2#4 1#8)
          ∧ ∀ body, operand s = body ++ hex2 (sum8 body) →
              EndsOk s t s.sel { s.chan s.sel with result := false } body)

/-- 41_checksum.md R112. -/
def Obligations.CrcAddAppendsCrc : Prop :=
  ∀ (s : State) (h : Nat), Ready s h →
    ∃ t, exec (.crcAdd h) s = .next t ∧ PortsSame s t
      ∧ (RangeOk s (.crcAdd h) →
          EndsOk s t s.sel { s.chan s.sel with result := false }
            (if (s.handle h).crcEn then operand s ++ crcBytes (crc16 (operand s)) else operand s))
      ∧ (¬RangeOk s (.crcAdd h) → EndsErr s t s.sel (s.chan s.sel) 5#4 4#8)

/-- 41_checksum.md R113. -/
def Obligations.CrcChkReportsVerdict : Prop :=
  ∀ (s : State) (h : Nat), Ready s h →
    ∃ t ok, exec (.crcChk h) s = .next t ∧ PortsSame s t
      ∧ (ok = true ↔ (s.handle h).crcEn = false ∨ CrcMatches (operand s))
      ∧ EndsOk s t s.sel { s.chan s.sel with result := ok } []

/-- 41_checksum.md R114. -/
def Obligations.CrcStripRemovesCrc : Prop :=
  ∀ (s : State) (h : Nat), Ready s h →
    ∃ t, exec (.crcStrip h) s = .next t ∧ PortsSame s t
      ∧ ((s.handle h).crcEn = false → EndsOk s t s.sel { s.chan s.sel with result := false } (operand s))
      ∧ ((s.handle h).crcEn = true →
          ((operand s).length < 2 → EndsErr s t s.sel (s.chan s.sel) 2#4 4#8)
          ∧ (2 ≤ (operand s).length → ¬CrcMatches (operand s) → EndsErr s t s.sel (s.chan s.sel) 2#4 3#8)
          ∧ ∀ body, operand s = body ++ crcBytes (crc16 body) →
              EndsOk s t s.sel { s.chan s.sel with result := false } body)

/-! ## The engines' laws -/

/-- 41_checksum.md R105: with the policy enabled, the check of an added checksum gives 1 and the strip gives the body
back; both are identities with the policy disabled; the empty operand gets "00". -/
def Obligations.AddedChecksumChecksAndStrips : Prop :=
  (∀ (s : State) (h : Nat) (b : Bytes), Ready s h →
    operand s = (if (s.handle h).sumEn then b ++ hex2 (sum8 b) else b) →
      (∃ t, exec (.sumChk h) s = .next t ∧ (t.chan s.sel).result = true ∧ (t.chan s.sel).err = 0#4)
      ∧ ∃ t, exec (.sumStrip h) s = .next t ∧ EndsOk s t s.sel { s.chan s.sel with result := false } b)
    ∧ ∀ (s : State) (h : Nat), Ready s h → RangeOk s (.sumAdd h) → (s.handle h).sumEn = true → operand s = [] →
        ∃ t, exec (.sumAdd h) s = .next t
          ∧ EndsOk s t s.sel { s.chan s.sel with result := false } [0x30#8, 0x30#8]

/-- 41_checksum.md R115: the check of an added CRC gives 1, the strip gives the body back, and the CRC of the whole
is 0. -/
def Obligations.AddedCrcChecksAndStrips : Prop :=
  (∀ (s : State) (h : Nat) (b : Bytes), Ready s h → (s.handle h).crcEn = true →
    operand s = b ++ crcBytes (crc16 b) →
      (∃ t, exec (.crcChk h) s = .next t ∧ (t.chan s.sel).result = true ∧ (t.chan s.sel).err = 0#4)
      ∧ ∃ t, exec (.crcStrip h) s = .next t ∧ EndsOk s t s.sel { s.chan s.sel with result := false } b)
    ∧ ∀ b : Bytes, crc16 (b ++ crcBytes (crc16 b)) = 0#16

/-- 41_checksum.md R116: inverting any one bit of a sequence with its CRC makes CRC.CHK give 0 with the policy enabled;
with it disabled CRC.CHK gives 1 on every operand. -/
def Obligations.CrcChkDetectsEverySingleBitError : Prop :=
  (∀ (s : State) (h : Nat) (b : Bytes) (i : Nat), Ready s h → (s.handle h).crcEn = true → i < 8 * (b.length + 2) →
    operand s = flipBit (b ++ crcBytes (crc16 b)) i →
      ∃ t, exec (.crcChk h) s = .next t ∧ (t.chan s.sel).result = false ∧ (t.chan s.sel).err = 0#4)
    ∧ ∀ (s : State) (h : Nat), Ready s h → (s.handle h).crcEn = false →
        ∃ t, exec (.crcChk h) s = .next t ∧ (t.chan s.sel).result = true ∧ (t.chan s.sel).err = 0#4

/-! ## The framers -/

/-- 43_framers.md R183. -/
def Obligations.AscBuildSerialisesFrame : Prop :=
  ∀ (s : State) (h : Nat), Ready s h →
    ∃ t, exec (.ascBuild h) s = .next t ∧ PortsSame s t
      ∧ (RangeOk s (.ascBuild h) → MarkerOk s h →
          EndsOk s t s.sel { s.chan s.sel with result := false, res := 0#8 } (asciiFrame s h))
      ∧ (¬RangeOk s (.ascBuild h) → EndsErr s t s.sel (s.chan s.sel) 5#4 4#8)
      ∧ (RangeOk s (.ascBuild h) → ¬MarkerOk s h → EndsErr s t s.sel (s.chan s.sel) 4#4 4#8)

/-- 43_framers.md R184: the checks in their order, the separator into RES, the body to the output. -/
def Obligations.AscParseChecksReply : Prop :=
  ∀ (s : State) (h : Nat), Ready s h →
    ∃ t, exec (.ascParse h) s = .next t ∧ PortsSame s t
      ∧ ((s.handle h).sumEn = true → (operand s).length < 2 → EndsErr s t s.sel (s.chan s.sel) 2#4 2#8)
      ∧ ((s.handle h).sumEn = true → 2 ≤ (operand s).length → ¬SumMatches (operand s) →
          EndsErr s t s.sel (s.chan s.sel) 2#4 1#8)
      ∧ ∀ r, operand s = (if (s.handle h).sumEn then r ++ hex2 (sum8 r) else r) →
          ((∀ sep rest, r = sep :: rest → sep ∉ separators) → EndsErr s t s.sel (s.chan s.sel) 3#4 1#8)
          ∧ ∀ sep rest, r = sep :: rest → sep ∈ separators →
              ((s.handle h).addrEn = false →
                EndsOk s t s.sel { s.chan s.sel with result := false, res := sep } rest)
              ∧ ((s.handle h).addrEn = true →
                  ((∀ a b body, rest = a :: b :: body → hexVal a b ≠ some (s.handle h).addr.toNat) →
                    EndsErr s t s.sel (s.chan s.sel) 3#4 2#8)
                  ∧ ∀ a b body, rest = a :: b :: body → hexVal a b = some (s.handle h).addr.toNat →
                      EndsOk s t s.sel { s.chan s.sel with result := false, res := sep } body)

/-- 43_framers.md R191. -/
def Obligations.RtuBuildSerialisesFrame : Prop :=
  ∀ (s : State) (h : Nat), Ready s h →
    ∃ t, exec (.rtuBuild h) s = .next t ∧ PortsSame s t
      ∧ (RangeOk s (.rtuBuild h) →
          EndsOk s t s.sel { s.chan s.sel with result := false, res := 0#8 } (binaryFrame s h))
      ∧ (¬RangeOk s (.rtuBuild h) → EndsErr s t s.sel (s.chan s.sel) 5#4 4#8)

/-- 43_framers.md R192: the checks in their order, the function code into RES, the data to the output. -/
def Obligations.RtuParseChecksReply : Prop :=
  ∀ (s : State) (h : Nat), Ready s h →
    ∃ t, exec (.rtuParse h) s = .next t ∧ PortsSame s t
      ∧ ((s.handle h).crcEn = true → (operand s).length < 2 → EndsErr s t s.sel (s.chan s.sel) 2#4 4#8)
      ∧ ((s.handle h).crcEn = true → 2 ≤ (operand s).length → ¬CrcMatches (operand s) →
          EndsErr s t s.sel (s.chan s.sel) 2#4 3#8)
      ∧ ∀ r, operand s = (if (s.handle h).crcEn then r ++ crcBytes (crc16 r) else r) →
          ((∀ rest, r ≠ (s.handle h).addr :: rest) → EndsErr s t s.sel (s.chan s.sel) 3#4 2#8)
          ∧ ∀ rest, r = (s.handle h).addr :: rest →
              (rest.length < 2 → EndsErr s t s.sel (s.chan s.sel) 3#4 3#8)
              ∧ ∀ fn len data, rest = fn :: len :: data →
                  (data.length ≠ len.toNat → EndsErr s t s.sel (s.chan s.sel) 3#4 3#8)
                  ∧ (data.length = len.toNat →
                      EndsOk s t s.sel { s.chan s.sel with result := false, res := fn } data)

/-! ## Acceptance of the exchanging commands -/

/-- 42_transceiver.md R135, R136: each of the nine transceiver commands snapshots its operands and waits for its port. -/
def Obligations.TransceiverCommandsWaitForLock : Prop :=
  ∀ (s : State) (h : Nat) (i : Instr) (opc : BitVec 8) (mode : Mode) (hasWrite : Bool),
    (i, opc, mode, hasWrite) ∈ transceivers h → Shape s → Ready s h → RangeOk s i → PortOk s h →
    (usesMarker i = true → MarkerOk s h) →
      ∃ t, exec i s = .next t ∧ EntersWaitLock s t s.sel (snapshot s h opc mode hasWrite .plain (operand s))

/-- 43_framers.md R185: ASC.REQ waits for its port with the frame of R183 to send, in mode L. -/
def Obligations.AscReqWaitsWithFrame : Prop :=
  ∀ (s : State) (h : Nat), Shape s → Ready s h → RangeOk s (.ascReq h) → PortOk s h → MarkerOk s h →
    ∃ t, exec (.ascReq h) s = .next t
      ∧ EntersWaitLock s t s.sel (snapshot s h 0x42#8 .l true .ascii (asciiFrame s h))

/-- 43_framers.md R193: RTU.REQ waits for its port with the frame of R191 to send, in mode Q. -/
def Obligations.RtuReqWaitsWithFrame : Prop :=
  ∀ (s : State) (h : Nat), Shape s → Ready s h → RangeOk s (.rtuReq h) → PortOk s h →
    ∃ t, exec (.rtuReq h) s = .next t
      ∧ EntersWaitLock s t s.sel (snapshot s h 0x4A#8 .q true .binary (binaryFrame s h))

/-- 20_memory.md R61: no command touches another channel, a handle register or a global register; it writes only its
own channel's RXBUF, and of the ports at most the set of waiters. -/
def Obligations.CommandTouchesOwnChannelOnly : Prop :=
  ∀ (i : Instr) (s t : State), exec i s = .next t →
    OthersSame s t s.sel ∧ MemSameOutside s t (rxAddr s.sel 0) s.cfg.bufBytes
      ∧ t.ports.length = s.ports.length
      ∧ ∀ p, ∃ ws, t.port p = { s.port p with waiters := ws }

/-! ## The exchange -/

/-- 42_transceiver.md R141: at the grant the configuration checks come first, in their order, then the open and the
apply; each failure ends the command and leaves the port closed and released. -/
def Obligations.GrantFailuresEndInOrder : Prop :=
  ∀ (s : State) (rest : List Event) (p c : Nat) (openOk applyOk : Bool), GrantNext s rest p c openOk applyOk →
    let u := { s with sched := rest }
    let l := grantLine s c
    let fails := fun (t : State) (err : BitVec 4) (sub : BitVec 8) =>
      EndsErr u t c { s.chan c with line := l, watch := false } err sub
        ∧ PortBecomes u t p { s.port p with waiters := (s.port p).waiters.filter (· ≠ c), owner := none, opened := false,
                                            dir := .idle }
    ∃ t, step s = .next t ∧
      (l.baud = 0#32 → fails t 4#4 5#8)
      ∧ (l.baud ≠ 0#32 →
          (¬(l.data = 7#4 ∨ l.data = 8#4) → fails t 4#4 2#8)
          ∧ (l.data = 7#4 ∨ l.data = 8#4 →
              (4 < l.parity.toNat → fails t 4#4 3#8)
              ∧ (l.parity.toNat ≤ 4 →
                  (openOk = false → fails t 1#4 1#8)
                  ∧ (openOk = true → applyOk = false → fails t 1#4 2#8))))

/-- 42_transceiver.md R141, R142, R147: a granted command with a write phase owns the open port, drives the line until
T_END and sends the octets of OUT in index order. The record `sent` of these octets, and in it the instant `now + k * bt`
of octet `k`, are the model's choice (log 11): R142 gives the order and the whole duration only. -/
def Obligations.GrantStartsWrite : Prop :=
  ∀ (s : State) (rest : List Event) (p c : Nat), GrantNext s rest p c true true → LineOk (grantLine s c) →
    (s.chan c).op.hasWrite = true →
    let u := { s with sched := rest }
    let l := grantLine s c
    let o := (s.chan c).op
    ∃ t, step s = .next t ∧ OthersSame u t c ∧ MemSame u t
      ∧ t.chan c = { s.chan c with line := l, phase := .write, tEnd := s.now + o.out.length * l.bt,
                                   watch := decide (o.mode ≠ .w) }
      ∧ PortBecomes u t p
          { s.port p with
            waiters := (s.port p).waiters.filter (· ≠ c), owner := some c, opened := true, applied := some l, dir := .tx
            sent := (s.port p).sent ++ o.out.zipIdx.map fun e => (s.now + e.2 * l.bt, e.1) }

/-- 42_transceiver.md R141, R144: a granted command without a write phase is in READ at once; an exact read of 0
octets ends there with success. -/
def Obligations.GrantWithoutWriteStartsRead : Prop :=
  ∀ (s : State) (rest : List Event) (p c : Nat), GrantNext s rest p c true true → LineOk (grantLine s c) →
    (s.chan c).op.hasWrite = false →
    let u := { s with sched := rest }
    let l := grantLine s c
    let pt := { s.port p with waiters := (s.port p).waiters.filter (· ≠ c), applied := some l }
    ∃ t, step s = .next t
      ∧ (¬((s.chan c).op.mode = .n ∧ (s.chan c).op.n = 0) →
          OthersSame u t c ∧ MemSame u t
            ∧ t.chan c = readEntered s { s.chan c with line := l, watch := true }
            ∧ PortBecomes u t p { pt with owner := some c, opened := true, dir := .rx })
      ∧ ((s.chan c).op.mode = .n → (s.chan c).op.n = 0 → (s.chan c).op.reply = .plain →
          EndsOk u t c (readEntered s { s.chan c with line := l, watch := false, result := false }) []
            ∧ PortBecomes u t p { pt with owner := none, opened := false, dir := .idle })

/-- 42_transceiver.md R142, R143, R144: the end of WRITE, at T_END and at no other instant (the refusal of an entry that
is not due is the model's, log 3). A failed write ends the command, WR settles for two byte times, every other command
enters READ. -/
def Obligations.WriteDeadlineEndsPhase : Prop :=
  ∀ (s : State) (rest : List Event) (c : Nat) (writeOk : Bool), DeadlineNext s rest c writeOk →
    (s.chan c).phase = .write →
    let u := { s with sched := rest }
    let o := (s.chan c).op
    (s.now ≠ (s.chan c).tEnd → step s = .refused .stepNotEnabled)
    ∧ (s.now = (s.chan c).tEnd → ∃ t, step s = .next t
      ∧ (writeOk = false → EndsErr u t c { s.chan c with watch := false } 1#4 3#8 ∧ PortReleased u t o.port)
      ∧ (writeOk = true → o.mode = .w →
          OthersSame u t c ∧ MemSame u t ∧ PortsSame u t
            ∧ t.chan c = { s.chan c with phase := .settle, tEnd := s.now + 2 * (s.chan c).line.bt })
      ∧ (writeOk = true → o.mode ≠ .w → ¬(o.mode = .n ∧ o.n = 0) →
          OthersSame u t c ∧ MemSame u t ∧ t.chan c = readEntered s (s.chan c)
            ∧ PortBecomes u t o.port { s.port o.port with dir := .rx })
      ∧ (writeOk = true → o.mode = .n → o.n = 0 → o.reply = .plain →
          EndsOk u t c (readEntered s { s.chan c with watch := false, result := false }) []
            ∧ PortReleased u t o.port))

/-- 42_transceiver.md R143, R145, R150: the end of SETTLE, at T_END and at no other instant (the refusal of an entry
that is not due is the model's, log 3), completes WR with no output. -/
def Obligations.SettleDeadlineCompletesWrite : Prop :=
  ∀ (s : State) (rest : List Event) (c : Nat) (writeOk : Bool), DeadlineNext s rest c writeOk →
    (s.chan c).phase = .settle →
    let u := { s with sched := rest }
    (s.now ≠ (s.chan c).tEnd → step s = .refused .stepNotEnabled)
    ∧ (s.now = (s.chan c).tEnd → (s.chan c).op.reply = .plain →
        ∃ t, step s = .next t ∧ EndsOk u t c { s.chan c with watch := false, result := false } []
          ∧ PortReleased u t (s.chan c).op.port)

/-- 42_transceiver.md R144, R138: the deadline step of READ, in every mode. Silence ends a frame in mode Q and is a short
read in mode N; else the timeout ends the command; silence comes first. An entry with neither elapsed is refused (the
refusal is the model's, log 3). -/
def Obligations.ReadDeadlineEndsExchange : Prop :=
  ∀ (s : State) (rest : List Event) (c : Nat) (writeOk : Bool), DeadlineNext s rest c writeOk →
    (s.chan c).phase = .read →
    let u := { s with sched := rest }
    (¬QuietElapsed s (s.chan c) → ¬TimeoutElapsed s (s.chan c) → step s = .refused .stepNotEnabled)
    ∧ (QuietElapsed s (s.chan c) ∨ TimeoutElapsed s (s.chan c) →
      ∃ t, step s = .next t ∧ PortReleased u t (s.chan c).op.port
      ∧ (QuietElapsed s (s.chan c) → (s.chan c).op.mode = .q → (s.chan c).op.reply = .plain →
          EndsOk u t c { s.chan c with watch := false, result := false } (s.chan c).acc)
      ∧ (QuietElapsed s (s.chan c) → (s.chan c).op.mode = .n →
          EndsErr u t c { s.chan c with watch := false } 1#4 5#8)
      ∧ (¬QuietElapsed s (s.chan c) → EndsErr u t c { s.chan c with watch := false } 1#4 4#8))

/-- 42_transceiver.md R139 first case, R142, R143, R138: an octet that finds no owner in READ with its watcher, and no
deadline step of the owner due, is discarded. -/
def Obligations.OctetOutsideReadIsLost : Prop :=
  ∀ (s : State) (rest : List Event) (p : Nat) (b : Byte) (writeOk : Bool), s.sched = .rx p b writeOk :: rest →
    p < s.ports.length →
    (∀ c, (s.port p).owner = some c →
      ((s.chan c).phase ≠ .read ∨ (s.chan c).watch = false) ∧ ¬DeadlineDue s (s.chan c)) →
      step s = .next { s with sched := rest }

/-- 42_transceiver.md R139: an octet that ends no frame is appended and restarts the quiet timer. -/
def Obligations.OctetExtendsFrame : Prop :=
  ∀ (s : State) (rest : List Event) (p c : Nat) (b : Byte), OctetNext s rest p c b →
    (s.chan c).acc.length ≠ s.cfg.bufBytes → ¬FrameEnds (s.chan c) ((s.chan c).acc ++ [b]) →
    let u := { s with sched := rest }
    ∃ t, step s = .next t ∧ OthersSame u t c ∧ MemSame u t ∧ PortsSame u t ∧ t.chan c = octetTaken s (s.chan c) b

/-- 42_transceiver.md R139, R152: the octet that makes the count N ends an exact-length exchange with all N octets. -/
def Obligations.ExactLengthEndsOnLastOctet : Prop :=
  ∀ (s : State) (rest : List Event) (p c : Nat) (b : Byte), OctetNext s rest p c b →
    (s.chan c).acc.length ≠ s.cfg.bufBytes → (s.chan c).op.mode = .n → (s.chan c).op.reply = .plain →
    (s.chan c).acc.length + 1 = (s.chan c).op.n →
    let u := { s with sched := rest }
    ∃ t, step s = .next t ∧ PortReleased u t p
      ∧ EndsOk u t c { octetTaken s (s.chan c) b with watch := false, result := false } ((s.chan c).acc ++ [b])

/-- 42_transceiver.md R139, R153, R154: the octet that completes the delimiter, or the marker, ends the exchange; the
output is what came before it. -/
def Obligations.DelimiterEndsFrame : Prop :=
  ∀ (s : State) (rest : List Event) (p c : Nat) (b : Byte) (out : Bytes), OctetNext s rest p c b →
    (s.chan c).acc.length ≠ s.cfg.bufBytes → (s.chan c).op.reply = .plain →
    ((s.chan c).op.mode = .d ∧ (s.chan c).acc ++ [b] = out ++ (s.chan c).op.delim
      ∨ (s.chan c).op.mode = .l ∧ (s.chan c).acc ++ [b] = out ++ (s.chan c).op.eolSeq) →
    let u := { s with sched := rest }
    ∃ t, step s = .next t ∧ PortReleased u t p
      ∧ EndsOk u t c { octetTaken s (s.chan c) b with watch := false, result := false } out

/-- 42_transceiver.md R139: an octet that arrives with BUF_BYTES octets accumulated ends the command with
TransportError(6). -/
def Obligations.OverflowEndsExchange : Prop :=
  ∀ (s : State) (rest : List Event) (p c : Nat) (b : Byte), OctetNext s rest p c b →
    (s.chan c).acc.length = s.cfg.bufBytes →
    let u := { s with sched := rest }
    ∃ t, step s = .next t ∧ PortReleased u t p ∧ EndsErr u t c { s.chan c with watch := false } 1#4 6#8

/-- 42_transceiver.md R138, R139 second case: where a deadline step of the owner is due, in WRITE, SETTLE or READ, it
fires before the octet, which is handled after it. In READ the watcher is set, as in every run. The draw of a due WRITE stands in the octet's schedule entry (log 4). -/
def Obligations.DeadlineFiresBeforeOctet : Prop :=
  ∀ (s : State) (rest : List Event) (p c : Nat) (b : Byte) (writeOk : Bool), s.sched = .rx p b writeOk :: rest →
    p < s.ports.length → c < s.chans.length → (s.port p).owner = some c → DeadlineDue s (s.chan c) →
    ((s.chan c).phase = .read → (s.chan c).watch = true) →
      ∃ t, step { s with sched := .deadline c writeOk :: rest } = .next t
        ∧ step s = .next { t with sched := .rx p b writeOk :: rest } ∧ (t.chan c).phase ≠ (s.chan c).phase
        ∧ ((s.chan c).phase ≠ .write → (t.chan c).phase = .idle)

/-- 43_framers.md R185, R193, R194, 42_transceiver.md R145: a request command parses the output of its exchange in the
exchange's end step, with the port closed and released: ASC.REQ on the octet that completes the marker, RTU.REQ on
the quiet interval. -/
def Obligations.RequestReplyIsParsed : Prop :=
  (∀ (s : State) (rest : List Event) (p c : Nat) (b : Byte) (out : Bytes), OctetNext s rest p c b →
    (s.chan c).acc.length ≠ s.cfg.bufBytes → (s.chan c).op.reply = .ascii → (s.chan c).op.mode = .l →
    (s.chan c).acc ++ [b] = out ++ (s.chan c).op.eolSeq →
    let u := { s with sched := rest }
    let o := (s.chan c).op
    ∃ t, step s = .next t ∧ PortReleased u t p
      ∧ (∀ r, ascParse o.addr o.addrEn o.sumEn out = .ok r →
          EndsOk u t c { octetTaken s (s.chan c) b with watch := false, result := false, res := r.res } r.body)
      ∧ (∀ e, ascParse o.addr o.addrEn o.sumEn out = .error e →
          EndsErr u t c { octetTaken s (s.chan c) b with watch := false } e.errCode e.sub))
  ∧ ∀ (s : State) (rest : List Event) (c : Nat) (writeOk : Bool), DeadlineNext s rest c writeOk →
    (s.chan c).phase = .read → QuietElapsed s (s.chan c) → (s.chan c).op.mode = .q → (s.chan c).op.reply = .binary →
    let u := { s with sched := rest }
    let o := (s.chan c).op
    ∃ t, step s = .next t ∧ PortReleased u t o.port
      ∧ (∀ r, rtuParse o.addr o.crcEn (s.chan c).acc = .ok r →
          EndsOk u t c { s.chan c with watch := false, result := false, res := r.res } r.body)
      ∧ (∀ e, rtuParse o.addr o.crcEn (s.chan c).acc = .error e →
          EndsErr u t c { s.chan c with watch := false } e.errCode e.sub)

/-- 42_transceiver.md R134: the clock advances exactly where it may: forward, with no deadline or grant due, and not
past a pending deadline; nothing else changes. -/
def Obligations.ClockStopsAtDeadlines : Prop :=
  ∀ (s : State) (rest : List Event) (x : Nat), s.sched = .advance x :: rest →
    ((s.now < x ∧ (∀ ch ∈ s.chans, ch.due s.now = false) ∧ (∀ pt ∈ s.ports, pt.owner = none → pt.waiters = [])
        ∧ ∀ ch ∈ s.chans, ∀ d ∈ ch.deadlines, x ≤ d) →
      step s = .next { s with sched := rest, now := x })
    ∧ (¬(s.now < x ∧ (∀ ch ∈ s.chans, ch.due s.now = false) ∧ (∀ pt ∈ s.ports, pt.owner = none → pt.waiters = [])
        ∧ ∀ ch ∈ s.chans, ∀ d ∈ ch.deadlines, x ≤ d) →
      step s = .refused .stepNotEnabled)

/-! ## The register bus -/

/-- 20_memory.md R63, 60_exceptions.md R220: an access of another width or at a misaligned address gets a bus error and
changes no state of the block (the bus response and the count of free values are the model's own, log 5, log 10). -/
def Obligations.BusErrorChangesNothing : Prop :=
  ∀ (s : State) (rest : List Event) (addr : BitVec 16) (width : Nat) (v : Word), (width ≠ 4 ∨ addr.toNat % 4 ≠ 0) →
    (s.sched = .hostWrite addr width v :: rest → step s = .next { s with sched := rest, resp := .writeError })
    ∧ (s.sched = .hostRead addr width :: rest →
        ∃ x k, step s = .next { s with sched := rest, resp := .readError x, free := k })

/-- 20_memory.md R66: reserved addresses and buffer offsets at or above BUF_BYTES read as 0 and ignore writes; so do
writes to read-only registers; no aligned 32-bit access gets an error. -/
def Obligations.ReservedAndReadOnlyAddresses : Prop :=
  (∀ (s : State) (rest : List Event) (addr : BitVec 16) (v : Word),
    ReservedAddress s.cfg addr.toNat ∨ ReadOnlyAddress s.cfg addr.toNat →
      s.sched = .hostWrite addr 4 v :: rest → step s = .next { s with sched := rest, resp := .ack })
    ∧ (∀ (s : State) (rest : List Event) (addr : BitVec 16), ReservedAddress s.cfg addr.toNat →
        s.sched = .hostRead addr 4 :: rest →
          ∃ k, step s = .next { s with sched := rest, resp := .data 0#32, free := k })
    ∧ ∀ (s : State) (rest : List Event) (addr : BitVec 16) (v : Word), addr.toNat % 4 = 0 →
        (s.sched = .hostWrite addr 4 v :: rest → ∃ t, step s = .next t ∧ t.resp = .ack)
        ∧ (s.sched = .hostRead addr 4 :: rest → ∃ t w, step s = .next t ∧ t.resp = .data w)

/-- 10_state.md R42, R43, R44: what ID, PARAMS and PORT_STATUS read, that they ignore writes, that no step changes the
constants, and what PORT_STATUS reads after reset. -/
def Obligations.GlobalRegistersReadOnly : Prop :=
  (∀ (s : State) (rest : List Event) (a : Nat) (v : Word), (a = 0 ∨ a = 4 ∨ 0x100 ≤ a ∧ a < 0x200) → a % 4 = 0 →
      s.sched = .hostWrite (BitVec.ofNat 16 a) 4 v :: rest → step s = .next { s with sched := rest, resp := .ack })
    ∧ (∀ (s : State) (rest : List Event), s.sched = .hostRead 0#16 4 :: rest →
        ∃ k, step s = .next { s with sched := rest, resp := .data s.cfg.blockId, free := k })
    ∧ (∀ (s : State) (rest : List Event), s.cfg.wf = true → s.sched = .hostRead 4#16 4 :: rest →
        ∃ k w, step s = .next { s with sched := rest, resp := .data w, free := k }
          ∧ (w.extractLsb' 0 4).toNat = s.cfg.nchan ∧ (w.extractLsb' 4 7).toNat = s.cfg.nport
          ∧ (w.extractLsb' 11 9).toNat = s.cfg.nhandle ∧ (w.extractLsb' 20 11).toNat = s.cfg.bufBytes
          ∧ w.getLsbD 31 = false)
    ∧ (∀ (s : State) (rest : List Event) (p : Nat), p < 64 →
        s.sched = .hostRead (BitVec.ofNat 16 (0x100 + 4 * p)) 4 :: rest →
        ∃ k w, step s = .next { s with sched := rest, resp := .data w, free := k }
          ∧ (s.cfg.nport ≤ p → w = 0#32)
          ∧ (p < s.cfg.nport → (∀ c, (s.port p).owner = some c → c < 8) →
              w.getLsbD 0 = (s.port p).opened ∧ w.getLsbD 1 = (s.port p).owner.isSome
              ∧ (w.extractLsb' 2 3).toNat = (s.port p).owner.getD 0
              ∧ ((s.port p).dir = .idle → w.extractLsb' 5 2 = 0#2) ∧ ((s.port p).dir = .tx → w.extractLsb' 5 2 = 1#2)
              ∧ ((s.port p).dir = .rx → w.extractLsb' 5 2 = 2#2) ∧ w.extractLsb' 7 25 = 0#25))
    ∧ (∀ s t : State, step s = .next t → t.cfg = s.cfg)
    ∧ ∀ (cfg : Config.Params) (p : Nat), p < 64 →
        ∃ t, step { State.resetOf cfg with sched := [.hostRead (BitVec.ofNat 16 (0x100 + 4 * p)) 4] } = .next t
          ∧ t.resp = .data 0#32

/-- 10_state.md R34 to R41, 20_memory.md R62: each handle register stores its bits of the written word and reads them
back, and no other register of any slot changes. -/
def Obligations.HandleRegistersStoreTheirBits : Prop :=
  ∀ (s : State) (rest : List Event) (h off : Nat) (r : HandleReg) (mask v : Word), (off, r, mask) ∈ handleMap →
    s.cfg.wf = true → Shape s → h < s.cfg.nhandle →
    s.sched = .hostWrite (handleAddress h off) 4 v :: .hostRead (handleAddress h off) 4 :: rest →
    ∃ t u, step s = .next t ∧ step t = .next u ∧ u.resp = .data (v &&& mask)
      ∧ t.chans = s.chans ∧ t.ports = s.ports ∧ t.mem = s.mem ∧ t.now = s.now ∧ t.cfg = s.cfg
      ∧ (∀ h', h' ≠ h → t.handle h' = s.handle h')
      ∧ ∀ off' r' mask', (off', r', mask') ∈ handleMap → r' ≠ r → (t.handle h).readReg r' = (s.handle h).readReg r'

/-- 10_state.md R24, R26, R28, R29: each operand register of a channel that is not busy stores its bits of the written
word and reads them back; of the channel nothing but that register changes, and nothing else of the block. -/
def Obligations.OperandRegistersStoreTheirBits : Prop :=
  ∀ (s : State) (rest : List Event) (c off : Nat) (r : ChanReg) (mask v : Word), (off, r, mask) ∈ operandMap →
    s.cfg.wf = true → Shape s → c < s.cfg.nchan → (s.chan c).busy = false →
    s.sched = .hostWrite (chanAddress c off) 4 v :: .hostRead (chanAddress c off) 4 :: rest →
    ∃ t u, step s = .next t ∧ step t = .next u ∧ u.resp = .data (v &&& mask)
      ∧ OthersSame { s with sched := .hostRead (chanAddress c off) 4 :: rest, resp := .ack } t c
      ∧ t.ports = s.ports ∧ t.mem = s.mem
      ∧ (∃ tl a0 dl dm, t.chan c = { s.chan c with txlen := tl, arg0 := a0, dlen := dl, delim := dm })
      ∧ ∀ off' r' mask', (off', r', mask') ∈ operandMap → r' ≠ r → ∀ k, (t.chan c).readReg k r' = (s.chan c).readReg k r'

/-- 20_memory.md R68: writes to the operand registers and the TXBUF of a busy channel are ignored. -/
def Obligations.OperandWritesIgnoredWhileBusy : Prop :=
  ∀ (s : State) (rest : List Event) (c off : Nat) (v : Word), s.cfg.wf = true → c < s.cfg.nchan →
    (s.chan c).busy = true →
    (off ∈ operandMap.map (·.1) ∨ 0x400 ≤ off ∧ off < 0x400 + s.cfg.bufBytes ∧ off % 4 = 0) →
    s.sched = .hostWrite (chanAddress c off) 4 v :: rest → step s = .next { s with sched := rest, resp := .ack }

/-- 20_memory.md R64, 10_state.md R31: a word written to TXBUF puts its low byte at the lowest index and reads back. -/
def Obligations.TxBufferWordReadsBack : Prop :=
  ∀ (s : State) (rest : List Event) (c k : Nat) (v : Word), s.cfg.wf = true → c < s.cfg.nchan →
    (s.chan c).busy = false → k % 4 = 0 → k < s.cfg.bufBytes →
    s.sched = .hostWrite (chanAddress c (0x400 + k)) 4 v :: .hostRead (chanAddress c (0x400 + k)) 4 :: rest →
    ∃ t u, step s = .next t ∧ step t = .next u ∧ u.resp = .data v
      ∧ t.byte? (txAddr c k) = some (v.extractLsb' 0 8) ∧ t.byte? (txAddr c (k + 1)) = some (v.extractLsb' 8 8)
      ∧ t.byte? (txAddr c (k + 2)) = some (v.extractLsb' 16 8) ∧ t.byte? (txAddr c (k + 3)) = some (v.extractLsb' 24 8)
      ∧ MemSameOutside s t (txAddr c k) 4 ∧ t.chans = s.chans ∧ t.handles = s.handles ∧ t.ports = s.ports

/-- 10_state.md R23: the fields of STATUS as the host reads them. -/
def Obligations.StatusFieldsReadable : Prop :=
  ∀ (s : State) (rest : List Event) (c : Nat), s.cfg.wf = true → c < s.cfg.nchan →
    s.sched = .hostRead (chanAddress c 0x004) 4 :: rest →
    ∃ k w, step s = .next { s with sched := rest, resp := .data w, free := k }
      ∧ w.getLsbD 0 = (s.chan c).busy ∧ w.getLsbD 1 = (s.chan c).done ∧ w.getLsbD 2 = (s.chan c).result
      ∧ w.getLsbD 3 = (s.chan c).rej ∧ w.extractLsb' 4 4 = (s.chan c).err ∧ w.extractLsb' 8 8 = (s.chan c).sub
      ∧ (w.extractLsb' 16 3).toNat
          = (match (s.chan c).phase with
             | .idle => 0
             | .waitLock => 1
             | .write => 2
             | .settle => 3
             | .read => 4)
      ∧ w.extractLsb' 19 13 = 0#13

/-- 20_memory.md R64, R68, R70, 10_state.md R22, R24 to R26, R28 to R32: what an aligned read in a channel's window
returns. CMD, the operand registers and the written bytes of TXBUF read as they are at any time, busy or not; RXLEN, RES
and the output bytes, those of a last word that the output fills in part among them, while the channel is not busy. -/
def Obligations.ChannelRegistersReadable : Prop :=
  ∀ (s : State) (rest : List Event) (c off : Nat), s.cfg.wf = true → c < s.cfg.nchan → off % 4 = 0 → off < 0x1000 →
    s.sched = .hostRead (chanAddress c off) 4 :: rest →
    ∃ x w, step s = .next { s with sched := rest, resp := .data w, free := x }
      ∧ (off = 0x000 → w = (s.chan c).cmd) ∧ (off = 0x008 → w = (s.chan c).txlen.setWidth 32)
      ∧ (off = 0x010 → w = (s.chan c).arg0.setWidth 32) ∧ (off = 0x014 → w = (s.chan c).dlen.setWidth 32)
      ∧ (off = 0x018 → w = (s.chan c).delim.w0) ∧ (off = 0x01C → w = (s.chan c).delim.w1)
      ∧ (off = 0x020 → w = (s.chan c).delim.w2) ∧ (off = 0x024 → w = (s.chan c).delim.w3)
      ∧ (∀ k j b, off = 0x400 + k → j < 4 → k + j < s.cfg.bufBytes → s.byte? (txAddr c (k + j)) = some b →
          w.extractLsb' (8 * j) 8 = b)
      ∧ ((s.chan c).busy = false →
          (off = 0x00C → w = (s.chan c).rxlen.setWidth 32) ∧ (off = 0x028 → w = (s.chan c).res.setWidth 32)
          ∧ ∀ k j b, off = 0x800 + k → j < 4 → k + j < (s.chan c).rxlen.toNat → k + j < s.cfg.bufBytes →
              s.byte? (rxAddr c (k + j)) = some b → w.extractLsb' (8 * j) 8 = b)

/-! ## Reset -/

/-- 10_state.md R48, 00_scope.md R6: what every instance holds right after reset, and that it meets every invariant.
That State.reset is the reference instance is the model's choice (log 1). -/
def Obligations.ResetStateMeetsInvariants : Prop :=
  State.reset = State.resetOf Config.reference ∧ Config.reference.wf = true
    ∧ ∀ p : Config.Params, AtReset (State.resetOf p) ∧ (State.resetOf p).cfg = p
        ∧ Canonical (State.resetOf p) ∧ ReservedZero (State.resetOf p) ∧ BusyOk (State.resetOf p)
        ∧ Serialised (State.resetOf p) ∧ DeadlinesAhead (State.resetOf p) ∧ ErrorsOk (State.resetOf p)
        ∧ FitsBuffers (State.resetOf p)

/-- 70_reset_and_hazards.md R240, R241, R242: the reset input brings every channel, handle slot and port to its reset
value at once, in any phase; the parameters and the clock are not touched. -/
def Obligations.ResetInputRestoresReset : Prop :=
  ∀ (s : State) (rest : List Event), s.sched = .reset :: rest → Shape s →
    ∃ t, step s = .next t ∧ AtReset t ∧ t.cfg = s.cfg ∧ t.now = s.now ∧ t.sched = rest

/-! ## Invariants that every step keeps -/

/-- The memory keeps its canonical form and lists only bytes of the buffer windows (20_memory.md R60, R66). -/
def Obligations.StepKeepsMemoryCanonical : Prop :=
  ∀ s t : State, s.cfg.wf = true → Shape s → FitsBuffers s → Canonical s → step s = .next t → Canonical t ∧ t.cfg = s.cfg

/-- 10_state.md R36, R40: the reserved bits of FRAME and PROTO stay 0. -/
def Obligations.StepKeepsReservedBitsZero : Prop :=
  ∀ s t : State, ReservedZero s → step s = .next t → ReservedZero t

/-- 42_transceiver.md R162, R147, 10_state.md R45: every step keeps the exclusive section of every port. -/
def Obligations.StepKeepsPortsSerialised : Prop :=
  ∀ s t : State, Shape s → BusyOk s → Serialised s → step s = .next t → Shape t ∧ BusyOk t ∧ Serialised t

/-- 42_transceiver.md R134: no step passes over a deadline. -/
def Obligations.StepKeepsDeadlinesAhead : Prop :=
  ∀ s t : State, DeadlinesAhead s → step s = .next t → DeadlinesAhead t ∧ s.now ≤ t.now

/-- 60_exceptions.md R210, R218: every step leaves only error records of the table, and no output with an error. -/
def Obligations.StepKeepsErrorRecords : Prop :=
  ∀ s t : State, ErrorsOk s → step s = .next t → ErrorsOk t

/-- 60_exceptions.md R214: every step leaves the lengths of every exchange and every output within the buffer. -/
def Obligations.StepKeepsLengthsInBuffer : Prop :=
  ∀ s t : State, FitsBuffers s → step s = .next t → FitsBuffers t

/-! ## Rules of the whole machine -/

/-- 42_transceiver.md R146, R142, R143, R144, R139: a step that is not the reset input leaves a channel's phase or takes
one of the listed transitions, and each only on its cause: out of WRITE and SETTLE at T_END, out of READ when silence or
the timeout has elapsed or on an octet on its port that overflows the buffer or ends the frame, out of WAIT_LOCK on the
grant of its port, out of IDLE on a write to its CMD. -/
def Obligations.PhaseTransitionsAreComplete : Prop :=
  ∀ (s t : State) (e : Event) (rest : List Event) (c : Nat), Shape s → BusyOk s → Serialised s →
    s.sched = e :: rest → e ≠ .reset → step s = .next t →
      ((t.chan c).phase = (s.chan c).phase ∨ ((s.chan c).phase, (t.chan c).phase) ∈ transitions)
      ∧ ((t.chan c).phase ≠ (s.chan c).phase →
          ((s.chan c).phase = .idle → ∃ w, e = .hostWrite (cmdAddress c) 4 w)
          ∧ ((s.chan c).phase = .waitLock → ∃ openOk applyOk, e = .grant (s.chan c).op.port c openOk applyOk)
          ∧ ((s.chan c).phase = .write ∨ (s.chan c).phase = .settle → s.now = (s.chan c).tEnd)
          ∧ ((s.chan c).phase = .read →
              QuietElapsed s (s.chan c) ∨ TimeoutElapsed s (s.chan c)
              ∨ ∃ b writeOk, e = .rx (s.chan c).op.port b writeOk
                ∧ ((s.chan c).acc.length = s.cfg.bufBytes ∨ FrameEnds (s.chan c) ((s.chan c).acc ++ [b]))))

/-- 42_transceiver.md R160, R144: in mode Q an exchange that is in READ ends with success only at LAST_RX + QUIET, with
at least one octet. In every mode TransportError(4) comes only at T_READ + TIMEOUT, and TransportError(5) only in mode N
at LAST_RX + QUIET, with at least one octet. -/
def Obligations.QuietFrameEndsOnSilence : Prop :=
  ∀ (s t : State) (c : Nat), Shape s → BusyOk s → Serialised s → DeadlinesAhead s → c < s.chans.length →
    (s.chan c).phase = .read → (s.chan c).done = false → step s = .next t → (t.chan c).done = true →
      let silence := (s.chan c).acc ≠ [] ∧ ∃ l, (s.chan c).lastRx = some l ∧ s.now = l + (s.chan c).line.quiet
      ((s.chan c).op.mode = .q → (t.chan c).err = 0#4 → silence)
      ∧ ((t.chan c).err = 1#4 → (t.chan c).sub = 4#8 →
          ∃ d, (s.chan c).line.timeout = some d ∧ s.now = (s.chan c).tRead + d)
      ∧ ((t.chan c).err = 1#4 → (t.chan c).sub = 5#8 → (s.chan c).op.mode = .n ∧ silence)

/-- 42_transceiver.md R161, 70_reset_and_hazards.md R254: a READ with no timeout and no octet yet stays as it is at
every step but an octet on its port and the reset input; its port stays locked and open. -/
def Obligations.UnboundedReadWaits : Prop :=
  ∀ (s t : State) (e : Event) (rest : List Event) (c : Nat), Shape s → BusyOk s → Serialised s →
    c < s.chans.length → (s.chan c).phase = .read → (s.chan c).line.timeout = none → (s.chan c).acc = [] →
    s.sched = e :: rest → e ≠ .reset → (∀ b w, e ≠ .rx (s.chan c).op.port b w) → step s = .next t →
      (t.chan c).phase = .read ∧ (t.chan c).busy = true ∧ (t.chan c).op = (s.chan c).op
        ∧ (t.chan c).line = (s.chan c).line ∧ (t.chan c).acc = []
        ∧ (t.port (s.chan c).op.port).owner = some c ∧ (t.port (s.chan c).op.port).opened = true

/-- 42_transceiver.md R163: a running transceiver command ends with success, TransportError or ConfigurationError, never
with ChecksumError or SemanticError. -/
def Obligations.TransceiverErrorClasses : Prop :=
  ∀ (s t : State) (e : Event) (rest : List Event) (c : Nat), Shape s → BusyOk s → Serialised s →
    c < s.chans.length → (s.chan c).busy = true → (s.chan c).op.reply = .plain → s.sched = e :: rest → e ≠ .reset →
    step s = .next t → (t.chan c).done = true → (s.chan c).done = false →
      (t.chan c).err = 0#4 ∨ (t.chan c).err = 1#4 ∨ (t.chan c).err = 4#4

/-- 10_state.md R47, 60_exceptions.md R218: only a host write and the reset input change a handle register. -/
def Obligations.HandlesChangeOnlyByHost : Prop :=
  ∀ (s t : State), step s = .next t → t.handles ≠ s.handles →
    (∃ rest, s.sched = .reset :: rest) ∨ ∃ addr v rest, s.sched = .hostWrite addr 4 v :: rest
      ∧ 0x1000 ≤ addr.toNat ∧ addr.toNat < 0x8000 ∧ addr.toNat % 4 = 0
end

