-- ==== Sys2Proof/Laws/Codec.lean ====
section
/-! SUPPORT. The pure engines: lengths, the last two octets of an operand, and what each engine can answer. -/

namespace Sys2Proof.Machine

@[simp] theorem hex2_length (v : Byte) : (hex2 v).length = 2 := rfl

@[simp] theorem crcBytes_length (v : Half) : (crcBytes v).length = 2 := rfl

@[simp] theorem body2_append {s t : Bytes} (h : t.length = 2) : body2 (s ++ t) = s := by
  simp [body2, h]

@[simp] theorem tail2_append {s t : Bytes} (h : t.length = 2) : tail2 (s ++ t) = t := by
  simp [tail2, h]

/-- An operand is its front and its last two octets. -/
theorem body2_append_tail2 (s : Bytes) : body2 s ++ tail2 s = s := List.take_append_drop _ _

theorem tail2_length {s : Bytes} (h : 2 ≤ s.length) : (tail2 s).length = 2 := by
  simp only [tail2, List.length_drop]
  omega

/-- The last two octets are the check value of the rest exactly when the operand is some body with its check value. -/
theorem tail2_eq_iff {f : Bytes → Bytes} (hf : ∀ x, (f x).length = 2) (s : Bytes) :
    (2 ≤ s.length ∧ tail2 s = f (body2 s)) ↔ ∃ body, s = body ++ f body := by
  constructor
  · rintro ⟨-, h⟩
    exact ⟨body2 s, by rw [← h, body2_append_tail2]⟩
  · rintro ⟨body, rfl⟩
    rw [tail2_append (hf _), body2_append (hf _)]
    exact ⟨by simp [hf], rfl⟩

/-- The verdict of the additive check with the policy enabled (R103). -/
theorem sumChk_true_iff (s : Bytes) : sumChk true s = true ↔ ∃ body, s = body ++ hex2 (sum8 body) := by
  rw [← tail2_eq_iff (f := fun b => hex2 (sum8 b)) (fun _ => rfl)]
  simp [sumChk]

/-- The verdict of the CRC check with the policy enabled (R113). -/
theorem crcChk_true_iff (s : Bytes) : crcChk true s = true ↔ ∃ body, s = body ++ crcBytes (crc16 body) := by
  rw [← tail2_eq_iff (f := fun b => crcBytes (crc16 b)) (fun _ => rfl)]
  simp [crcChk]

@[simp] theorem sumChk_false (s : Bytes) : sumChk false s = true := rfl

@[simp] theorem crcChk_false (s : Bytes) : crcChk false s = true := rfl

/-- A body with its additive checksum strips to the body (R104, R105). -/
theorem sumStrip_append (body : Bytes) : sumStrip true (body ++ hex2 (sum8 body)) = .ok body := by
  simp only [sumStrip, if_true, tail2_append (hex2_length _), body2_append (hex2_length _)]
  simp

/-- A body with its CRC strips to the body (R114, R115). -/
theorem crcStrip_append (body : Bytes) : crcStrip true (body ++ crcBytes (crc16 body)) = .ok body := by
  simp only [crcStrip, if_true, tail2_append (crcBytes_length _), body2_append (crcBytes_length _)]
  simp

/-- Everything SUM.STRIP can answer with the policy enabled (R104). -/
theorem sumStrip_cases (s : Bytes) :
    (s.length < 2 ∧ sumStrip true s = .error .sumShort)
      ∨ (2 ≤ s.length ∧ (¬∃ body, s = body ++ hex2 (sum8 body)) ∧ sumStrip true s = .error .sumMismatch)
      ∨ ∃ body, s = body ++ hex2 (sum8 body) ∧ sumStrip true s = .ok body := by
  by_cases h : s.length < 2
  · exact .inl ⟨h, by simp [sumStrip, h]⟩
  · by_cases hb : ∃ body, s = body ++ hex2 (sum8 body)
    · obtain ⟨body, rfl⟩ := hb
      exact .inr (.inr ⟨body, rfl, sumStrip_append body⟩)
    · refine .inr (.inl ⟨by omega, hb, ?_⟩)
      have hne : tail2 s ≠ hex2 (sum8 (body2 s)) := fun he =>
        hb ((tail2_eq_iff (f := fun b => hex2 (sum8 b)) (fun _ => rfl) s).1 ⟨by omega, he⟩)
      simp [sumStrip, h, hne]

/-- Everything CRC.STRIP can answer with the policy enabled (R114). -/
theorem crcStrip_cases (s : Bytes) :
    (s.length < 2 ∧ crcStrip true s = .error .crcShort)
      ∨ (2 ≤ s.length ∧ (¬∃ body, s = body ++ crcBytes (crc16 body)) ∧ crcStrip true s = .error .crcMismatch)
      ∨ ∃ body, s = body ++ crcBytes (crc16 body) ∧ crcStrip true s = .ok body := by
  by_cases h : s.length < 2
  · exact .inl ⟨h, by simp [crcStrip, h]⟩
  · by_cases hb : ∃ body, s = body ++ crcBytes (crc16 body)
    · obtain ⟨body, rfl⟩ := hb
      exact .inr (.inr ⟨body, rfl, crcStrip_append body⟩)
    · refine .inr (.inl ⟨by omega, hb, ?_⟩)
      have hne : tail2 s ≠ crcBytes (crc16 (body2 s)) := fun he =>
        hb ((tail2_eq_iff (f := fun b => crcBytes (crc16 b)) (fun _ => rfl) s).1 ⟨by omega, he⟩)
      simp [crcStrip, h, hne]

/-- A strip's output is no longer than its operand (60_exceptions.md R214). -/
theorem sumStrip_length {en : Bool} {s r : Bytes} (h : sumStrip en s = .ok r) : r.length ≤ s.length := by
  unfold sumStrip at h
  split_ifs at h <;> cases h <;> simp [body2]

theorem crcStrip_length {en : Bool} {s r : Bytes} (h : crcStrip en s = .ok r) : r.length ≤ s.length := by
  unfold crcStrip at h
  split_ifs at h <;> cases h <;> simp [body2]

/-- A parse's output is no longer than its operand (60_exceptions.md R214). -/
theorem ascParse_length {a : Byte} {ae se : Bool} {s : Bytes} {r : Rec} (h : ascParse a ae se s = .ok r) :
    r.body.length ≤ s.length := by
  unfold ascParse at h
  split at h
  · cases h
  · rename_i t ht
    refine le_trans ?_ (sumStrip_length ht)
    unfold ascContent at h
    split at h
    · cases h
    · split at h
      · cases h
      · split at h
        · split at h
          · split at h
            · cases h
              simp
              omega
            · cases h
          · cases h
        · cases h
          simp

theorem rtuParse_length {a : Byte} {ce : Bool} {s : Bytes} {r : Rec} (h : rtuParse a ce s = .ok r) :
    r.body.length ≤ s.length := by
  unfold rtuParse at h
  split at h
  · cases h
  · rename_i t ht
    refine le_trans ?_ (crcStrip_length ht)
    unfold rtuContent at h
    split at h
    · cases h
    · split at h
      · cases h
      · split at h
        · split at h
          · cases h
            simp
            omega
          · cases h
        · cases h

/-- One shift of the CRC register is linear (R110). -/
theorem crcShift_xor (a b : Half) : crcShift (a ^^^ b) = crcShift a ^^^ crcShift b := by
  have h (x y p : Half) : x ^^^ p ^^^ (y ^^^ p) = x ^^^ y := by
    rw [show x ^^^ p ^^^ (y ^^^ p) = x ^^^ y ^^^ (p ^^^ p) by ac_rfl, BitVec.xor_self, BitVec.xor_zero]
  simp only [crcShift, BitVec.getLsbD_xor, BitVec.ushiftRight_xor_distrib]
  cases a.getLsbD 0 <;> cases b.getLsbD 0 <;> simp [h] <;> ac_rfl

end Sys2Proof.Machine
end

