-- ==== Sys2Proof/Laws/Memory.lean ====
section
/-! SUPPORT. The memory: a read after a write, and the canonical form that every operation keeps. -/

namespace Sys2Proof.Machine

/-- The byte just written reads back. -/
@[simp] theorem Memory.read?_write_self (m : Memory) (a : Nat) (b : Byte) : (m.write a b).read? a = some b := by
  induction m with
  | nil => simp [Memory.write, Memory.read?]
  | cons e m ih =>
    obtain ⟨k, v⟩ := e
    simp only [Memory.write]
    split
    · simp [Memory.read?]
    · split
      · simp [Memory.read?]
      · rename_i _ h
        simp [Memory.read?, Ne.symm h, ih]

/-- Every other byte reads as before. -/
theorem Memory.read?_write_ne (m : Memory) {a a' : Nat} (b : Byte) (h : a' ≠ a) :
    (m.write a b).read? a' = m.read? a' := by
  induction m with
  | nil => simp [Memory.write, Memory.read?, h.symm]
  | cons e m ih =>
    obtain ⟨k, v⟩ := e
    simp only [Memory.write]
    split
    · simp [Memory.read?, h.symm]
    · split
      · rename_i _ hk
        subst hk
        simp [Memory.read?, h.symm]
      · simp [Memory.read?, ih]

/-- An address of a written memory is the written one or was listed before. -/
theorem Memory.mem_write {m : Memory} {a : Nat} {b : Byte} {e : Host.Cell} (h : e ∈ m.write a b) :
    e = (a, b) ∨ e ∈ m := by
  induction m with
  | nil => simpa [Memory.write] using h
  | cons x m ih =>
    obtain ⟨k, v⟩ := x
    simp only [Memory.write] at h
    split at h
    · simpa using h
    · split at h
      · rcases List.mem_cons.1 h with h | h
        · exact .inl h
        · exact .inr (List.mem_cons_of_mem _ h)
      · rcases List.mem_cons.1 h with h | h
        · exact .inr (h ▸ List.mem_cons_self)
        · exact (ih h).imp id (List.mem_cons_of_mem _)

/-- A write keeps the addresses strictly rising. -/
theorem Memory.wf_write {m : Memory} (a : Nat) (b : Byte) (h : m.wf) : (m.write a b).wf := by
  induction m with
  | nil => simp [Memory.write, Memory.wf]
  | cons e m ih =>
    obtain ⟨k, v⟩ := e
    obtain ⟨hk, hm⟩ := List.pairwise_cons.1 h
    simp only [Memory.write]
    split
    · rename_i hlt
      refine List.pairwise_cons.2 ⟨fun x hx => ?_, h⟩
      rcases List.mem_cons.1 hx with rfl | hx
      · exact hlt
      · exact lt_trans hlt (hk x hx)
    · split
      · rename_i heq
        subst heq
        exact List.pairwise_cons.2 ⟨hk, hm⟩
      · rename_i hge hne
        refine List.pairwise_cons.2 ⟨fun x hx => ?_, ih hm⟩
        rcases Memory.mem_write hx with rfl | hx
        · show k < a
          omega
        · exact hk x hx

/-- Writing bytes keeps the canonical form. -/
theorem Memory.wf_writeBytes {m : Memory} (a : Nat) (bs : Bytes) (h : m.wf) : (m.writeBytes a bs).wf := by
  induction bs generalizing m a with
  | nil => exact h
  | cons b bs ih => exact ih (a + 1) (Memory.wf_write a b h)

/-- Bytes outside the written range read as before. -/
theorem Memory.read?_writeBytes_out (m : Memory) (a : Nat) (bs : Bytes) {x : Nat} (h : ¬(a ≤ x ∧ x < a + bs.length)) :
    (m.writeBytes a bs).read? x = m.read? x := by
  induction bs generalizing m a with
  | nil => rfl
  | cons b bs ih =>
    simp only [List.length_cons] at h
    rw [Memory.writeBytes, ih _ _ (by omega), Memory.read?_write_ne _ _ (by omega)]

/-- The written bytes read back. -/
theorem Memory.read?_writeBytes_in (m : Memory) (a : Nat) (bs : Bytes) {k : Nat} {b : Byte} (h : bs[k]? = some b) :
    (m.writeBytes a bs).read? (a + k) = some b := by
  induction bs generalizing m a k with
  | nil => simp at h
  | cons x bs ih =>
    cases k with
    | zero =>
      obtain rfl : x = b := by simpa using h
      rw [Memory.writeBytes, Memory.read?_writeBytes_out _ _ _ (by omega)]
      simp
    | succ k =>
      have := ih (m.write a x) (a + 1) (k := k) (by simpa using h)
      rw [Memory.writeBytes, show a + (k + 1) = a + 1 + k by omega]
      exact this

/-- A listed address of a written memory lies in the written range or was listed before. -/
theorem Memory.mem_writeBytes {m : Memory} {a : Nat} {bs : Bytes} {e : Host.Cell} (h : e ∈ m.writeBytes a bs) :
    (a ≤ e.1 ∧ e.1 < a + bs.length) ∨ e ∈ m := by
  induction bs generalizing m a with
  | nil => exact .inr h
  | cons b bs ih =>
    rcases ih h with h | h
    · exact .inl (by simp only [List.length_cons]; omega)
    · rcases Memory.mem_write h with rfl | h
      · exact .inl (by simp)
      · exact .inr h

/-- Every state that an update of the memory by written bytes gives keeps the canonical form. -/
theorem State.mem_wf_complete {s : State} (c : Nat) (out : Bytes) (h : s.mem.wf) : (s.complete c out).mem.wf :=
  Memory.wf_writeBytes _ _ h

/-- The memory after reset has the canonical form. -/
theorem State.reset_mem_wf : State.reset.mem.wf := List.Pairwise.nil

end Sys2Proof.Machine
end

