-- ==== Sys2Proof/Laws/State.lean ====
section
/-! SUPPORT. One lemma per field per update of State, and per accessor per update that leaves its field alone. -/

namespace Sys2Proof.Machine

@[simp] theorem State.modChan_cfg (s : State) (c : Nat) (f : Chan → Chan) : (s.modChan c f).cfg = s.cfg := rfl
@[simp] theorem State.modChan_chans (s : State) (c : Nat) (f : Chan → Chan) : (s.modChan c f).chans = s.chans.modify c f := rfl
@[simp] theorem State.modChan_handles (s : State) (c : Nat) (f : Chan → Chan) : (s.modChan c f).handles = s.handles := rfl
@[simp] theorem State.modChan_ports (s : State) (c : Nat) (f : Chan → Chan) : (s.modChan c f).ports = s.ports := rfl
@[simp] theorem State.modChan_mem (s : State) (c : Nat) (f : Chan → Chan) : (s.modChan c f).mem = s.mem := rfl
@[simp] theorem State.modChan_now (s : State) (c : Nat) (f : Chan → Chan) : (s.modChan c f).now = s.now := rfl
@[simp] theorem State.modChan_free (s : State) (c : Nat) (f : Chan → Chan) : (s.modChan c f).free = s.free := rfl
@[simp] theorem State.modChan_sel (s : State) (c : Nat) (f : Chan → Chan) : (s.modChan c f).sel = s.sel := rfl
@[simp] theorem State.modChan_resp (s : State) (c : Nat) (f : Chan → Chan) : (s.modChan c f).resp = s.resp := rfl
@[simp] theorem State.modChan_sched (s : State) (c : Nat) (f : Chan → Chan) : (s.modChan c f).sched = s.sched := rfl
@[simp] theorem State.modChan_handle (s : State) (c : Nat) (f : Chan → Chan) (k' : Nat) : (s.modChan c f).handle k' = s.handle k' := rfl
@[simp] theorem State.modChan_port (s : State) (c : Nat) (f : Chan → Chan) (k' : Nat) : (s.modChan c f).port k' = s.port k' := rfl
@[simp] theorem State.modChan_byte (s : State) (c : Nat) (f : Chan → Chan) (a' : Nat) : (s.modChan c f).byte? a' = s.byte? a' := rfl

@[simp] theorem State.modHandle_cfg (s : State) (h : Nat) (f : Handle → Handle) : (s.modHandle h f).cfg = s.cfg := rfl
@[simp] theorem State.modHandle_chans (s : State) (h : Nat) (f : Handle → Handle) : (s.modHandle h f).chans = s.chans := rfl
@[simp] theorem State.modHandle_handles (s : State) (h : Nat) (f : Handle → Handle) : (s.modHandle h f).handles = s.handles.modify h f := rfl
@[simp] theorem State.modHandle_ports (s : State) (h : Nat) (f : Handle → Handle) : (s.modHandle h f).ports = s.ports := rfl
@[simp] theorem State.modHandle_mem (s : State) (h : Nat) (f : Handle → Handle) : (s.modHandle h f).mem = s.mem := rfl
@[simp] theorem State.modHandle_now (s : State) (h : Nat) (f : Handle → Handle) : (s.modHandle h f).now = s.now := rfl
@[simp] theorem State.modHandle_free (s : State) (h : Nat) (f : Handle → Handle) : (s.modHandle h f).free = s.free := rfl
@[simp] theorem State.modHandle_sel (s : State) (h : Nat) (f : Handle → Handle) : (s.modHandle h f).sel = s.sel := rfl
@[simp] theorem State.modHandle_resp (s : State) (h : Nat) (f : Handle → Handle) : (s.modHandle h f).resp = s.resp := rfl
@[simp] theorem State.modHandle_sched (s : State) (h : Nat) (f : Handle → Handle) : (s.modHandle h f).sched = s.sched := rfl
@[simp] theorem State.modHandle_chan (s : State) (h : Nat) (f : Handle → Handle) (k' : Nat) : (s.modHandle h f).chan k' = s.chan k' := rfl
@[simp] theorem State.modHandle_port (s : State) (h : Nat) (f : Handle → Handle) (k' : Nat) : (s.modHandle h f).port k' = s.port k' := rfl
@[simp] theorem State.modHandle_byte (s : State) (h : Nat) (f : Handle → Handle) (a' : Nat) : (s.modHandle h f).byte? a' = s.byte? a' := rfl

@[simp] theorem State.modPort_cfg (s : State) (p : Nat) (f : Port → Port) : (s.modPort p f).cfg = s.cfg := rfl
@[simp] theorem State.modPort_chans (s : State) (p : Nat) (f : Port → Port) : (s.modPort p f).chans = s.chans := rfl
@[simp] theorem State.modPort_handles (s : State) (p : Nat) (f : Port → Port) : (s.modPort p f).handles = s.handles := rfl
@[simp] theorem State.modPort_ports (s : State) (p : Nat) (f : Port → Port) : (s.modPort p f).ports = s.ports.modify p f := rfl
@[simp] theorem State.modPort_mem (s : State) (p : Nat) (f : Port → Port) : (s.modPort p f).mem = s.mem := rfl
@[simp] theorem State.modPort_now (s : State) (p : Nat) (f : Port → Port) : (s.modPort p f).now = s.now := rfl
@[simp] theorem State.modPort_free (s : State) (p : Nat) (f : Port → Port) : (s.modPort p f).free = s.free := rfl
@[simp] theorem State.modPort_sel (s : State) (p : Nat) (f : Port → Port) : (s.modPort p f).sel = s.sel := rfl
@[simp] theorem State.modPort_resp (s : State) (p : Nat) (f : Port → Port) : (s.modPort p f).resp = s.resp := rfl
@[simp] theorem State.modPort_sched (s : State) (p : Nat) (f : Port → Port) : (s.modPort p f).sched = s.sched := rfl
@[simp] theorem State.modPort_chan (s : State) (p : Nat) (f : Port → Port) (k' : Nat) : (s.modPort p f).chan k' = s.chan k' := rfl
@[simp] theorem State.modPort_handle (s : State) (p : Nat) (f : Port → Port) (k' : Nat) : (s.modPort p f).handle k' = s.handle k' := rfl
@[simp] theorem State.modPort_byte (s : State) (p : Nat) (f : Port → Port) (a' : Nat) : (s.modPort p f).byte? a' = s.byte? a' := rfl

@[simp] theorem State.setMem_cfg (s : State) (m : Memory) : (s.setMem m).cfg = s.cfg := rfl
@[simp] theorem State.setMem_chans (s : State) (m : Memory) : (s.setMem m).chans = s.chans := rfl
@[simp] theorem State.setMem_handles (s : State) (m : Memory) : (s.setMem m).handles = s.handles := rfl
@[simp] theorem State.setMem_ports (s : State) (m : Memory) : (s.setMem m).ports = s.ports := rfl
@[simp] theorem State.setMem_mem (s : State) (m : Memory) : (s.setMem m).mem = m := rfl
@[simp] theorem State.setMem_now (s : State) (m : Memory) : (s.setMem m).now = s.now := rfl
@[simp] theorem State.setMem_free (s : State) (m : Memory) : (s.setMem m).free = s.free := rfl
@[simp] theorem State.setMem_sel (s : State) (m : Memory) : (s.setMem m).sel = s.sel := rfl
@[simp] theorem State.setMem_resp (s : State) (m : Memory) : (s.setMem m).resp = s.resp := rfl
@[simp] theorem State.setMem_sched (s : State) (m : Memory) : (s.setMem m).sched = s.sched := rfl
@[simp] theorem State.setMem_chan (s : State) (m : Memory) (k' : Nat) : (s.setMem m).chan k' = s.chan k' := rfl
@[simp] theorem State.setMem_handle (s : State) (m : Memory) (k' : Nat) : (s.setMem m).handle k' = s.handle k' := rfl
@[simp] theorem State.setMem_port (s : State) (m : Memory) (k' : Nat) : (s.setMem m).port k' = s.port k' := rfl

@[simp] theorem State.setNow_cfg (s : State) (t : Nat) : (s.setNow t).cfg = s.cfg := rfl
@[simp] theorem State.setNow_chans (s : State) (t : Nat) : (s.setNow t).chans = s.chans := rfl
@[simp] theorem State.setNow_handles (s : State) (t : Nat) : (s.setNow t).handles = s.handles := rfl
@[simp] theorem State.setNow_ports (s : State) (t : Nat) : (s.setNow t).ports = s.ports := rfl
@[simp] theorem State.setNow_mem (s : State) (t : Nat) : (s.setNow t).mem = s.mem := rfl
@[simp] theorem State.setNow_now (s : State) (t : Nat) : (s.setNow t).now = t := rfl
@[simp] theorem State.setNow_free (s : State) (t : Nat) : (s.setNow t).free = s.free := rfl
@[simp] theorem State.setNow_sel (s : State) (t : Nat) : (s.setNow t).sel = s.sel := rfl
@[simp] theorem State.setNow_resp (s : State) (t : Nat) : (s.setNow t).resp = s.resp := rfl
@[simp] theorem State.setNow_sched (s : State) (t : Nat) : (s.setNow t).sched = s.sched := rfl
@[simp] theorem State.setNow_chan (s : State) (t : Nat) (k' : Nat) : (s.setNow t).chan k' = s.chan k' := rfl
@[simp] theorem State.setNow_handle (s : State) (t : Nat) (k' : Nat) : (s.setNow t).handle k' = s.handle k' := rfl
@[simp] theorem State.setNow_port (s : State) (t : Nat) (k' : Nat) : (s.setNow t).port k' = s.port k' := rfl
@[simp] theorem State.setNow_byte (s : State) (t : Nat) (a' : Nat) : (s.setNow t).byte? a' = s.byte? a' := rfl

@[simp] theorem State.addFree_cfg (s : State) (k : Nat) : (s.addFree k).cfg = s.cfg := rfl
@[simp] theorem State.addFree_chans (s : State) (k : Nat) : (s.addFree k).chans = s.chans := rfl
@[simp] theorem State.addFree_handles (s : State) (k : Nat) : (s.addFree k).handles = s.handles := rfl
@[simp] theorem State.addFree_ports (s : State) (k : Nat) : (s.addFree k).ports = s.ports := rfl
@[simp] theorem State.addFree_mem (s : State) (k : Nat) : (s.addFree k).mem = s.mem := rfl
@[simp] theorem State.addFree_now (s : State) (k : Nat) : (s.addFree k).now = s.now := rfl
@[simp] theorem State.addFree_free (s : State) (k : Nat) : (s.addFree k).free = s.free + k := rfl
@[simp] theorem State.addFree_sel (s : State) (k : Nat) : (s.addFree k).sel = s.sel := rfl
@[simp] theorem State.addFree_resp (s : State) (k : Nat) : (s.addFree k).resp = s.resp := rfl
@[simp] theorem State.addFree_sched (s : State) (k : Nat) : (s.addFree k).sched = s.sched := rfl
@[simp] theorem State.addFree_chan (s : State) (k : Nat) (k' : Nat) : (s.addFree k).chan k' = s.chan k' := rfl
@[simp] theorem State.addFree_handle (s : State) (k : Nat) (k' : Nat) : (s.addFree k).handle k' = s.handle k' := rfl
@[simp] theorem State.addFree_port (s : State) (k : Nat) (k' : Nat) : (s.addFree k).port k' = s.port k' := rfl
@[simp] theorem State.addFree_byte (s : State) (k : Nat) (a' : Nat) : (s.addFree k).byte? a' = s.byte? a' := rfl

@[simp] theorem State.setSel_cfg (s : State) (c : Nat) : (s.setSel c).cfg = s.cfg := rfl
@[simp] theorem State.setSel_chans (s : State) (c : Nat) : (s.setSel c).chans = s.chans := rfl
@[simp] theorem State.setSel_handles (s : State) (c : Nat) : (s.setSel c).handles = s.handles := rfl
@[simp] theorem State.setSel_ports (s : State) (c : Nat) : (s.setSel c).ports = s.ports := rfl
@[simp] theorem State.setSel_mem (s : State) (c : Nat) : (s.setSel c).mem = s.mem := rfl
@[simp] theorem State.setSel_now (s : State) (c : Nat) : (s.setSel c).now = s.now := rfl
@[simp] theorem State.setSel_free (s : State) (c : Nat) : (s.setSel c).free = s.free := rfl
@[simp] theorem State.setSel_sel (s : State) (c : Nat) : (s.setSel c).sel = c := rfl
@[simp] theorem State.setSel_resp (s : State) (c : Nat) : (s.setSel c).resp = s.resp := rfl
@[simp] theorem State.setSel_sched (s : State) (c : Nat) : (s.setSel c).sched = s.sched := rfl
@[simp] theorem State.setSel_chan (s : State) (c : Nat) (k' : Nat) : (s.setSel c).chan k' = s.chan k' := rfl
@[simp] theorem State.setSel_handle (s : State) (c : Nat) (k' : Nat) : (s.setSel c).handle k' = s.handle k' := rfl
@[simp] theorem State.setSel_port (s : State) (c : Nat) (k' : Nat) : (s.setSel c).port k' = s.port k' := rfl
@[simp] theorem State.setSel_byte (s : State) (c : Nat) (a' : Nat) : (s.setSel c).byte? a' = s.byte? a' := rfl

@[simp] theorem State.setResp_cfg (s : State) (r : BusResponse) : (s.setResp r).cfg = s.cfg := rfl
@[simp] theorem State.setResp_chans (s : State) (r : BusResponse) : (s.setResp r).chans = s.chans := rfl
@[simp] theorem State.setResp_handles (s : State) (r : BusResponse) : (s.setResp r).handles = s.handles := rfl
@[simp] theorem State.setResp_ports (s : State) (r : BusResponse) : (s.setResp r).ports = s.ports := rfl
@[simp] theorem State.setResp_mem (s : State) (r : BusResponse) : (s.setResp r).mem = s.mem := rfl
@[simp] theorem State.setResp_now (s : State) (r : BusResponse) : (s.setResp r).now = s.now := rfl
@[simp] theorem State.setResp_free (s : State) (r : BusResponse) : (s.setResp r).free = s.free := rfl
@[simp] theorem State.setResp_sel (s : State) (r : BusResponse) : (s.setResp r).sel = s.sel := rfl
@[simp] theorem State.setResp_resp (s : State) (r : BusResponse) : (s.setResp r).resp = r := rfl
@[simp] theorem State.setResp_sched (s : State) (r : BusResponse) : (s.setResp r).sched = s.sched := rfl
@[simp] theorem State.setResp_chan (s : State) (r : BusResponse) (k' : Nat) : (s.setResp r).chan k' = s.chan k' := rfl
@[simp] theorem State.setResp_handle (s : State) (r : BusResponse) (k' : Nat) : (s.setResp r).handle k' = s.handle k' := rfl
@[simp] theorem State.setResp_port (s : State) (r : BusResponse) (k' : Nat) : (s.setResp r).port k' = s.port k' := rfl
@[simp] theorem State.setResp_byte (s : State) (r : BusResponse) (a' : Nat) : (s.setResp r).byte? a' = s.byte? a' := rfl

@[simp] theorem State.setSched_cfg (s : State) (l : List Event) : (s.setSched l).cfg = s.cfg := rfl
@[simp] theorem State.setSched_chans (s : State) (l : List Event) : (s.setSched l).chans = s.chans := rfl
@[simp] theorem State.setSched_handles (s : State) (l : List Event) : (s.setSched l).handles = s.handles := rfl
@[simp] theorem State.setSched_ports (s : State) (l : List Event) : (s.setSched l).ports = s.ports := rfl
@[simp] theorem State.setSched_mem (s : State) (l : List Event) : (s.setSched l).mem = s.mem := rfl
@[simp] theorem State.setSched_now (s : State) (l : List Event) : (s.setSched l).now = s.now := rfl
@[simp] theorem State.setSched_free (s : State) (l : List Event) : (s.setSched l).free = s.free := rfl
@[simp] theorem State.setSched_sel (s : State) (l : List Event) : (s.setSched l).sel = s.sel := rfl
@[simp] theorem State.setSched_resp (s : State) (l : List Event) : (s.setSched l).resp = s.resp := rfl
@[simp] theorem State.setSched_sched (s : State) (l : List Event) : (s.setSched l).sched = l := rfl
@[simp] theorem State.setSched_chan (s : State) (l : List Event) (k' : Nat) : (s.setSched l).chan k' = s.chan k' := rfl
@[simp] theorem State.setSched_handle (s : State) (l : List Event) (k' : Nat) : (s.setSched l).handle k' = s.handle k' := rfl
@[simp] theorem State.setSched_port (s : State) (l : List Event) (k' : Nat) : (s.setSched l).port k' = s.port k' := rfl
@[simp] theorem State.setSched_byte (s : State) (l : List Event) (a' : Nat) : (s.setSched l).byte? a' = s.byte? a' := rfl

/-- Updating a channel and reading it back. -/
theorem State.chan_modChan_self {s : State} {c : Nat} (f : Chan → Chan) (h : c < s.chans.length) :
    (s.modChan c f).chan c = f (s.chan c) := by
  simp [State.chan, h]

/-- Updating a channel leaves every other one. -/
theorem State.chan_modChan_ne (s : State) {c c' : Nat} (f : Chan → Chan) (h : c' ≠ c) :
    (s.modChan c f).chan c' = s.chan c' := by
  simp [State.chan, List.getD_eq_getElem?_getD, h.symm]

/-- Updating a handle slot and reading it back. -/
theorem State.handle_modHandle_self {s : State} {h : Nat} (f : Handle → Handle) (hh : h < s.handles.length) :
    (s.modHandle h f).handle h = f (s.handle h) := by
  simp [State.handle, hh]

/-- Updating a handle slot leaves every other one. -/
theorem State.handle_modHandle_ne (s : State) {h h' : Nat} (f : Handle → Handle) (hh : h' ≠ h) :
    (s.modHandle h f).handle h' = s.handle h' := by
  simp [State.handle, List.getD_eq_getElem?_getD, hh.symm]

/-- Updating a port and reading it back. -/
theorem State.port_modPort_self {s : State} {p : Nat} (f : Port → Port) (h : p < s.ports.length) :
    (s.modPort p f).port p = f (s.port p) := by
  simp [State.port, h]

/-- Updating a port leaves every other one. -/
theorem State.port_modPort_ne (s : State) {p p' : Nat} (f : Port → Port) (h : p' ≠ p) :
    (s.modPort p f).port p' = s.port p' := by
  simp [State.port, List.getD_eq_getElem?_getD, h.symm]

end Sys2Proof.Machine
end

