-- ==== Sys2Proof/Laws/Ops.lean ====
section
/-! SUPPORT. For each shared operation, once, everything it can do. -/

namespace Sys2Proof.Machine

open Sys2Proof.Safety

/-- Updating one channel leaves everything else. -/
theorem State.othersSame_modChan (s : State) (c : Nat) (f : Chan → Chan) : OthersSame s (s.modChan c f) c :=
  ⟨rfl, rfl, rfl, rfl, rfl, rfl, by simp, fun _ h => State.chan_modChan_ne s f h⟩

theorem othersSame_refl (s : State) (c : Nat) : OthersSame s s c :=
  ⟨rfl, rfl, rfl, rfl, rfl, rfl, rfl, fun _ _ => rfl⟩

theorem othersSame_trans {s t u : State} {c : Nat} (h : OthersSame s t c) (g : OthersSame t u c) :
    OthersSame s u c := by
  obtain ⟨h1, h2, h3, h4, h5, h6, h7, h8⟩ := h
  obtain ⟨g1, g2, g3, g4, g5, g6, g7, g8⟩ := g
  exact ⟨g1.trans h1, g2.trans h2, g3.trans h3, g4.trans h4, g5.trans h5, g6.trans h6, g7.trans h7,
    fun c' hc => (g8 c' hc).trans (h8 c' hc)⟩

/-- Taking an error (R213): the codes go to the channel, nothing else changes. -/
theorem State.raise_spec {s : State} {c : Nat} (e : CmdError) (h : c < s.chans.length) :
    EndsErr s (s.raise c e) c (s.chan c) e.errCode e.sub ∧ PortsSame s (s.raise c e) :=
  ⟨⟨State.othersSame_modChan s c _, State.chan_modChan_self _ h, fun _ => rfl⟩, rfl⟩

/-- The success end (R214): the output goes to RXBUF, its length to RXLEN, nothing else changes. -/
theorem State.complete_spec {s : State} {c : Nat} (out : Bytes) (h : c < s.chans.length) :
    EndsOk s (s.complete c out) c (s.chan c) out ∧ PortsSame s (s.complete c out) := by
  refine ⟨⟨State.othersSame_modChan s c _, State.chan_modChan_self _ h, fun k b hk => ?_, fun a ha => ?_⟩, rfl⟩
  · have := Memory.read?_writeBytes_in s.mem (rxAddr c 0) out hk
    simpa [State.complete, State.byte?, rxAddr, chanBase] using this
  · exact Memory.read?_writeBytes_out _ _ _ ha

/-- An atomic command's end (R215): RESULT and the success end on the selected channel. -/
theorem State.finish_spec {s : State} (v : Bool) (out : Bytes) (h : s.sel < s.chans.length) :
    EndsOk s (s.finish v out) s.sel { s.chan s.sel with result := v } out ∧ PortsSame s (s.finish v out) := by
  have h' : s.sel < (s.modChan s.sel (Chan.setResult v)).chans.length := by simpa using h
  obtain ⟨⟨ho, hc, hin, hout⟩, hp⟩ := State.complete_spec (s := s.modChan s.sel (Chan.setResult v)) out h'
  refine ⟨⟨othersSame_trans (State.othersSame_modChan _ _ _) ho, ?_, hin, hout⟩, hp⟩
  rw [State.finish, hc, State.chan_modChan_self _ h]
  rfl

/-- The acceptance checks (R82 steps 3 to 6): the first that fails, or none. -/
theorem acceptError_none_iff (p : Config.Params) (o : Operands) (need : Needs) :
    acceptError p o need = none ↔
      o.h < p.nhandle ∧ o.n ≤ p.bufBytes ∧ need.fits p.bufBytes o = true
        ∧ (need.port = true → o.port < p.nport)
        ∧ (need.eol = true → 1 ≤ o.eolLen ∧ o.eolLen ≤ Config.seqMax) := by
  unfold acceptError
  split_ifs with h1 h2 h3 h4
  · simp; omega
  · rcases h2 with h2 | h2
    · simp; omega
    · simp [h2]
  · simp only [false_iff]
    rintro ⟨-, -, -, hp, -⟩
    have := hp h3.1
    omega
  · obtain ⟨he, hl⟩ := h4
    simp [he]
    omega
  · simp only [true_iff]
    refine ⟨by omega, by omega, ?_, fun hp => ?_, fun he => ?_⟩
    · simpa using not_or.1 h2 |>.2
    · by_contra hc
      exact h3 ⟨hp, by omega⟩
    · have hl : ¬(o.eolLen = 0 ∨ Config.seqMax < o.eolLen) := fun hc => h4 ⟨he, hc⟩
      omega

/-- Everything the common part of a meaning can do: the first failing check's error, or the command. -/
theorem State.accepted_cases (s : State) (h : Nat) (need : Needs) (run : Operands → State → State) :
    (∃ e, acceptError s.cfg (s.operands h) need = some e ∧ s.accepted h need run = s.raise s.sel e)
      ∨ (acceptError s.cfg (s.operands h) need = none
        ∧ s.accepted h need run = run (s.operands h) (s.addFree (s.operands h).n)) := by
  unfold State.accepted
  split
  · rename_i e he
    exact .inl ⟨e, he, rfl⟩
  · rename_i he
    exact .inr ⟨he, rfl⟩

/-- The common part of a meaning where every check holds. -/
theorem State.accepted_ok {s : State} {h : Nat} {need : Needs} (run : Operands → State → State) (hr : Ready s h)
    (hf : need.fits s.cfg.bufBytes (s.operands h) = true) (hp : need.port = true → PortOk s h)
    (he : need.eol = true → MarkerOk s h) :
    s.accepted h need run = run (s.operands h) (s.addFree (s.operands h).n) := by
  rw [State.accepted, (acceptError_none_iff _ _ _).2 ⟨hr.2.1, hr.2.2, hf, hp, he⟩]

/-- The operands of R67, field by field. -/
@[simp] theorem State.operands_n (s : State) (h : Nat) : (s.operands h).n = (s.chan s.sel).txlen.toNat := rfl
@[simp] theorem State.operands_tx (s : State) (h : Nat) : (s.operands h).tx = operand s := rfl
@[simp] theorem State.operands_h (s : State) (h : Nat) : (s.operands h).h = h := rfl
@[simp] theorem State.operands_sumEn (s : State) (h : Nat) : (s.operands h).sumEn = (s.handle h).sumEn := rfl
@[simp] theorem State.operands_crcEn (s : State) (h : Nat) : (s.operands h).crcEn = (s.handle h).crcEn := rfl
@[simp] theorem State.operands_addrEn (s : State) (h : Nat) : (s.operands h).addrEn = (s.handle h).addrEn := rfl
@[simp] theorem State.operands_addr (s : State) (h : Nat) : (s.operands h).addr = (s.handle h).addr := rfl
@[simp] theorem State.operands_port (s : State) (h : Nat) : (s.operands h).port = (s.handle h).port.toNat := rfl
@[simp] theorem State.operands_eolLen (s : State) (h : Nat) : (s.operands h).eolLen = (s.handle h).eolLen.toNat := rfl
@[simp] theorem State.operands_eolSeq (s : State) (h : Nat) : (s.operands h).eolSeq = marker s h := rfl
@[simp] theorem State.operands_delim (s : State) (h : Nat) : (s.operands h).delim = delimiter s := rfl
@[simp] theorem State.operands_dlen (s : State) (h : Nat) : (s.operands h).dlen = (s.chan s.sel).dlen.toNat := rfl
@[simp] theorem State.operands_exactLen (s : State) (h : Nat) :
    (s.operands h).exactLen = (s.chan s.sel).arg0.toNat := rfl

/-- The operand has TXLEN bytes. -/
@[simp] theorem operand_length (s : State) : (operand s).length = (s.chan s.sel).txlen.toNat := by
  simp [operand, State.txBytes]

/-- Entering WAIT_LOCK (R135): the snapshot and the phase on the channel, the channel among the port's waiters. -/
theorem State.enterWaitLock_spec {s : State} {c : Nat} (o : Op) (h : c < s.chans.length)
    (hp : o.port < s.ports.length) :
    OthersSame s (s.enterWaitLock c o) c
      ∧ (s.enterWaitLock c o).chan c = { s.chan c with op := o, phase := .waitLock }
      ∧ PortBecomes s (s.enterWaitLock c o) o.port
          { s.port o.port with waiters := waitersAdd (s.port o.port).waiters c }
      ∧ MemSame s (s.enterWaitLock c o) := by
  refine ⟨⟨rfl, rfl, rfl, rfl, rfl, rfl, by simp [State.enterWaitLock], fun c' hc => ?_⟩, ?_, ⟨?_, ?_, ?_⟩, fun _ => rfl⟩
  · exact State.chan_modChan_ne s _ hc
  · exact State.chan_modChan_self _ h
  · simp [State.enterWaitLock]
  · exact State.port_modPort_self _ (by simpa using hp)
  · intro p' hp'
    exact State.port_modPort_ne _ _ hp'

/-- A channel is among the waiters after it was added. -/
theorem mem_waitersAdd (ws : List Nat) (c x : Nat) : x ∈ waitersAdd ws c ↔ x = c ∨ x ∈ ws := by
  induction ws with
  | nil => simp [waitersAdd]
  | cons w ws ih =>
    simp only [waitersAdd]
    split
    · simp
    · split
      · rename_i _ h
        subst h
        simp
      · simp only [List.mem_cons, ih]
        tauto

/-- The waiters stay strictly rising. -/
theorem pairwise_waitersAdd {ws : List Nat} (c : Nat) (h : ws.Pairwise (· < ·)) :
    (waitersAdd ws c).Pairwise (· < ·) := by
  induction ws with
  | nil => simp [waitersAdd]
  | cons w ws ih =>
    obtain ⟨hw, hs⟩ := List.pairwise_cons.1 h
    simp only [waitersAdd]
    split
    · rename_i hlt
      refine List.pairwise_cons.2 ⟨fun x hx => ?_, h⟩
      rcases List.mem_cons.1 hx with rfl | hx
      · exact hlt
      · exact lt_trans hlt (hw x hx)
    · split
      · exact h
      · rename_i h1 h2
        refine List.pairwise_cons.2 ⟨fun x hx => ?_, ih hs⟩
        rcases (mem_waitersAdd ws c x).1 hx with rfl | hx
        · omega
        · exact hw x hx

theorem mem_waitersRemove (ws : List Nat) (c x : Nat) : x ∈ waitersRemove ws c ↔ x ∈ ws ∧ x ≠ c := by
  simp [waitersRemove]

theorem pairwise_waitersRemove {ws : List Nat} (c : Nat) (h : ws.Pairwise (· < ·)) :
    (waitersRemove ws c).Pairwise (· < ·) := h.filter _

end Sys2Proof.Machine
end

