-- ==== Sys2Proof/Laws/Exchange.lean ====
section
/-! SUPPORT. For each step of an exchange, once, everything it can do. -/

namespace Sys2Proof.Machine

open Sys2Proof.Safety

/-- The quiet deadline is due exactly where silence has elapsed (R144 (a)). -/
theorem Chan.quietDue_iff (s : State) (ch : Chan) : ch.quietDue s.now = true ↔ QuietElapsed s ch := by
  have hm : ch.op.mode.hasQuiet = true ↔ ch.op.mode = .q ∨ ch.op.mode = .n := by cases ch.op.mode <;> decide
  unfold Chan.quietDue Chan.quietDeadline QuietElapsed
  rw [← hm, ← and_assoc]
  split_ifs with h
  · cases ch.lastRx <;> simp [h]
  · simp [h]

/-- The timeout is due exactly where it has elapsed (R144 (b)). -/
theorem Chan.timeoutDue_iff (s : State) (ch : Chan) : ch.timeoutDue s.now = true ↔ TimeoutElapsed s ch := by
  unfold Chan.timeoutDue Chan.timeoutDeadline TimeoutElapsed
  cases ch.line.timeout <;> simp

/-- A deadline step is due exactly where the rules say so (R142, R143, R144). -/
theorem Chan.due_iff (s : State) (ch : Chan) : ch.due s.now = true ↔ DeadlineDue s ch := by
  unfold Chan.due DeadlineDue
  cases h : ch.phase <;> simp [Chan.quietDue_iff, Chan.timeoutDue_iff]

/-- Everything an octet can do (R138, R139): the owner's due deadline step first, the octet kept; else it is taken in
READ; else it is lost. -/
theorem State.rxStep_cases (s : State) (p : Nat) (b : Byte) (writeOk : Bool) :
    (∃ c, (s.port p).owner = some c ∧ DeadlineDue s (s.chan c)
        ∧ s.rxStep p b writeOk = (s.deadlineStep c writeOk, true))
      ∨ (∃ c, (s.port p).owner = some c ∧ ¬DeadlineDue s (s.chan c) ∧ (s.chan c).phase = .read
        ∧ (s.chan c).watch = true ∧ s.rxStep p b writeOk = (s.takeOctet c b, false))
      ∨ (∀ c, (s.port p).owner = some c →
          ((s.chan c).phase ≠ .read ∨ (s.chan c).watch = false) ∧ ¬DeadlineDue s (s.chan c))
        ∧ s.rxStep p b writeOk = (s, false) := by
  unfold State.rxStep
  cases ho : (s.port p).owner with
  | none => exact .inr (.inr ⟨nofun, rfl⟩)
  | some c =>
    by_cases hd : (s.chan c).due s.now = true
    · exact .inl ⟨c, rfl, (Chan.due_iff _ _).1 hd, by simp only [hd, if_true]⟩
    · have hn : ¬DeadlineDue s (s.chan c) := fun h => hd ((Chan.due_iff _ _).2 h)
      by_cases hl : (s.chan c).phase ≠ .read ∨ (s.chan c).watch = false
      · refine .inr (.inr ⟨?_, by simp only [hd, hl, if_true]; rfl⟩)
        rintro _ ⟨⟩
        exact ⟨hl, hn⟩
      · obtain ⟨hr, hw⟩ := not_or.1 hl
        refine .inr (.inl ⟨c, rfl, hn, by simpa using hr, by simpa using hw, ?_⟩)
        simp only [hd, hl, if_false]
        rfl

/-- The state in the middle of the end of an exchange: the port released, the watcher removed. -/
theorem State.endExchange_mid {s : State} {c : Nat} (h : c < s.chans.length)
    (hp : (s.chan c).op.port < s.ports.length) :
    let m := (s.modPort (s.chan c).op.port Port.release).modChan c
      fun ch => { ch with watch := false, phase := .idle, result := false }
    OthersSame s m c ∧ m.chan c = { s.chan c with watch := false, phase := .idle, result := false }
      ∧ PortReleased s m (s.chan c).op.port ∧ MemSame s m ∧ c < m.chans.length := by
  refine ⟨⟨rfl, rfl, rfl, rfl, rfl, rfl, by simp, fun c' hc => ?_⟩, ?_, ⟨by simp, ?_, fun p' hp' => ?_⟩,
    fun _ => rfl, by simpa using h⟩
  · rw [State.chan_modChan_ne _ _ hc]; rfl
  · rw [State.chan_modChan_self _ (by simpa using h)]; rfl
  · exact State.port_modPort_self _ hp
  · exact State.port_modPort_ne _ _ hp'

/-- An exchange that ends with an error (R145, R213). -/
theorem State.endExchange_error {s : State} {c : Nat} (e : CmdError) (h : c < s.chans.length)
    (hp : (s.chan c).op.port < s.ports.length) :
    EndsErr s (s.endExchange c (.error e)) c { s.chan c with watch := false } e.errCode e.sub
      ∧ PortReleased s (s.endExchange c (.error e)) (s.chan c).op.port := by
  obtain ⟨ho, hc, hr, hm, hl⟩ := State.endExchange_mid h hp
  obtain ⟨⟨ho', hc', hm'⟩, hp'⟩ := State.raise_spec e hl
  refine ⟨⟨othersSame_trans ho ho', ?_, fun a => (hm' a).trans (hm a)⟩, ?_⟩
  · rw [State.endExchange, hc', hc]
  · exact hr

/-- A transceiver command's exchange that ends with success (R145, R214). -/
theorem State.endExchange_plain {s : State} {c : Nat} (out : Bytes) (h : c < s.chans.length)
    (hp : (s.chan c).op.port < s.ports.length) (hk : (s.chan c).op.reply = .plain) :
    EndsOk s (s.endExchange c (.ok out)) c { s.chan c with watch := false, result := false } out
      ∧ PortReleased s (s.endExchange c (.ok out)) (s.chan c).op.port := by
  obtain ⟨ho, hc, hr, hm, hl⟩ := State.endExchange_mid h hp
  obtain ⟨⟨ho', hc', hin, hout⟩, hp'⟩ := State.complete_spec out hl
  have he : s.endExchange c (.ok out) = ((s.modPort (s.chan c).op.port Port.release).modChan c
      fun ch => { ch with watch := false, phase := .idle, result := false }).complete c out := by
    simp only [State.endExchange, State.endReply, hc, hk]
  rw [he]
  refine ⟨⟨othersSame_trans ho ho', ?_, hin, fun a ha => (hout a ha).trans (hm a)⟩, hr⟩
  rw [hc', hc]

/-- A parse's end (43_framers.md R180): the record, or the error. -/
theorem State.endParse_ok {s : State} {c : Nat} (r : Rec) (h : c < s.chans.length) :
    EndsOk s (s.endParse c (.ok r)) c { s.chan c with res := r.res } r.body
      ∧ PortsSame s (s.endParse c (.ok r)) := by
  have h' : c < (s.modChan c (Chan.setRes r.res)).chans.length := by simpa using h
  obtain ⟨⟨ho, hc, hin, hout⟩, hp⟩ := State.complete_spec r.body h'
  refine ⟨⟨othersSame_trans (State.othersSame_modChan _ _ _) ho, ?_, hin, hout⟩, hp⟩
  rw [State.endParse, hc, State.chan_modChan_self _ h]
  rfl

/-- A request command's exchange that ends with success and whose reply parses (R145, 43_framers.md R185, R193). -/
theorem State.endExchange_parsed {s : State} {c : Nat} (out : Bytes) (r : Rec) (h : c < s.chans.length)
    (hp : (s.chan c).op.port < s.ports.length)
    (hk : (s.chan c).op.reply = .ascii
          ∧ ascParse (s.chan c).op.addr (s.chan c).op.addrEn (s.chan c).op.sumEn out = .ok r
        ∨ (s.chan c).op.reply = .binary ∧ rtuParse (s.chan c).op.addr (s.chan c).op.crcEn out = .ok r) :
    EndsOk s (s.endExchange c (.ok out)) c { s.chan c with watch := false, result := false, res := r.res } r.body
      ∧ PortReleased s (s.endExchange c (.ok out)) (s.chan c).op.port := by
  obtain ⟨ho, hc, hr, hm, hl⟩ := State.endExchange_mid h hp
  obtain ⟨⟨ho', hc', hin, hout⟩, hp'⟩ := State.endParse_ok r hl
  have he : s.endExchange c (.ok out) = ((s.modPort (s.chan c).op.port Port.release).modChan c
      fun ch => { ch with watch := false, phase := .idle, result := false }).endParse c (.ok r) := by
    rcases hk with ⟨hk, hr⟩ | ⟨hk, hr⟩ <;> simp only [State.endExchange, State.endReply, hc, hk, hr]
  rw [he]
  refine ⟨⟨othersSame_trans ho ho', ?_, hin, fun a ha => (hout a ha).trans (hm a)⟩, hr⟩
  rw [hc', hc]

/-- A request command's exchange that ends with success and whose reply does not parse (43_framers.md R194). -/
theorem State.endExchange_unparsed {s : State} {c : Nat} (out : Bytes) (e : CmdError) (h : c < s.chans.length)
    (hp : (s.chan c).op.port < s.ports.length)
    (hk : (s.chan c).op.reply = .ascii
          ∧ ascParse (s.chan c).op.addr (s.chan c).op.addrEn (s.chan c).op.sumEn out = .error e
        ∨ (s.chan c).op.reply = .binary ∧ rtuParse (s.chan c).op.addr (s.chan c).op.crcEn out = .error e) :
    EndsErr s (s.endExchange c (.ok out)) c { s.chan c with watch := false } e.errCode e.sub
      ∧ PortReleased s (s.endExchange c (.ok out)) (s.chan c).op.port := by
  obtain ⟨ho, hc, hr, hm, hl⟩ := State.endExchange_mid h hp
  obtain ⟨⟨ho', hc', hm'⟩, hp'⟩ := State.raise_spec e hl
  have he : s.endExchange c (.ok out) = ((s.modPort (s.chan c).op.port Port.release).modChan c
      fun ch => { ch with watch := false, phase := .idle, result := false }).raise c e := by
    rcases hk with ⟨hk, hr⟩ | ⟨hk, hr⟩ <;> simp only [State.endExchange, State.endReply, hc, hk, hr, State.endParse]
  rw [he]
  refine ⟨⟨othersSame_trans ho ho', ?_, fun a => (hm' a).trans (hm a)⟩, hr⟩
  rw [hc', hc]

/-- Everything the end of an exchange can do, in one form: the channel goes IDLE with an error, or with an output no
longer than the exchange's. -/
theorem State.endExchange_cases {s : State} {c : Nat} (r : Except CmdError Bytes) (h : c < s.chans.length)
    (hp : (s.chan c).op.port < s.ports.length) :
    PortReleased s (s.endExchange c r) (s.chan c).op.port ∧
      ((∃ e : CmdError, EndsErr s (s.endExchange c r) c { s.chan c with watch := false } e.errCode e.sub
          ∧ (s.endExchange c r).mem = s.mem)
        ∨ ∃ out body v, r = .ok out ∧ body.length ≤ out.length
          ∧ EndsOk s (s.endExchange c r) c { s.chan c with watch := false, result := false, res := v } body
          ∧ (s.endExchange c r).mem = s.mem.writeBytes (rxAddr c 0) body) := by
  cases r with
  | error e => exact ⟨(State.endExchange_error e h hp).2, .inl ⟨e, (State.endExchange_error e h hp).1, rfl⟩⟩
  | ok out =>
    have hop : (((s.modPort (s.chan c).op.port Port.release).modChan c
      fun ch => { ch with watch := false, phase := .idle, result := false }).chan c).op = (s.chan c).op := by
      rw [State.chan_modChan_self _ (by simpa using h)]; rfl
    cases hk : (s.chan c).op.reply with
    | plain =>
      obtain ⟨h1, h2⟩ := State.endExchange_plain out h hp hk
      refine ⟨h2, .inr ⟨out, out, (s.chan c).res, rfl, le_rfl, h1, ?_⟩⟩
      simp only [State.endExchange, State.endReply, hop, hk]
      rfl
    | ascii =>
      cases hq : ascParse (s.chan c).op.addr (s.chan c).op.addrEn (s.chan c).op.sumEn out with
      | error e =>
        obtain ⟨h1, h2⟩ := State.endExchange_unparsed out e h hp (.inl ⟨hk, hq⟩)
        refine ⟨h2, .inl ⟨e, h1, ?_⟩⟩
        simp only [State.endExchange, State.endReply, hop, hk, hq]
        rfl
      | ok r =>
        obtain ⟨h1, h2⟩ := State.endExchange_parsed out r h hp (.inl ⟨hk, hq⟩)
        refine ⟨h2, .inr ⟨out, r.body, r.res, rfl, ascParse_length hq, h1, ?_⟩⟩
        simp only [State.endExchange, State.endReply, hop, hk, hq]
        rfl
    | binary =>
      cases hq : rtuParse (s.chan c).op.addr (s.chan c).op.crcEn out with
      | error e =>
        obtain ⟨h1, h2⟩ := State.endExchange_unparsed out e h hp (.inr ⟨hk, hq⟩)
        refine ⟨h2, .inl ⟨e, h1, ?_⟩⟩
        simp only [State.endExchange, State.endReply, hop, hk, hq]
        rfl
      | ok r =>
        obtain ⟨h1, h2⟩ := State.endExchange_parsed out r h hp (.inr ⟨hk, hq⟩)
        refine ⟨h2, .inr ⟨out, r.body, r.res, rfl, rtuParse_length hq, h1, ?_⟩⟩
        simp only [State.endExchange, State.endReply, hop, hk, hq]
        rfl

end Sys2Proof.Machine
end

