-- ==== Sys2Proof/Laws/PerInstr.lean ====
section
/-! SUPPORT. Statements made per instruction: the fields of every command's word (30_encoding.md R80, R84). -/

namespace Sys2Proof.Laws

/-- The three fields of a word put together from its parts. -/
theorem append_fields (b o : BitVec 8) :
    (0#16 ++ b ++ o).extractLsb' 0 8 = o ∧ (0#16 ++ b ++ o).extractLsb' 8 8 = b
      ∧ (0#16 ++ b ++ o).extractLsb' 16 16 = 0#16 := by
  refine ⟨?_, ?_, ?_⟩ <;> refine BitVec.eq_of_getLsbD_eq fun j hj => ?_ <;>
    rw [BitVec.getLsbD_extractLsb', BitVec.getLsbD_append, BitVec.getLsbD_append]
  · simp [hj]
  · simp [hj]
  · simp [show ¬16 + j < 8 by omega, show ¬16 + j - 8 < 8 by omega]

/-- The three fields of an encoded word (R80). -/
theorem encode_fields (i : Instr) (h : i.wf = true) :
    (encode i).extractLsb' 0 8 = i.opc ∧ ((encode i).extractLsb' 8 8).toNat = i.handle
      ∧ (encode i).extractLsb' 16 16 = 0#16 := by
  have hh : i.handle < 256 := of_decide_eq_true h
  obtain ⟨h0, h1, h2⟩ := append_fields (BitVec.ofNat 8 i.handle) i.opc
  refine ⟨h0, (congrArg BitVec.toNat h1).trans ?_, h2⟩
  simp
  omega

namespace EncodedFields

/-- The word of a well-formed command holds an opcode of the opcode map in 7:0, the handle in 15:8 and 0 above. -/
def Statement (i : Instr) : Prop :=
  i.wf = true →
    (encode i).extractLsb' 0 8 = i.opc ∧ ((encode i).extractLsb' 8 8).toNat = i.handle
      ∧ (encode i).extractLsb' 16 16 = 0#16 ∧ (opcodeTable.lookup i.opc).isSome = true

/-- What is left of a command's statement: its opcode is in the opcode map. -/
theorem Statement.of_row (i : Instr) (hr : (opcodeTable.lookup i.opc).isSome = true) : Statement i := fun h =>
  ⟨(encode_fields i h).1, (encode_fields i h).2.1, (encode_fields i h).2.2, hr⟩

theorem sumAdd (h : Nat) : Statement (.sumAdd h) := Statement.of_row _ rfl
theorem sumChk (h : Nat) : Statement (.sumChk h) := Statement.of_row _ rfl
theorem sumStrip (h : Nat) : Statement (.sumStrip h) := Statement.of_row _ rfl
theorem crcAdd (h : Nat) : Statement (.crcAdd h) := Statement.of_row _ rfl
theorem crcChk (h : Nat) : Statement (.crcChk h) := Statement.of_row _ rfl
theorem crcStrip (h : Nat) : Statement (.crcStrip h) := Statement.of_row _ rfl
theorem wr (h : Nat) : Statement (.wr h) := Statement.of_row _ rfl
theorem xq (h : Nat) : Statement (.xq h) := Statement.of_row _ rfl
theorem xn (h : Nat) : Statement (.xn h) := Statement.of_row _ rfl
theorem xd (h : Nat) : Statement (.xd h) := Statement.of_row _ rfl
theorem xl (h : Nat) : Statement (.xl h) := Statement.of_row _ rfl
theorem rq (h : Nat) : Statement (.rq h) := Statement.of_row _ rfl
theorem rn (h : Nat) : Statement (.rn h) := Statement.of_row _ rfl
theorem rd (h : Nat) : Statement (.rd h) := Statement.of_row _ rfl
theorem rl (h : Nat) : Statement (.rl h) := Statement.of_row _ rfl
theorem ascBuild (h : Nat) : Statement (.ascBuild h) := Statement.of_row _ rfl
theorem ascParse (h : Nat) : Statement (.ascParse h) := Statement.of_row _ rfl
theorem ascReq (h : Nat) : Statement (.ascReq h) := Statement.of_row _ rfl
theorem rtuBuild (h : Nat) : Statement (.rtuBuild h) := Statement.of_row _ rfl
theorem rtuParse (h : Nat) : Statement (.rtuParse h) := Statement.of_row _ rfl
theorem rtuReq (h : Nat) : Statement (.rtuReq h) := Statement.of_row _ rfl

end EncodedFields

end Sys2Proof.Laws
end

