-- ==== Sys2Proof/Laws/Phases.lean ====
section
/-! SUPPORT. For each step of an exchange's phases, once, everything it can do: entering READ, the grant, a deadline, an
octet. -/

namespace Sys2Proof.Machine

open Sys2Proof.Safety

/-- Channel `c`'s exchange ended in the step from `s` to `t`: the channel is IDLE and done with its watcher removed, its
port is closed and released with the waiters `ws`, and it records an error, or an output of at most `n` octets. -/
structure Ended (s t : State) (c : Nat) (ws : List Nat) (n : Nat) : Prop where
  others : OthersSame s t c
  ports : t.ports.length = s.ports.length ∧ ∀ p', p' ≠ (s.chan c).op.port → t.port p' = s.port p'
  port : (t.port (s.chan c).op.port).owner = none ∧ (t.port (s.chan c).op.port).opened = false
    ∧ (t.port (s.chan c).op.port).dir = .idle ∧ (t.port (s.chan c).op.port).waiters = ws
  phase : (t.chan c).phase = .idle
  busy : (t.chan c).busy = false
  done : (t.chan c).done = true
  watch : (t.chan c).watch = false
  result : (t.chan c).result = false
  op : (t.chan c).op = (s.chan c).op
  acc : (t.chan c).acc.length ≤ max (s.chan c).acc.length n
  fin : (∃ e : CmdError, (t.chan c).err = e.errCode ∧ (t.chan c).sub = e.sub ∧ (t.chan c).rxlen = 0#16
            ∧ (t.chan c).res = 0#8 ∧ t.mem = s.mem)
        ∨ ∃ out : Bytes, (t.chan c).err = 0#4 ∧ (t.chan c).sub = 0#8 ∧ (t.chan c).rxlen = BitVec.ofNat 16 out.length
            ∧ out.length ≤ n ∧ t.mem = s.mem.writeBytes (rxAddr c 0) out

/-- The end of an exchange ends it (R145). -/
theorem State.endExchange_ended {s : State} {c : Nat} (r : Except CmdError Bytes) (h : c < s.chans.length)
    (hp : (s.chan c).op.port < s.ports.length) (n : Nat) (hn : ∀ out, r = .ok out → out.length ≤ n) :
    Ended s (s.endExchange c r) c (s.port (s.chan c).op.port).waiters n := by
  obtain ⟨hr, ⟨e, ⟨ho, hc, -⟩, hm⟩ | ⟨out, body, v, rfl, hb, ⟨ho, hc, -, -⟩, hm⟩⟩ := State.endExchange_cases r h hp
  · refine ⟨ho, ⟨hr.1, hr.2.2⟩, ?_, ?_, ?_, ?_, ?_, ?_, ?_, ?_, .inl ⟨e, ?_, ?_, ?_, ?_, hm⟩⟩ <;> simp [hc, hr.2.1]
  · refine ⟨ho, ⟨hr.1, hr.2.2⟩, ?_, ?_, ?_, ?_, ?_, ?_, ?_, ?_, .inr ⟨body, ?_, ?_, ?_, hb.trans (hn _ rfl), hm⟩⟩ <;>
      simp [hc, hr.2.1]

/-- An exchange that ended after changes to its channel and its port alone. -/
theorem Ended.of_mid {s u t : State} {c n : Nat} {ws : List Nat} (h : Ended u t c ws n) (ho : OthersSame s u c)
    (hop : (u.chan c).op = (s.chan c).op) (hm : u.mem = s.mem) (ha : (u.chan c).acc.length ≤ (s.chan c).acc.length)
    (hl : u.ports.length = s.ports.length) (hp : ∀ p', p' ≠ (s.chan c).op.port → u.port p' = s.port p') :
    Ended s t c ws n := by
  obtain ⟨h1, ⟨h2, h4⟩, h3, h5, h6, h7, h8, h9, h10, h11, h12⟩ := h
  rw [hop] at h3 h4
  exact ⟨othersSame_trans ho h1, ⟨h2.trans hl, fun p' hp' => (h4 p' hp').trans (hp p' hp')⟩, h3, h5, h6, h7, h8, h9,
    h10.trans hop, h11.trans (max_le_max ha le_rfl), hm ▸ h12⟩

/-- Entering READ (R144): the receiver is on and the accumulator empty, or the exchange of 0 octets has ended. -/
theorem State.enterRead_cases {s : State} {c : Nat} (h : c < s.chans.length)
    (hp : (s.chan c).op.port < s.ports.length) (n : Nat) :
    (OthersSame s (s.enterRead c) c ∧ (s.enterRead c).chan c = readEntered s (s.chan c)
        ∧ PortBecomes s (s.enterRead c) (s.chan c).op.port { s.port (s.chan c).op.port with dir := .rx }
        ∧ (s.enterRead c).mem = s.mem)
      ∨ Ended s (s.enterRead c) c (s.port (s.chan c).op.port).waiters n := by
  generalize hu : (s.modPort (s.chan c).op.port fun pt => { pt with dir := .rx }).modChan c
    (fun ch => { ch with phase := .read, tRead := s.now, acc := [], lastRx := none }) = u
  have ho : OthersSame s u c := by
    subst hu
    exact ⟨rfl, rfl, rfl, rfl, rfl, rfl, by simp, fun c' hc' => State.chan_modChan_ne _ _ hc'⟩
  have hc : u.chan c = readEntered s (s.chan c) := by
    subst hu
    exact State.chan_modChan_self _ (by simpa using h)
  have hpt : PortBecomes s u (s.chan c).op.port { s.port (s.chan c).op.port with dir := .rx } := by
    subst hu
    exact ⟨by simp, State.port_modPort_self _ hp, fun p' hp' => State.port_modPort_ne _ _ hp'⟩
  have hm : u.mem = s.mem := by subst hu; rfl
  have he : s.enterRead c = if (s.chan c).op.mode = .n ∧ (s.chan c).op.n = 0 then u.endExchange c (.ok []) else u := by
    subst hu; rfl
  rw [he]
  split_ifs
  · right
    have hop : (u.chan c).op = (s.chan c).op := by rw [hc]; rfl
    have := State.endExchange_ended (s := u) (c := c) (.ok []) (ho.2.2.2.2.2.2.1 ▸ h) (by rw [hop, hpt.1]; exact hp) n
      (by rintro _ ⟨⟩; exact Nat.zero_le _)
    rw [hop, hpt.2.1] at this
    exact this.of_mid ho hop hm (by rw [hc]; exact Nat.zero_le _) hpt.1 hpt.2.2
  · exact .inl ⟨ho, hc, hpt, hm⟩

/-- What one step of the exchange of channel `c` did, other than an octet: it ended it, or it took it to the next
phase. -/
inductive PhaseStep (s t : State) (c : Nat) (ws : List Nat) : Prop where
  | ended (n : Nat) (hn : n ≤ (s.chan c).acc.length) (h : Ended s t c ws n)
  | write (l : Line) (k : Nat) (sent : List (Nat × Byte)) (ho : OthersSame s t c) (hm : t.mem = s.mem)
      (hc : t.chan c = { s.chan c with line := l, phase := .write, tEnd := s.now + k,
                                       watch := decide ((s.chan c).op.mode ≠ .w) })
      (hp : PortBecomes s t (s.chan c).op.port
        { s.port (s.chan c).op.port with waiters := ws, owner := some c, opened := true, applied := some l, dir := .tx,
                                         sent := sent })
  | settle (k : Nat) (ho : OthersSame s t c) (hm : t.mem = s.mem) (hf : (s.chan c).phase = .write)
      (hw : (s.chan c).op.mode = .w)
      (hc : t.chan c = { s.chan c with phase := .settle, tEnd := s.now + k }) (hp : t.ports = s.ports)
  | readOn (ho : OthersSame s t c) (hm : t.mem = s.mem) (hf : (s.chan c).phase = .write)
      (hw : (s.chan c).op.mode ≠ .w) (hc : t.chan c = readEntered s (s.chan c))
      (hp : PortBecomes s t (s.chan c).op.port { s.port (s.chan c).op.port with dir := .rx })
  | readFirst (l : Line) (ho : OthersSame s t c) (hm : t.mem = s.mem)
      (hc : t.chan c = readEntered s { s.chan c with line := l, watch := true })
      (hp : PortBecomes s t (s.chan c).op.port
        { s.port (s.chan c).op.port with waiters := ws, owner := some c, opened := true, applied := some l, dir := .rx })

/-- Everything the grant step can do (R141). -/
theorem State.grantStep_cases {s : State} {p c : Nat} (openOk applyOk : Bool) (h : c < s.chans.length)
    (hp : p < s.ports.length) (hop : (s.chan c).op.port = p) :
    PhaseStep s (s.grantStep p c openOk applyOk) c (waitersRemove (s.port p).waiters c)
      ∧ ((s.grantStep p c openOk applyOk).chan c).phase ≠ .settle := by
  subst hop
  generalize hl : lineSnapshot s.cfg (s.handle (s.chan c).op.h) = l
  generalize hw : waitersRemove (s.port (s.chan c).op.port).waiters c = ws
  generalize hu : (s.modPort (s.chan c).op.port fun pt =>
    { pt with waiters := waitersRemove pt.waiters c, owner := some c }).modChan c
    (fun ch => { ch with line := l }) = u
  have ho : OthersSame s u c := by
    subst hu
    exact ⟨rfl, rfl, rfl, rfl, rfl, rfl, by simp, fun c' hc' => State.chan_modChan_ne _ _ hc'⟩
  have hc : u.chan c = { s.chan c with line := l } := by
    subst hu
    exact State.chan_modChan_self _ (by simpa using h)
  have hpt : PortBecomes s u (s.chan c).op.port
      { s.port (s.chan c).op.port with waiters := ws, owner := some c } := by
    subst hu hw
    exact ⟨by simp, State.port_modPort_self _ hp, fun p' hp' => State.port_modPort_ne _ _ hp'⟩
  have hm : u.mem = s.mem := by subst hu; rfl
  have hops : (u.chan c).op = (s.chan c).op := by rw [hc]
  -- a failure of the grant
  have hfail : ∀ (v : State) (e : CmdError), v.chans = u.chans → OthersSame u v c → v.mem = u.mem →
      v.ports.length = u.ports.length → (v.port (s.chan c).op.port).waiters = ws →
      (∀ p', p' ≠ (s.chan c).op.port → v.port p' = u.port p') →
      Ended s (v.endExchange c (.error e)) c ws 0 := by
    intro v e h1 h2 h3 h4 h5 h7
    have hvc : v.chan c = u.chan c := by unfold State.chan; rw [h1]
    have := State.endExchange_ended (s := v) (c := c) (.error e) (by rw [h1, ho.2.2.2.2.2.2.1]; exact h)
      (by rw [hvc, hops, h4, hpt.1]; exact hp) 0 (by rintro _ ⟨⟩)
    rw [hvc, hops, h5] at this
    exact this.of_mid (othersSame_trans ho h2) (by rw [hvc, hops]) (h3.trans hm) (by rw [hvc, hc]) (h4.trans hpt.1)
      fun p' hp' => (h7 p' hp').trans (hpt.2.2 p' hp')
  have hport : ∀ f : Port → Port, (u.modPort (s.chan c).op.port f).port (s.chan c).op.port
      = f { s.port (s.chan c).op.port with waiters := ws, owner := some c } := by
    intro f
    rw [State.port_modPort_self _ (by rw [hpt.1]; exact hp), hpt.2.1]
  have hgs : s.grantStep (s.chan c).op.port c openOk applyOk =
      (match lineError l with
      | some e => u.endExchange c (.error e)
      | none =>
        if openOk = false then u.endExchange c (.error .openFailed)
        else
          if applyOk = false then
            (u.modPort (s.chan c).op.port fun pt => { pt with opened := true }).endExchange c (.error .applyFailed)
          else ((u.modPort (s.chan c).op.port fun pt => { pt with opened := true }).modPort (s.chan c).op.port
            fun pt => { pt with applied := some l }).beginExchange c) := by
    subst hu hl; rfl
  rw [hgs]
  have hidle : ∀ {t : State}, Ended s t c ws 0 → PhaseStep s t c ws ∧ (t.chan c).phase ≠ .settle := fun he =>
    ⟨.ended 0 (Nat.zero_le _) he, by rw [he.phase]; decide⟩
  split
  · exact hidle (hfail u _ rfl (othersSame_refl _ _) rfl rfl (by rw [hpt.2.1]) fun _ _ => rfl)
  · split_ifs
    · exact hidle (hfail u _ rfl (othersSame_refl _ _) rfl rfl (by rw [hpt.2.1]) fun _ _ => rfl)
    · refine hidle (hfail _ _ rfl (othersSame_refl u c) rfl (by simp) (by rw [hport]) fun p' hp' => ?_)
      exact State.port_modPort_ne _ _ hp'
    · generalize hv : (u.modPort (s.chan c).op.port fun pt => { pt with opened := true }).modPort (s.chan c).op.port
        (fun pt => { pt with applied := some l }) = v
      have hvc : v.chan c = { s.chan c with line := l } := by subst hv; exact hc
      have hvo : OthersSame s v c := by subst hv; exact ho
      have hvm : v.mem = s.mem := by subst hv; exact hm
      have hvp : PortBecomes s v (s.chan c).op.port
          { s.port (s.chan c).op.port with waiters := ws, owner := some c, opened := true, applied := some l } := by
        subst hv
        refine ⟨by simpa using hpt.1, ?_, fun p' hp' => ?_⟩
        · rw [State.port_modPort_self _ (by simpa [hpt.1] using hp), hport]
        · rw [State.port_modPort_ne _ _ hp', State.port_modPort_ne _ _ hp', hpt.2.2 p' hp']
      have hvl : c < v.chans.length := by rw [hvo.2.2.2.2.2.2.1]; exact h
      have hvn : v.now = s.now := hvo.2.2.1
      unfold State.beginExchange
      simp only [hvc]
      split_ifs
      · refine ⟨.write l (Config.writeNs l.bt (s.chan c).op.out.length)
          ((s.port (s.chan c).op.port).sent ++ writeSlots v.now l.bt (s.chan c).op.out)
          ⟨hvo.1, hvo.2.1, hvo.2.2.1, hvo.2.2.2.1, hvo.2.2.2.2.1, hvo.2.2.2.2.2.1, by simpa using hvo.2.2.2.2.2.2.1,
            fun c' hc' => ?_⟩
          hvm ?_ ⟨by simpa using hvp.1, ?_, fun p' hp' => ?_⟩, ?_⟩
        · rw [State.chan_modChan_ne _ _ hc']; exact hvo.2.2.2.2.2.2.2 c' hc'
        · rw [State.chan_modChan_self _ (by simpa using hvl)]
          simp only [State.modPort_chan, hvc, hvn]
        · simp only [State.modChan_port]
          rw [State.port_modPort_self _ (by rw [hvp.1]; exact hp), hvp.2.1]
        · simp only [State.modChan_port]
          rw [State.port_modPort_ne _ _ hp', hvp.2.2 p' hp']
        · rw [State.chan_modChan_self _ (by simpa using hvl)]
          simp
      · generalize hx : v.modChan c (fun ch => { ch with watch := true }) = x
        have hxc : x.chan c = { s.chan c with line := l, watch := true } := by
          subst hx; rw [State.chan_modChan_self _ hvl, hvc]
        have hxo : OthersSame s x c := by subst hx; exact othersSame_trans hvo (State.othersSame_modChan _ _ _)
        have hxp : PortBecomes s x (s.chan c).op.port
            { s.port (s.chan c).op.port with waiters := ws, owner := some c, opened := true, applied := some l } := by
          subst hx; exact hvp
        have hxm : x.mem = s.mem := by subst hx; exact hvm
        have hxop : (x.chan c).op = (s.chan c).op := by rw [hxc]
        rcases State.enterRead_cases (s := x) (c := c) (by rw [hxo.2.2.2.2.2.2.1]; exact h)
          (by rw [hxop, hxp.1]; exact hp) 0 with ⟨r1, r2, r3, r4⟩ | he
        · refine ⟨.readFirst l (othersSame_trans hxo r1) (r4.trans hxm) ?_ ?_, ?_⟩
          · rw [r2, hxc, readEntered, readEntered, hxo.2.2.1]
          · rw [hxop, hxp.2.1] at r3
            exact ⟨r3.1.trans hxp.1, r3.2.1, fun p' hp' => (r3.2.2 p' hp').trans (hxp.2.2 p' hp')⟩
          · rw [r2]; exact Phase.noConfusion
        · rw [hxop, hxp.2.1] at he
          exact hidle (he.of_mid hxo hxop hxm (by rw [hxc]) hxp.1 hxp.2.2)

/-- Everything a deadline step can do, where it is due (R142, R143, R144). -/
theorem State.deadlineStep_cases {s : State} {c : Nat} (writeOk : Bool) (h : c < s.chans.length)
    (hp : (s.chan c).op.port < s.ports.length) (hd : (s.chan c).due s.now = true) :
    PhaseStep s (s.deadlineStep c writeOk) c (s.port (s.chan c).op.port).waiters
      ∧ holding (s.chan c).phase = true
      ∧ ((s.chan c).phase ≠ .write → ((s.deadlineStep c writeOk).chan c).phase = .idle) := by
  have herr : ∀ e : CmdError, Ended s (s.endExchange c (.error e)) c (s.port (s.chan c).op.port).waiters 0 :=
    fun e => State.endExchange_ended _ h hp 0 (by rintro _ ⟨⟩)
  unfold Chan.due at hd
  unfold State.deadlineStep
  cases hf : (s.chan c).phase <;> simp only [hf] at hd ⊢
  · cases hd
  · cases hd
  · refine ⟨?_, rfl, fun hne => absurd rfl hne⟩
    unfold State.writeDeadline
    split_ifs with h1 h2
    · exact .ended 0 (Nat.zero_le _) (herr _)
    · exact .settle _ (State.othersSame_modChan _ _ _) rfl hf h2 (State.chan_modChan_self _ h) rfl
    · rcases State.enterRead_cases h hp 0 with ⟨r1, r2, r3, r4⟩ | he
      · exact .readOn r1 r4 hf h2 r2 r3
      · exact .ended 0 (Nat.zero_le _) he
  · have he := State.endExchange_ended (.ok []) h hp 0 (by rintro _ ⟨⟩; exact le_rfl)
    exact ⟨.ended 0 (Nat.zero_le _) he, rfl, fun _ => he.phase⟩
  · have he : Ended s (s.readDeadline c) c (s.port (s.chan c).op.port).waiters (s.chan c).acc.length := by
      unfold State.readDeadline
      dsimp only
      split_ifs
      · exact State.endExchange_ended _ h hp _ (by rintro _ ⟨⟩; exact le_rfl)
      · exact State.endExchange_ended _ h hp _ (by rintro _ ⟨⟩)
      · exact State.endExchange_ended _ h hp _ (by rintro _ ⟨⟩)
    exact ⟨.ended _ le_rfl he, rfl, fun _ => he.phase⟩

/-- Everything an octet can do to a channel in READ (R139, third case): it ends the exchange, or it is kept. -/
theorem State.takeOctet_cases {s : State} {c : Nat} (b : Byte) (h : c < s.chans.length)
    (hp : (s.chan c).op.port < s.ports.length) :
    (OthersSame s (s.takeOctet c b) c ∧ (s.takeOctet c b).mem = s.mem ∧ (s.takeOctet c b).ports = s.ports
        ∧ (s.chan c).acc.length ≠ s.cfg.bufBytes
        ∧ (s.takeOctet c b).chan c = octetTaken s (s.chan c) b)
      ∨ ∃ n, (n = 0 ∨ (s.chan c).acc.length ≠ s.cfg.bufBytes ∧ n = (s.chan c).acc.length + 1)
        ∧ Ended s (s.takeOctet c b) c (s.port (s.chan c).op.port).waiters n := by
  unfold State.takeOctet
  split_ifs with hb
  · exact .inr ⟨0, .inl rfl, State.endExchange_ended _ h hp 0 (by rintro _ ⟨⟩)⟩
  · generalize hu : s.modChan c (fun ch => { ch with acc := ch.acc ++ [b], lastRx := some s.now }) = u
    have huc : u.chan c = octetTaken s (s.chan c) b := by subst hu; exact State.chan_modChan_self _ h
    have huo : OthersSame s u c := by subst hu; exact State.othersSame_modChan _ _ _
    have hup : u.ports = s.ports := by subst hu; rfl
    have hupt : ∀ p, u.port p = s.port p := fun p => by unfold State.port; rw [hup]
    have hum : u.mem = s.mem := by subst hu; rfl
    have hop : (u.chan c).op = (s.chan c).op := by rw [huc]; rfl
    dsimp only
    split
    · rename_i out ho
      have hlen : out.length ≤ (s.chan c).acc.length + 1 := by
        have : out.length ≤ (u.chan c).acc.length := by
          unfold Chan.octetEnd at ho
          split at ho
          · cases ho
          · cases ho
          all_goals
            split at ho
            · injection ho with ho
              subst ho
              simp [dropTail]
            · cases ho
        simpa [huc, octetTaken] using this
      refine .inr ⟨_, .inr ⟨hb, rfl⟩, ?_⟩
      obtain ⟨h1, ⟨h2, h4⟩, h3, h5, h6, h7, h8, h9, h10, h11, h12⟩ :=
        State.endExchange_ended (s := u) (c := c) (.ok out) (huo.2.2.2.2.2.2.1 ▸ h) (by rw [hop, hup]; exact hp) _
          (by rintro _ ⟨⟩; exact hlen)
      rw [hop] at h3 h4 h10
      rw [hupt] at h3
      refine ⟨othersSame_trans huo h1, ⟨h2.trans (congrArg _ hup), fun p' hp' => (h4 p' hp').trans (hupt p')⟩, h3,
        h5, h6, h7, h8, h9, h10, h11.trans ?_, hum ▸ h12⟩
      simp [huc, octetTaken]
    · exact .inl ⟨huo, hum, hup, hb, huc⟩
end Sys2Proof.Machine
end

