-- ==== Sys2Proof/Laws/Step.lean ====
section
/-! SUPPORT. Once, everything a command's meaning and one step of the machine can do. -/

namespace Sys2Proof.Machine

open Sys2Proof.Safety
open Host (Outcome)

/-- The kinds of states a meaning can answer from `s`: an error, a success end with an output that fits the buffer, or
WAIT_LOCK with a snapshot whose port exists and whose outgoing bytes fit the buffer. -/
inductive ExecEnds (s : State) : State → Prop where
  | error (k : Nat) (f : Chan → Chan) (e : CmdError)
      (hf : ∀ ch, (f ch) = { ch with result := (f ch).result }) :
      ExecEnds s (((s.addFree k).modChan s.sel f).raise s.sel e)
  | ok (k : Nat) (f : Chan → Chan) (out : Bytes)
      (hf : ∀ ch, (f ch) = { ch with result := (f ch).result, res := (f ch).res })
      (hl : out.length ≤ s.cfg.bufBytes) :
      ExecEnds s (((s.addFree k).modChan s.sel f).complete s.sel out)
  | wait (k : Nat) (o : Op) (hp : o.port < s.cfg.nport) (hl : o.out.length ≤ s.cfg.bufBytes) :
      ExecEnds s ((s.addFree k).enterWaitLock s.sel o)

theorem State.modChan_id (s : State) (c : Nat) : s.modChan c id = s := by
  simp [State.modChan]

theorem ExecEnds.raise (s : State) (e : CmdError) : ExecEnds s (s.raise s.sel e) := by
  have := ExecEnds.error (s := s) 0 id e (fun _ => rfl)
  rwa [State.modChan_id] at this

theorem ExecEnds.finish {s : State} (k : Nat) (v : Bool) {out : Bytes} (hl : out.length ≤ s.cfg.bufBytes) :
    ExecEnds s ((s.addFree k).finish v out) :=
  ExecEnds.ok k (Chan.setResult v) out (fun _ => rfl) hl

theorem ExecEnds.finishE {s : State} (k : Nat) {r : Except CmdError Bytes}
    (hl : ∀ out, r = .ok out → out.length ≤ s.cfg.bufBytes) : ExecEnds s ((s.addFree k).finishE r) := by
  cases r with
  | ok out => exact ExecEnds.finish k false (hl out rfl)
  | error e =>
    have := ExecEnds.error (s := s) k id e (fun _ => rfl)
    rwa [State.modChan_id] at this

theorem State.modChan_modChan (s : State) (c : Nat) (f g : Chan → Chan) :
    (s.modChan c f).modChan c g = s.modChan c (g ∘ f) := by
  simp [State.modChan, List.modify_modify_eq]

theorem ExecEnds.endParse {s : State} (k : Nat) {r : Except CmdError Rec}
    (hl : ∀ rec, r = .ok rec → rec.body.length ≤ s.cfg.bufBytes) :
    ExecEnds s (((s.addFree k).modChan s.sel (Chan.setResult false)).endParse s.sel r) := by
  cases r with
  | ok rec =>
    have := ExecEnds.ok (s := s) k (Chan.setRes rec.res ∘ Chan.setResult false) rec.body (fun _ => rfl) (hl rec rfl)
    rwa [← State.modChan_modChan] at this
  | error e => exact ExecEnds.error k (Chan.setResult false) e (fun _ => rfl)

/-- A meaning of the common form ends as `ExecEnds` says where its command does. -/
theorem ExecEnds.accepted {s : State} {h : Nat} {need : Needs} {run : Operands → State → State}
    (hrun : acceptError s.cfg (s.operands h) need = none →
      ExecEnds s (run (s.operands h) (s.addFree (s.operands h).n))) :
    ExecEnds s (s.accepted h need run) := by
  rcases State.accepted_cases s h need run with ⟨e, -, he⟩ | ⟨hn, he⟩
  · exact he ▸ ExecEnds.raise s e
  · exact he ▸ hrun hn

theorem ExecEnds.startExchange {s : State} {h : Nat} {fits : Nat → Operands → Bool} {eol : Bool} {opc : BitVec 8}
    {mode : Mode} {w : Bool} {r : Reply} {out : Operands → Bytes}
    (hl : acceptError s.cfg (s.operands h) ⟨fits, true, eol⟩ = none → (out (s.operands h)).length ≤ s.cfg.bufBytes) :
    ExecEnds s (s.startExchange h fits eol opc mode w r out) := by
  refine ExecEnds.accepted fun hn => ?_
  have hp := ((acceptError_none_iff _ _ _).1 hn).2.2.2.1 rfl
  exact ExecEnds.wait (s := s) (s.operands h).n ((s.operands h).op opc mode w r (out (s.operands h))) hp (hl hn)

theorem sumAdd_length (en : Bool) (s : Bytes) : (sumAdd en s).length = s.length + twoIf en := by
  cases en <;> simp [sumAdd, twoIf]

theorem crcAdd_length (en : Bool) (s : Bytes) : (crcAdd en s).length = s.length + twoIf en := by
  cases en <;> simp [crcAdd, twoIf]

/-- The operand length a passed check gives. -/
theorem acceptError_n_le {p : Config.Params} {o : Operands} {need : Needs} (h : acceptError p o need = none) :
    o.n ≤ p.bufBytes := ((acceptError_none_iff _ _ _).1 h).2.1

theorem acceptError_fits {p : Config.Params} {o : Operands} {need : Needs} (h : acceptError p o need = none) :
    need.fits p.bufBytes o = true := ((acceptError_none_iff _ _ _).1 h).2.2.1

theorem marker_length_le (s : State) (h : Nat) : (marker s h).length ≤ (s.handle h).eolLen.toNat := by
  simp [marker]

theorem ascFrame_length (sep addr : Byte) (ae se : Bool) (eol tx : Bytes) :
    (ascFrame sep addr ae se eol tx).length = 1 + twoIf ae + tx.length + twoIf se + eol.length := by
  simp only [ascFrame, List.length_append, sumAdd_length, List.length_cons]
  cases ae <;> simp [twoIf]

/-- The frame of R183 fits where R83 says so. -/
theorem ascOut_length_le {s : State} {h : Nat} (hf : fitsAsc s.cfg.bufBytes (s.operands h) = true) :
    (s.operands h).ascOut.length ≤ s.cfg.bufBytes := by
  have hm := marker_length_le s h
  have hf : 1 + twoIf (s.operands h).addrEn + (s.operands h).n + twoIf (s.operands h).sumEn + (s.operands h).eolLen
      ≤ s.cfg.bufBytes := of_decide_eq_true hf
  have ht : (s.operands h).tx.length = (s.operands h).n := operand_length s
  rw [Operands.ascOut, ascFrame_length, ht]
  exact le_trans (Nat.add_le_add_left hm _) hf

/-- The frame of R191 fits where R83 says so. -/
theorem rtuOut_length_le {s : State} {h : Nat} (hf : fitsRtu s.cfg.bufBytes (s.operands h) = true) :
    (s.operands h).rtuOut.length ≤ s.cfg.bufBytes := by
  simp only [fitsRtu, decide_eq_true_eq] at hf
  simp only [Operands.rtuOut, rtuFrame, crcAdd_length, List.length_cons, State.operands_tx, operand_length]
  simp only [State.operands_n] at hf
  omega

theorem operand_le {s : State} {h : Nat} {need : Needs} (hn : acceptError s.cfg (s.operands h) need = none) :
    (s.operands h).tx.length ≤ s.cfg.bufBytes := by
  simpa using acceptError_n_le hn

/-- Every meaning answers a next state, of one of the kinds of `ExecEnds`. -/
theorem exec_ends (i : Instr) (s : State) : ∃ t, exec i s = .next t ∧ ExecEnds s t := by
  cases i with
  | sumAdd h =>
    refine ⟨_, rfl, ExecEnds.accepted fun hn => ExecEnds.finish _ _ ?_⟩
    have := acceptError_fits hn
    simp only [fitsSum, decide_eq_true_eq] at this
    simpa [sumAdd_length] using this
  | sumChk h => exact ⟨_, rfl, ExecEnds.accepted fun _ => ExecEnds.finish _ _ (Nat.zero_le _)⟩
  | sumStrip h =>
    exact ⟨_, rfl, ExecEnds.accepted fun hn => ExecEnds.finishE _ fun _ ho =>
      (sumStrip_length ho).trans (operand_le hn)⟩
  | crcAdd h =>
    refine ⟨_, rfl, ExecEnds.accepted fun hn => ExecEnds.finish _ _ ?_⟩
    have := acceptError_fits hn
    simp only [fitsCrc, decide_eq_true_eq] at this
    simpa [crcAdd_length] using this
  | crcChk h => exact ⟨_, rfl, ExecEnds.accepted fun _ => ExecEnds.finish _ _ (Nat.zero_le _)⟩
  | crcStrip h =>
    exact ⟨_, rfl, ExecEnds.accepted fun hn => ExecEnds.finishE _ fun _ ho =>
      (crcStrip_length ho).trans (operand_le hn)⟩
  | wr h => exact ⟨_, rfl, ExecEnds.startExchange operand_le⟩
  | xq h => exact ⟨_, rfl, ExecEnds.startExchange operand_le⟩
  | xn h => exact ⟨_, rfl, ExecEnds.startExchange operand_le⟩
  | xd h => exact ⟨_, rfl, ExecEnds.startExchange operand_le⟩
  | xl h => exact ⟨_, rfl, ExecEnds.startExchange operand_le⟩
  | rq h => exact ⟨_, rfl, ExecEnds.startExchange operand_le⟩
  | rn h => exact ⟨_, rfl, ExecEnds.startExchange operand_le⟩
  | rd h => exact ⟨_, rfl, ExecEnds.startExchange operand_le⟩
  | rl h => exact ⟨_, rfl, ExecEnds.startExchange operand_le⟩
  | ascBuild h =>
    refine ⟨_, rfl, ExecEnds.accepted fun hn => ?_⟩
    have := ExecEnds.ok (s := s) (s.operands h).n (Chan.setResult false ∘ Chan.setRes 0#8) (s.operands h).ascOut
      (fun _ => rfl) (ascOut_length_le (acceptError_fits hn))
    rwa [← State.modChan_modChan] at this
  | ascParse h =>
    exact ⟨_, rfl, ExecEnds.accepted fun hn => ExecEnds.endParse _ fun _ ho =>
      (ascParse_length ho).trans (operand_le hn)⟩
  | ascReq h => exact ⟨_, rfl, ExecEnds.startExchange fun hn => ascOut_length_le (acceptError_fits hn)⟩
  | rtuBuild h =>
    refine ⟨_, rfl, ExecEnds.accepted fun hn => ?_⟩
    have := ExecEnds.ok (s := s) (s.operands h).n (Chan.setResult false ∘ Chan.setRes 0#8) (s.operands h).rtuOut
      (fun _ => rfl) (rtuOut_length_le (acceptError_fits hn))
    rwa [← State.modChan_modChan] at this
  | rtuParse h =>
    exact ⟨_, rfl, ExecEnds.accepted fun hn => ExecEnds.endParse _ fun _ ho =>
      (rtuParse_length ho).trans (operand_le hn)⟩
  | rtuReq h => exact ⟨_, rfl, ExecEnds.startExchange fun hn => rtuOut_length_le (acceptError_fits hn)⟩

/-- Everything one step can do, by the schedule's next step: `u` is the state with that step taken off the schedule. -/
inductive StepEnds (u : State) : State → Prop where
  /-- The host's write to a register other than a CMD. -/
  | hostWrite (addr : BitVec 16) (width : Nat) (v : Word)
      (hi : issued? u.cfg (.hostWrite addr width v) = none) : StepEnds u (u.hostWrite addr width v)
  | hostRead (addr : BitVec 16) (width : Nat) : StepEnds u (u.hostRead addr width)
  /-- A rejected CMD write. -/
  | reject (c : Nat) (hc : c < u.cfg.nchan) (hb : (u.chan c).busy = true) :
      StepEnds u ((u.modChan c Chan.reject).setResp .ack)
  /-- An accepted word that is no command. -/
  | illegal (c : Nat) (w : Word) (e : DecodeError) (hc : c < u.cfg.nchan) (hb : (u.chan c).busy = false)
      (hd : decode w = .error e) : StepEnds u (((u.setResp .ack).accept c w).raise c (decodeError e))
  /-- An accepted command. -/
  | command (c : Nat) (w : Word) (i : Instr) (t : State) (hc : c < u.cfg.nchan) (hb : (u.chan c).busy = false)
      (hd : decode w = .ok i) (hx : exec i ((u.setResp .ack).accept c w) = .next t) : StepEnds u t
  | grant (p c : Nat) (openOk applyOk : Bool) (hp : p < u.ports.length) (hc : c < u.chans.length)
      (ho : (u.port p).owner = none) (hw : c ∈ (u.port p).waiters) : StepEnds u (u.grantStep p c openOk applyOk)
  | deadline (c : Nat) (writeOk : Bool) (hc : c < u.chans.length) (hd : (u.chan c).due u.now = true) :
      StepEnds u (u.deadlineStep c writeOk)
  /-- An octet that meets no channel in READ, with no deadline step of the owner due. -/
  | rxLost : StepEnds u u
  /-- An octet before which the owner's deadline step fires. -/
  | rxLate (p c : Nat) (b : Byte) (writeOk : Bool) (hp : p < u.ports.length) (ho : (u.port p).owner = some c)
      (hc : c < u.chans.length) (hd : (u.chan c).due u.now = true) :
      StepEnds u ((u.deadlineStep c writeOk).setSched (.rx p b writeOk :: (u.deadlineStep c writeOk).sched))
  | rxTaken (p c : Nat) (b : Byte) (hp : p < u.ports.length) (ho : (u.port p).owner = some c)
      (hr : (u.chan c).phase = .read) (hw : (u.chan c).watch = true) (hd : (u.chan c).due u.now = false) :
      StepEnds u (u.takeOctet c b)
  | advance (t : Nat) (ha : u.mayAdvance t = true) : StepEnds u (u.setNow t)
  | reset : StepEnds u u.resetInput

/-- A register of a channel's window is that channel's. -/
theorem chanTarget_chanReg {p : Config.Params} {c off c' : Nat} {r : ChanReg} (h : chanTarget p c off = .chanReg c' r) :
    c' = c := by
  unfold chanTarget at h
  split at h
  · split at h
    · injection h with h1
      exact h1.symm
    · cases h
  · split at h
    · split at h <;> cases h
    · split at h
      · split at h <;> cases h
      · cases h

/-- A register that is a channel's is a present channel's. -/
theorem targetAt_chanReg {p : Config.Params} {a : BitVec 16} {c : Nat} {r : ChanReg}
    (h : targetAt p a = .chanReg c r) : c < p.nchan := by
  unfold targetAt at h
  dsimp only at h
  split at h
  · cases h
  split at h
  · cases h
  split at h
  · cases h
  split at h
  · cases h
  split at h
  · cases h
  split at h
  · split at h
    · split at h <;> cases h
    · cases h
  · split at h
    · rename_i hc
      exact chanTarget_chanReg h ▸ hc
    · cases h

/-- A CMD write names a present channel. -/
theorem issued?_lt {p : Config.Params} {e : Event} {c : Nat} {w : Word} (h : issued? p e = some (c, w)) :
    c < p.nchan := by
  unfold issued? at h
  split at h
  · split at h
    · split at h
      · rename_i c' hc
        obtain ⟨rfl, -⟩ : c' = c ∧ _ = w := by simpa using h
        exact targetAt_chanReg hc
      · cases h
    · cases h
  · cases h

/-- Only a host write issues a command. -/
theorem issued?_none_of_not_write {p : Config.Params} {e : Event} (h : ∀ a k v, e ≠ .hostWrite a k v) :
    issued? p e = none := by
  cases e <;> first | rfl | exact absurd rfl (h _ _ _)

/-- Only a present channel has a due deadline step. -/
theorem State.lt_of_due {s : State} {c : Nat} (h : (s.chan c).due s.now = true) : c < s.chans.length := by
  by_contra hc
  rw [State.chan, List.getD_eq_default _ _ (by omega)] at h
  cases h

/-- A step that answers a next state did one of these things. -/
theorem step_ends {s t : State} (h : step s = .next t) :
    (s.sched = [] ∧ t = s) ∨ ∃ e rest, s.sched = e :: rest ∧ StepEnds (s.setSched rest) t := by
  unfold step at h
  split at h
  · rename_i hs
    exact .inl ⟨hs, by injection h with h; exact h.symm⟩
  · rename_i e rest hs
    refine .inr ⟨e, rest, hs, ?_⟩
    generalize hu : s.setSched rest = u at h
    unfold State.run at h
    split at h
    · rename_i c w hi
      have hc := issued?_lt hi
      unfold State.issue at h
      split at h
      · rename_i hb
        injection h with h
        exact h ▸ StepEnds.reject c hc hb
      · rename_i hb
        have hb : (u.chan c).busy = false := by simpa using hb
        unfold State.acceptStep at h
        split at h
        · rename_i de hd
          injection h with h
          exact h ▸ StepEnds.illegal c w de hc hb hd
        · rename_i i hd
          exact StepEnds.command c w i t hc hb hd h
    · rename_i hi
      unfold State.agentStep at h
      split at h
      · injection h with h
        exact h ▸ StepEnds.hostWrite _ _ _ hi
      · injection h with h
        exact h ▸ StepEnds.hostRead _ _
      · rename_i p c o a
        unfold State.grant at h
        split_ifs at h with h1 h2 h3
        injection h with h
        obtain ⟨h4, h5⟩ := not_or.1 h3
        exact h ▸ StepEnds.grant p c o a (by omega) (by omega) (by simpa using h4) (by simpa using h5)
      · rename_i c wo
        unfold State.deadline at h
        split_ifs at h with h1 h2
        injection h with h
        exact h ▸ StepEnds.deadline c wo (by omega) (by simpa using h2)
      · rename_i p b wo
        unfold State.rx at h
        split_ifs at h with h1
        have hp : p < u.ports.length := by omega
        rcases State.rxStep_cases u p b wo with ⟨c, ho, hd, hx⟩ | ⟨c, ho, hd, hr, hw, hx⟩ | ⟨-, hx⟩
        all_goals
          simp only [hx] at h
          injection h with h
          subst h
        · have hd := (Chan.due_iff _ _).2 hd
          exact StepEnds.rxLate p c b wo hp ho (State.lt_of_due hd) hd
        · exact StepEnds.rxTaken p c b hp ho hr hw (Bool.eq_false_iff.2 fun h => hd ((Chan.due_iff _ _).1 h))
        · exact StepEnds.rxLost
      · rename_i x
        unfold State.advance at h
        split_ifs at h with h1
        injection h with h
        exact h ▸ StepEnds.advance x h1
      · injection h with h
        exact h ▸ StepEnds.reset

end Sys2Proof.Machine
end

