-- ==== Sys2Proof/Machine/HostProgram.lean ====
section
/-! DEFINITION. The host-program notation of 30_encoding.md R89 as steps of the schedule: pseudo-instructions of the
host, not commands of the block. -/

namespace Sys2Proof.Machine

/-- `wr A, v`. -/
def hostWr (a : Nat) (v : Word) : List Event := [.hostWrite (BitVec.ofNat 16 a) 4 v]

/-- `rd A`. -/
def hostRd (a : Nat) : List Event := [.hostRead (BitVec.ofNat 16 a) 4]

/-- Word `j` of packed bytes, missing bytes 0 (R64, R89). -/
def packedWord (s : Bytes) (j : Nat) : Word :=
  bytesWord (s.getD (4 * j) 0#8) (s.getD (4 * j + 1) 0#8) (s.getD (4 * j + 2) 0#8) (s.getD (4 * j + 3) 0#8)

/-- `ldtx c, s`. -/
def hostLdtx (c : Nat) (s : Bytes) : List Event :=
  (List.range ((s.length + 3) / 4)).flatMap (fun j => hostWr (txAddr c (4 * j)) (packedWord s j))
    ++ hostWr (chanBase c + 0x008) (BitVec.ofNat 32 s.length)

/-- `arg c, v`. -/
def hostArg (c : Nat) (v : Word) : List Event := hostWr (chanBase c + 0x010) v

/-- `delim c, d`. -/
def hostDelim (c : Nat) (d : Bytes) : List Event :=
  (List.range 4).flatMap (fun j => hostWr (chanBase c + 0x018 + 4 * j) (packedWord d j))
    ++ hostWr (chanBase c + 0x014) (BitVec.ofNat 32 d.length)

/-- `issue c, <mnemonic> h<k>`. -/
def hostIssue (c : Nat) (i : Instr) : List Event := hostWr (chanBase c) (encode i)

/-- `wait c` with `k` polls of STATUS: the loop ends on a value the host reads, so the number of polls is the
schedule's (log 19). -/
def hostWait (c k : Nat) : List Event := (List.range k).flatMap (fun _ => hostRd (chanBase c + 0x004))

/-- `getrx c` where RXLEN reads `n`. -/
def hostGetrx (c n : Nat) : List Event :=
  hostRd (chanBase c + 0x00C) ++ (List.range ((n + 3) / 4)).flatMap (fun j => hostRd (rxAddr c (4 * j)))

end Sys2Proof.Machine
end

