-- ==== Sys2Proof/Tests/Slice0.lean ====
section
/-! SUPPORT. Tests of single steps against 95_test_vectors.md, the words of every command written out from its
encoding, the checks of WellFormed, and for every statement with hypotheses a state that meets them. -/

namespace Sys2Proof.Tests

open Sys2Proof.Machine
open Sys2Proof.Safety
open Host (Outcome)

/-! ## WellFormed: an ill-formed term for each check -/

theorem test_wf_refuses_wide_handle : (Instr.rn 256).wf = false ∧ (Instr.rn 255).wf = true := by decide

theorem test_params_wf_reference : Config.reference.wf = true := by decide

theorem test_params_wf_refuses_nchan :
    { Config.reference with nchan := 0 }.wf = false ∧ { Config.reference with nchan := 9 }.wf = false := by decide

theorem test_params_wf_refuses_nport :
    { Config.reference with nport := 0 }.wf = false ∧ { Config.reference with nport := 65 }.wf = false := by decide

theorem test_params_wf_refuses_nhandle :
    { Config.reference with nhandle := 0 }.wf = false ∧ { Config.reference with nhandle := 449 }.wf = false := by decide

theorem test_params_wf_refuses_bufBytes :
    { Config.reference with bufBytes := 0 }.wf = false ∧ { Config.reference with bufBytes := 1028 }.wf = false
      ∧ { Config.reference with bufBytes := 254 }.wf = false := by decide

theorem test_params_wf_refuses_times :
    { Config.reference with defaultByteNs := 0 }.wf = false ∧ { Config.reference with quietDen := 0 }.wf = false := by
  decide

theorem test_baudTable_wf_refuses :
    Config.baudTableWf [(0, 1)] = false ∧ Config.baudTableWf [(9600, 0)] = false
      ∧ Config.baudTableWf [(9600, 1), (9600, 2)] = false := by decide

theorem test_bus_refuses_width_and_alignment :
    busAccessOk 0x8000#16 2 = false ∧ busAccessOk 0x8002#16 4 = false ∧ busAccessOk 0x8004#16 4 = true := by decide

/-! ## Decode: a word for every constructor, bits 31:16 = 0, `HSEL` in 15:8, `OPC` in 7:0 (30_encoding.md R80, R84) -/

theorem test_decode_sumAdd : decode 0b00000000000000000000000000010000#32 = .ok (.sumAdd 0) := by decide
theorem test_decode_sumChk : decode 0b00000000000000000000000100010001#32 = .ok (.sumChk 1) := by decide
theorem test_decode_sumStrip : decode 0b00000000000000000000001000010010#32 = .ok (.sumStrip 2) := by decide
theorem test_decode_crcAdd : decode 0b00000000000000000000001000011000#32 = .ok (.crcAdd 2) := by decide
theorem test_decode_crcChk : decode 0b00000000000000000000001100011001#32 = .ok (.crcChk 3) := by decide
theorem test_decode_crcStrip : decode 0b00000000000000001111111100011010#32 = .ok (.crcStrip 255) := by decide
theorem test_decode_wr : decode 0b00000000000000000000000000100000#32 = .ok (.wr 0) := by decide
theorem test_decode_xq : decode 0b00000000000000000000000100100001#32 = .ok (.xq 1) := by decide
theorem test_decode_xn : decode 0b00000000000000000000001100100010#32 = .ok (.xn 3) := by decide
theorem test_decode_xd : decode 0b00000000000000000000010000100011#32 = .ok (.xd 4) := by decide
theorem test_decode_xl : decode 0b00000000000000000000010100100100#32 = .ok (.xl 5) := by decide
theorem test_decode_rq : decode 0b00000000000000000000011000110001#32 = .ok (.rq 6) := by decide
theorem test_decode_rn : decode 0b00000000000000000000011100110010#32 = .ok (.rn 7) := by decide
theorem test_decode_rd : decode 0b00000000000000001000000000110011#32 = .ok (.rd 128) := by decide
theorem test_decode_rl : decode 0b00000000000000000000000000110100#32 = .ok (.rl 0) := by decide
theorem test_decode_ascBuild : decode 0b00000000000000000000100101000000#32 = .ok (.ascBuild 9) := by decide
theorem test_decode_ascParse : decode 0b00000000000000000000101001000001#32 = .ok (.ascParse 10) := by decide
theorem test_decode_ascReq : decode 0b00000000000000000000011101000010#32 = .ok (.ascReq 7) := by decide
theorem test_decode_rtuBuild : decode 0b00000000000000000000101101001000#32 = .ok (.rtuBuild 11) := by decide
theorem test_decode_rtuParse : decode 0b00000000000000000000110001001001#32 = .ok (.rtuParse 12) := by decide
theorem test_decode_rtuReq : decode 0b00000000000000000000001001001010#32 = .ok (.rtuReq 2) := by decide

theorem test_decode_refuses :
    decode 0x00000000#32 = .error .unlistedOpcode ∧ decode 0x0000001C#32 = .error .unlistedOpcode
      ∧ decode 0x00000030#32 = .error .unlistedOpcode ∧ decode 0xFFFFFFFF#32 = .error .unlistedOpcode
      ∧ decode 0x00010010#32 = .error .reservedBits := by decide

theorem test_decodeTableWord :
    decodeTableWord 32 0x24A = some (.rtuReq 2) ∧ decodeTableWord 8 0x24A = some (.rtuReq 0)
      ∧ decodeTableWord 32 0x13 = none := by decide

/-- 95_test_vectors.md section 4. -/
theorem test_disassemble :
    disassemble 0x00000218#32 = "CRC.ADD h2" ∧ disassemble 0x00010013#32 = ".illegal 0x00010013" := by decide

/-! ## The engines (95_test_vectors.md sections 1 to 3) -/

theorem test_crc16 :
    crc16 [0x01#8] = 0x807E#16 ∧ crc16 [] = 0xFFFF#16
      ∧ crc16 [0x31#8, 0x32#8, 0x33#8, 0x34#8, 0x35#8, 0x36#8, 0x37#8, 0x38#8, 0x39#8] = 0x4B37#16 := by
  set_option maxRecDepth 4000 in decide

theorem test_sum8 : sum8 [0xFF#8, 0xFF#8] = 0xFE#8 ∧ hex2 0xFE#8 = [0x46#8, 0x45#8] := by decide

/-! ## Helpers: small states -/

/-- A handle slot on port 0 at 9600 baud, 8 data bits, address 1 in use, both policies enabled, marker 0D. -/
def hd : Handle :=
  { Handle.reset with baud := 9600#32, frame := 8#32, proto := 0x701#32, eolLen := 1#5, eol.w0 := 0x0D#32 }

/-- Channel 0 as `ch`, slot 0 as `h`, the operand `tx` in its TXBUF and `evs` as the schedule. -/
def setup (h : Handle) (ch : Chan) (tx : Bytes) (evs : List Event) : State :=
  { State.reset with
    chans := { ch with txlen := BitVec.ofNat 16 tx.length } :: List.replicate 3 Chan.reset
    handles := h :: List.replicate 7 Handle.reset
    mem := Memory.writeBytes [] (txAddr 0 0) tx
    sched := evs }

/-- Channel 0 about to get the command word `w` with operand `tx`. -/
def issue (h : Handle) (ch : Chan) (w : Word) (tx : Bytes) : State := setup h ch tx [.hostWrite 0x8000#16 4 w]

/-- The octets of a string. -/
def octets (s : String) : Bytes := s.toList.map fun c => BitVec.ofNat 8 c.toNat

/-- What a host sees of channel 0 after a step: STATUS, RES and the output. -/
def view (o : Outcome State Fault Refusal) : Option (Word × Byte × List (Option Byte)) :=
  match o with
  | .next t =>
    some ((t.chan 0).statusWord, (t.chan 0).res,
      (List.range (t.chan 0).rxlen.toNat).map fun k => t.byte? (rxAddr 0 k))
  | .fault _ => none
  | .refused _ => none

/-- An ended command's view. -/
def ended (status : Word) (res : Byte) (out : Bytes) : Option (Word × Byte × List (Option Byte)) :=
  some (status, res, out.map some)

/-- The next state, or the same state. -/
def after (s : State) : State :=
  match step s with
  | .next t => t
  | .fault _ => s
  | .refused _ => s

/-- The line of the reference instance. -/
def line : Line :=
  { bt := 1000, quiet := 3000, timeout := none, baud := 9600#32, data := 8#4, parity := 0#3, stop := 0#2, flow := 0#4 }

/-- The snapshot of an exchange on port 0 with handle 0. -/
def op (opc : BitVec 8) (m : Mode) (w : Bool) (out : Bytes) : Op :=
  { Op.reset with opc := opc, mode := m, hasWrite := w, out := out, eolSeq := [0x0D#8], delim := [0x3B#8], addr := 1#8,
                  addrEn := true, sumEn := true, crcEn := true }

/-- Channel 0 in phase `ph` of an exchange on port 0, at `now`, with `evs` to come. READ began at 2000, and 2000 is
T_END. -/
def exchange (ph : Phase) (o : Op) (l : Line) (acc : Bytes) (last : Option Nat) (now : Nat) (evs : List Event) : State :=
  { State.reset with
    chans :=
      { Chan.reset with
        busy := true, phase := ph, op := o, line := l, acc := acc, lastRx := last, tRead := 2000, tEnd := 2000,
        watch := holding ph && decide (o.mode ≠ .w) }
      :: List.replicate 3 Chan.reset
    handles := hd :: List.replicate 7 Handle.reset
    ports :=
      { Port.reset with
        opened := holding ph, owner := if holding ph then some 0 else none, waiters := if holding ph then [] else [0],
        dir := if holding ph then (if ph = .read then .rx else .tx) else .idle }
      :: List.replicate 3 Port.reset
    now := now
    sched := evs }

/-- The three views of port 0 the vectors of section 5 name. -/
def portWord (o : Outcome State Fault Refusal) : Option Word :=
  match o with
  | .next t => some (t.port 0).statusWord
  | .fault _ => none
  | .refused _ => none

/-! ## One step of every command (the vector's name in the theorem's) -/

theorem test_sumAdd_A2 :
    view (step (issue hd Chan.reset 0x10#32 (octets "$01M"))) = ended 0x2#32 0#8 (octets "$01MD2") := by decide

theorem test_sumAdd_A4 :
    view (step (issue { hd with proto := 0#32 } Chan.reset 0x10#32 (octets "$01M")))
      = ended 0x2#32 0#8 (octets "$01M") := by decide

theorem test_sumChk_A7 :
    view (step (issue hd Chan.reset 0x11#32 (octets "$01MD2"))) = ended 0x6#32 0#8 [] := by decide

theorem test_sumChk_A8 :
    view (step (issue hd Chan.reset 0x11#32 (octets "$01Md2"))) = ended 0x2#32 0#8 [] := by decide

theorem test_sumStrip_A14 :
    view (step (issue hd Chan.reset 0x12#32 (octets "!01DeviceName53")))
      = ended 0x2#32 0#8 (octets "!01DeviceName") := by decide

theorem test_sumStrip_A16 :
    view (step (issue hd Chan.reset 0x12#32 (octets "5"))) = ended 0x222#32 0#8 [] := by decide

theorem test_crcAdd_S1 :
    view (step (issue hd Chan.reset 0x18#32 [0x04#8, 0x04#8, 0x00#8, 0x00#8, 0x00#8, 0x26#8]))
      = ended 0x2#32 0#8 [0x04#8, 0x04#8, 0x00#8, 0x00#8, 0x00#8, 0x26#8, 0x71#8, 0x85#8] := by
  set_option maxRecDepth 4000 in decide

theorem test_crcAdd_B1 :
    view (step (issue { hd with proto := 0#32 } Chan.reset 0x18#32 [0x04#8, 0x04#8, 0x00#8, 0x00#8, 0x00#8, 0x26#8]))
      = ended 0x2#32 0#8 [0x04#8, 0x04#8, 0x00#8, 0x00#8, 0x00#8, 0x26#8] := by
  set_option maxRecDepth 4000 in decide

theorem test_crcChk_B2 :
    view (step (issue hd Chan.reset 0x19#32 [0x01#8, 0x03#8, 0x00#8, 0x00#8, 0x00#8, 0x0A#8, 0xC5#8, 0xCD#8]))
      = ended 0x6#32 0#8 [] := by
  set_option maxRecDepth 4000 in decide

theorem test_crcChk_B3 :
    view (step (issue hd Chan.reset 0x19#32 [0x01#8, 0x03#8, 0x00#8, 0x00#8, 0x00#8, 0x0A#8, 0xCD#8, 0xC5#8]))
      = ended 0x2#32 0#8 [] := by
  set_option maxRecDepth 4000 in decide

theorem test_crcStrip_B9 :
    view (step (issue hd Chan.reset 0x1A#32 [0x04#8, 0x04#8, 0x00#8, 0x00#8, 0x00#8, 0x26#8, 0x71#8, 0x85#8]))
      = ended 0x2#32 0#8 [0x04#8, 0x04#8, 0x00#8, 0x00#8, 0x00#8, 0x26#8] := by
  set_option maxRecDepth 4000 in decide

theorem test_crcStrip_B10 :
    view (step (issue hd Chan.reset 0x1A#32 [0x04#8, 0x04#8, 0x00#8, 0x00#8, 0x00#8, 0x26#8, 0x85#8, 0x71#8]))
      = ended 0x322#32 0#8 [] := by
  set_option maxRecDepth 4000 in decide

theorem test_ascBuild_F1 :
    view (step (issue hd { Chan.reset with arg0 := 0x24#16 } 0x40#32 (octets "M")))
      = ended 0x2#32 0#8 (octets "$01MD2" ++ [0x0D#8]) := by decide

theorem test_ascBuild_F6 :
    view (step (issue { hd with proto := 0x7AB#32 } { Chan.reset with arg0 := 0x24#16 } 0x40#32 (octets "M")))
      = ended 0x2#32 0#8 (octets "$ABMF4" ++ [0x0D#8]) := by decide

theorem test_ascParse_F10 :
    view (step (issue hd Chan.reset 0x41#32 (octets "!01DeviceName53")))
      = ended 0x2#32 0x21#8 (octets "DeviceName") := by decide

theorem test_ascParse_F18 :
    view (step (issue hd Chan.reset 0x41#32 (octets "!G199"))) = ended 0x232#32 0#8 [] := by decide

theorem test_rtuBuild_F30 :
    view (step (issue { hd with proto := 0x604#32 } { Chan.reset with arg0 := 4#16 } 0x48#32 [0x00#8, 0x00#8, 0x00#8, 0x26#8]))
      = ended 0x2#32 0#8 [0x04#8, 0x04#8, 0x00#8, 0x00#8, 0x00#8, 0x26#8, 0x71#8, 0x85#8] := by
  set_option maxRecDepth 4000 in decide

theorem test_rtuBuild_F34 :
    view (step (issue { hd with proto := 0x611#32 } { Chan.reset with arg0 := 3#16 } 0x48#32 [0x00#8, 0x6B#8, 0x00#8, 0x03#8]))
      = ended 0x2#32 0#8 [0x11#8, 0x03#8, 0x00#8, 0x6B#8, 0x00#8, 0x03#8, 0x76#8, 0x87#8] := by
  set_option maxRecDepth 4000 in decide

theorem test_rtuParse_F40 :
    view (step (issue { hd with proto := 0x604#32 } Chan.reset 0x49#32 [0x04#8, 0x04#8, 0x02#8, 0x00#8, 0x26#8, 0xF4#8, 0xEA#8]))
      = ended 0x2#32 4#8 [0x00#8, 0x26#8] := by
  set_option maxRecDepth 4000 in decide

theorem test_rtuParse_F46 :
    view (step (issue { hd with proto := 0x604#32 } Chan.reset 0x49#32 [0x04#8, 0x04#8, 0x03#8, 0x00#8, 0x26#8, 0xA5#8, 0x2A#8]))
      = ended 0x332#32 0#8 [] := by
  set_option maxRecDepth 4000 in decide

/-- Channel 0 waits for port 0 with this snapshot. -/
def waitsWith (o : Outcome State Fault Refusal) (opc : BitVec 8) (m : Mode) (w : Bool) (out : Bytes) (n : Nat) (d : Bytes) :
    Bool :=
  match o with
  | .next t =>
    let op := (t.chan 0).op
    decide ((t.chan 0).statusWord = 0x00010001#32 ∧ (t.port 0).waiters = [0] ∧ (t.port 0).owner = none)
      && decide (op.opc = opc ∧ op.mode = m ∧ op.hasWrite = w ∧ op.out = out ∧ op.n = n ∧ op.delim = d)
  | .fault _ => false
  | .refused _ => false

/-- A channel with exact length 4 and delimiter 0D 0A. -/
def chanND : Chan := { Chan.reset with arg0 := 4#16, dlen := 2#5, delim := ⟨0x0A0D#32, 0#32, 0#32, 0#32⟩ }

theorem test_wr_accepted :
    waitsWith (step (issue hd chanND 0x20#32 [0x41#8, 0x42#8])) 0x20#8 .w true [0x41#8, 0x42#8] 4 [0x0D#8, 0x0A#8]
      = true := by decide

theorem test_xq_accepted :
    waitsWith (step (issue hd chanND 0x21#32 [0x41#8, 0x42#8])) 0x21#8 .q true [0x41#8, 0x42#8] 4 [0x0D#8, 0x0A#8]
      = true := by decide

theorem test_xn_accepted :
    waitsWith (step (issue hd chanND 0x22#32 [0x41#8, 0x42#8])) 0x22#8 .n true [0x41#8, 0x42#8] 4 [0x0D#8, 0x0A#8]
      = true := by decide

theorem test_xd_accepted :
    waitsWith (step (issue hd chanND 0x23#32 [0x41#8, 0x42#8])) 0x23#8 .d true [0x41#8, 0x42#8] 4 [0x0D#8, 0x0A#8]
      = true := by decide

theorem test_xl_accepted :
    waitsWith (step (issue hd chanND 0x24#32 [0x41#8, 0x42#8])) 0x24#8 .l true [0x41#8, 0x42#8] 4 [0x0D#8, 0x0A#8]
      = true := by decide

theorem test_rq_accepted :
    waitsWith (step (issue hd chanND 0x31#32 [0x41#8, 0x42#8])) 0x31#8 .q false [0x41#8, 0x42#8] 4 [0x0D#8, 0x0A#8]
      = true := by decide

theorem test_rn_accepted :
    waitsWith (step (issue hd chanND 0x32#32 [0x41#8, 0x42#8])) 0x32#8 .n false [0x41#8, 0x42#8] 4 [0x0D#8, 0x0A#8]
      = true := by decide

theorem test_rd_accepted :
    waitsWith (step (issue hd chanND 0x33#32 [0x41#8, 0x42#8])) 0x33#8 .d false [0x41#8, 0x42#8] 4 [0x0D#8, 0x0A#8]
      = true := by decide

theorem test_rl_accepted :
    waitsWith (step (issue hd chanND 0x34#32 [0x41#8, 0x42#8])) 0x34#8 .l false [0x41#8, 0x42#8] 4 [0x0D#8, 0x0A#8]
      = true := by decide

theorem test_ascReq_accepted_F60 :
    waitsWith (step (issue hd { Chan.reset with arg0 := 0x24#16 } 0x42#32 (octets "M"))) 0x42#8 .l true
      (octets "$01MD2" ++ [0x0D#8]) 0x24 [] = true := by decide

theorem test_rtuReq_accepted_F64 :
    waitsWith (step (issue { hd with proto := 0x604#32 } { Chan.reset with arg0 := 4#16 } 0x4A#32
      [0#8, 0#8, 0#8, 0x26#8])) 0x4A#8 .q true [4#8, 4#8, 0#8, 0#8, 0#8, 0x26#8, 0x71#8, 0x85#8] 4 [] = true := by
  set_option maxRecDepth 4000 in decide

/-! ## Acceptance (95_test_vectors.md section 4) -/

theorem test_accept_ascReq_without_marker :
    view (step (issue Handle.reset Chan.reset 0x42#32 [])) = ended 0x442#32 0#8 [] := by decide

theorem test_accept_absent_slot : view (step (issue hd Chan.reset 0x810#32 [])) = ended 0x352#32 0#8 [] := by
  decide

theorem test_accept_opcode_before_reserved :
    view (step (issue hd Chan.reset 0x00010013#32 [])) = ended 0x152#32 0#8 []
      ∧ view (step (issue hd Chan.reset 0x00010010#32 [])) = ended 0x252#32 0#8 [] := by decide

theorem test_accept_port_before_marker :
    view (step (issue { Handle.reset with port := 4#6 } Chan.reset 0x24#32 [])) = ended 0x142#32 0#8 [] := by
  decide

/-! ## Single steps of an exchange (95_test_vectors.md section 5) -/

/-- T3 to T5: an XQ in READ with "A" received at 2500. -/
def xqRead (now : Nat) (evs : List Event) : State :=
  exchange .read (op 0x21#8 .q true [0x41#8, 0x42#8]) line [0x41#8] (some 2500) now evs

theorem test_T4_silence_ends_before_octet :
    view (step (xqRead 5500 [.rx 0 0x42#8 true])) = ended 0x2#32 0#8 [0x41#8] := by decide

theorem test_T5_octet_at_5499_is_kept :
    ((after (xqRead 5499 [.rx 0 0x42#8 true])).chan 0).acc = [0x41#8, 0x42#8]
      ∧ ((after (xqRead 5499 [.rx 0 0x42#8 true])).chan 0).lastRx = some 5499 := by decide

theorem test_T3_octet_in_write_is_lost :
    step (exchange .write (op 0x21#8 .q true [0x41#8]) line [] none 1500 [.rx 0 0xEE#8 true])
      = .next (exchange .write (op 0x21#8 .q true [0x41#8]) line [] none 1500 []) := by rfl

/-- 42_transceiver.md R138: an octet at the instant T_END of a WRITE comes after the deadline step, so in READ; its entry
carries the draw of that step. -/
theorem test_R138_write_deadline_before_octet :
    let s := fun ok => exchange .write (op 0x21#8 .q true [0x41#8]) line [] none 2000 [.rx 0 0xEE#8 ok]
    ((after (s true)).chan 0).phase = .read ∧ (after (s true)).sched = [.rx 0 0xEE#8 true]
      ∧ ((after (after (s true))).chan 0).acc = [0xEE#8]
      ∧ view (step (s false)) = ended 0x312#32 0#8 [] := by decide

theorem test_deadline_refused_before_it_is_due :
    step (exchange .write (op 0x21#8 .q true [0x41#8]) line [] none 1999 [.deadline 0 true]) = .refused .stepNotEnabled := by
  rfl

theorem test_T11_short_read :
    view (step (exchange .read { op 0x22#8 .n true [] with n := 4 } line [1#8, 2#8, 3#8] (some 3500) 6500 [.deadline 0 true]))
      = ended 0x512#32 0#8 [] := by decide

theorem test_T10_exact_length :
    view (step (exchange .read { op 0x22#8 .n true [] with n := 4 } line [1#8, 2#8, 3#8] (some 3500) 4000 [.rx 0 4#8 true]))
      = ended 0x2#32 0#8 [1#8, 2#8, 3#8, 4#8] := by decide

theorem test_T8_timeout_at_the_deadline :
    view (step (exchange .read (op 0x21#8 .q true []) { line with timeout := some 1000000 } [] none 1002000
      [.deadline 0 true])) = ended 0x412#32 0#8 [] := by decide

theorem test_T18_line_ends_on_marker :
    view (step (exchange .read (op 0x24#8 .l true []) line [0x21#8, 0x0A#8] (some 2500) 2600 [.rx 0 0x0D#8 true]))
      = ended 0x2#32 0#8 [0x21#8, 0x0A#8] := by decide

theorem test_T15_delimiter_ends_at_first_tail_match :
    view (step (exchange .read { op 0x23#8 .d true [] with delim := [0x61#8, 0x61#8] } line [0x78#8, 0x61#8] (some 3500) 4500
      [.rx 0 0x61#8 true])) = ended 0x2#32 0#8 [0x78#8] := by decide

theorem test_T1_write_settles :
    view (step (exchange .write (op 0x20#8 .w true [1#8, 2#8]) line [] none 2000 [.deadline 0 true]))
        = some (0x00030001#32, 0#8, [])
      ∧ ((after (exchange .write (op 0x20#8 .w true [1#8, 2#8]) line [] none 2000 [.deadline 0 true])).chan 0).tEnd = 4000 := by
  decide

theorem test_T2_settle_ends :
    view (step (exchange .settle (op 0x20#8 .w true []) line [] none 2000 [.deadline 0 true])) = ended 0x2#32 0#8 [] := by
  decide

theorem test_T12_zero_length_ends_at_read :
    view (step (exchange .write (op 0x22#8 .n true [1#8, 2#8]) line [] none 2000 [.deadline 0 true]))
      = ended 0x2#32 0#8 [] := by decide

theorem test_T32_write_failure :
    view (step (exchange .write (op 0x21#8 .q true [1#8, 2#8]) line [] none 2000 [.deadline 0 false]))
      = ended 0x312#32 0#8 [] := by decide

/-- An XQ waiting for port 0, its handle as `h`. -/
def waiting (h : Handle) (evs : List Event) : State :=
  { exchange .waitLock (op 0x21#8 .q true [0x41#8, 0x42#8]) line [] none 0 evs with
    handles := h :: List.replicate 7 Handle.reset }

theorem test_T3_grant_drives_the_line :
    view (step (waiting hd [.grant 0 0 true true])) = some (0x00020001#32, 0#8, [])
      ∧ portWord (step (waiting hd [.grant 0 0 true true])) = some 0x23#32
      ∧ ((after (waiting hd [.grant 0 0 true true])).port 0).sent = [(0, 0x41#8), (1000, 0x42#8)] := by decide

theorem test_T28_baud_checked_first :
    view (step (waiting { hd with baud := 0#32, frame := 0#32 } [.grant 0 0 true true])) = ended 0x542#32 0#8 []
      ∧ portWord (step (waiting { hd with baud := 0#32, frame := 0#32 } [.grant 0 0 true true])) = some 0#32 := by
  decide

theorem test_T26_T27_frame_checks :
    view (step (waiting { hd with frame := 9#32 } [.grant 0 0 true true])) = ended 0x242#32 0#8 []
      ∧ view (step (waiting { hd with frame := 0x58#32 } [.grant 0 0 true true])) = ended 0x342#32 0#8 [] := by
  decide

theorem test_T30_T31_draws :
    view (step (waiting hd [.grant 0 0 false true])) = ended 0x112#32 0#8 []
      ∧ view (step (waiting hd [.grant 0 0 true false])) = ended 0x212#32 0#8 [] := by decide

theorem test_T40_busy_channel_rejects :
    view (step (exchange .write (op 0x21#8 .q true [1#8]) line [] none 1000 [.hostWrite 0x8000#16 4 0x10#32]))
      = some (0x00020009#32, 0#8, []) := by decide

theorem test_T41_busy_channel_keeps_txlen :
    ((after (exchange .write (op 0x21#8 .q true [1#8]) line [] none 1000 [.hostWrite 0x8008#16 4 9#32])).chan 0).txlen
      = 0#16 := by decide

theorem test_ascReq_reply_F60 :
    view (step (exchange .read { op 0x42#8 .l true [] with reply := .ascii } line (octets "!01DeviceName53") (some 22000) 23000
      [.rx 0 0x0D#8 true])) = ended 0x2#32 0x21#8 (octets "DeviceName") := by decide

theorem test_rtuReq_reply_F65 :
    view (step (exchange .read { op 0x4A#8 .q true [] with reply := .binary, addr := 4#8 } line [4#8, 4#8, 2#8] (some 11000)
      14000 [.deadline 0 true])) = ended 0x322#32 0#8 [] := by
  set_option maxRecDepth 4000 in decide

/-! ## The clock, the bus and reset -/

theorem test_clock_stops_at_deadline :
    step (xqRead 2500 [.advance 5501]) = .refused .stepNotEnabled
      ∧ step (xqRead 2500 [.advance 5500]) = .next (xqRead 5500 []) := ⟨by rfl, by rfl⟩

theorem test_proto_after_reset :
    (after { State.reset with sched := [.hostRead 0x1024#16 4] }).resp = .data 0x600#32
      ∧ (after { State.reset with sched := [.hostRead 0#16 4] }).resp = .data 0x53504331#32
      ∧ (after { State.reset with sched := [.hostRead 4#16 4] }).resp = .data 0x10004044#32 := by decide

theorem test_frame_keeps_its_bits :
    ((after { State.reset with sched := [.hostWrite 0x1008#16 4 0xFFFFFFFF#32] }).handle 0).frame = 0xF37F#32 := by
  decide

theorem test_reset_input_ends_exchange :
    view (step (xqRead 2600 [.reset])) = ended 0#32 0#8 [] ∧ portWord (step (xqRead 2600 [.reset])) = some 0#32 := by
  decide

theorem test_program_runs_from_reset :
    view (step (State.reset.withFetchWord 32 0x10)) = ended 0x2#32 0#8 [0x30#8, 0x30#8] := by
  set_option maxRecDepth 4000 in decide

/-! ## Witnesses: states that meet the hypotheses of the statements of Obligations.lean, clause by clause -/

/-- Every command's common needs hold with operand `tx` of at most 256 octets. -/
theorem ready_setup (h : Handle) (ch : Chan) (tx : Bytes) (ht : tx.length < 65536) (hb : tx.length ≤ 256) :
    Ready (setup h ch tx []) 0 :=
  ⟨(by decide : 0 < 4), (by decide : 0 < 8), by
    show (BitVec.ofNat 16 tx.length).toNat ≤ 256
    rw [BitVec.toNat_ofNat, Nat.mod_eq_of_lt ht]
    exact hb⟩

theorem witness_DecodeEncodeRoundTrip : (Instr.xd 0).wf = true ∧ (Instr.rtuReq 255).wf = true := by decide

theorem witness_DecodedWordEncodesBack : decode 0xFF22#32 = .ok (.xn 255) ∧ decode 0x34#32 = .ok (.rl 0) := by decide

theorem witness_DecodeRefusesIllegalWords :
    (0x13#32).extractLsb' 0 8 ∉ opcodes ∧ (0x00010010#32).extractLsb' 0 8 ∈ opcodes
      ∧ (0x00010010#32).extractLsb' 16 16 ≠ 0#16 := by decide

/-- The next step writes `w` to CMD of channel `c`, with operand `tx` in channel 0. -/
theorem cmdWriteNext (h : Handle) (ch : Chan) (w : Word) (tx : Bytes) :
    CmdWriteNext (issue h ch w tx) [] 0 w := ⟨rfl, (by decide : 0 < 4), (by decide : 4 ≤ 8), (by decide : 0 < 4)⟩

theorem witness_StepRunsDecodedCommand :
    ∃ s rest c w i, CmdWriteNext s rest c w ∧ (s.chan c).busy = false ∧ decode w = .ok i :=
  ⟨_, _, _, _, .sumAdd 0, cmdWriteNext hd Chan.reset 0x10#32 [], by decide, by decide⟩

theorem witness_StepRunsDecodedCommand_last_channel :
    let s := setup hd Chan.reset [] [.hostWrite 0xB000#16 4 0x749#32]
    CmdWriteNext s [] 3 0x749#32 ∧ (s.chan 3).busy = false ∧ decode 0x749#32 = .ok (.rtuParse 7) :=
  ⟨⟨rfl, by decide, by decide, by decide⟩, by decide, by decide⟩

theorem witness_BusyChannelRejectsCommand :
    let s := issue hd { Chan.reset with busy := true, phase := .read } 0x10#32 []
    CmdWriteNext s [] 0 0x10#32 ∧ (s.chan 0).busy = true := ⟨cmdWriteNext _ _ _ _, by decide⟩

/-- The acceptance's clauses on the word and the handle: unlisted, reserved bits, the first absent slot. -/
theorem witness_AcceptanceReportsFirstFailingCheck_word :
    (CmdWriteNext (issue hd Chan.reset 0x13#32 []) [] 0 0x13#32 ∧ (0x13#32).extractLsb' 0 8 ∉ opcodes)
      ∧ (CmdWriteNext (issue hd Chan.reset 0x00010010#32 []) [] 0 0x00010010#32
        ∧ (0x00010010#32).extractLsb' 0 8 ∈ opcodes ∧ (0x00010010#32).extractLsb' 16 16 ≠ 0#16)
      ∧ (CmdWriteNext (issue hd Chan.reset 0x810#32 []) [] 0 0x810#32 ∧ decode 0x810#32 = .ok (.sumAdd 8)
        ∧ (issue hd Chan.reset 0x810#32 []).cfg.nhandle = 8) :=
  ⟨⟨cmdWriteNext _ _ _ _, by decide⟩, ⟨cmdWriteNext _ _ _ _, by decide, by decide⟩, cmdWriteNext _ _ _ _, by decide, rfl⟩

/-- A channel whose TXLEN is `n`, its operand not written. -/
def unwritten (n : Half) : State :=
  { setup hd Chan.reset [] [] with chans := { Chan.reset with txlen := n } :: List.replicate 3 Chan.reset }

/-- Its clauses on the range: 257 octets; 255 octets leave no room for a checksum, 254 do; no delimiter. -/
theorem witness_AcceptanceReportsFirstFailingCheck_range :
    ¬((unwritten 257#16).chan 0).txlen.toNat ≤ (unwritten 257#16).cfg.bufBytes
      ∧ ¬RangeOk (unwritten 255#16) (.sumAdd 0) ∧ RangeOk (unwritten 254#16) (.sumAdd 0)
      ∧ ¬RangeOk (unwritten 256#16) (.xd 0) ∧ RangeOk (unwritten 256#16) (.xq 0) := by
  refine ⟨by decide, ?_, ?_, ?_, trivial⟩ <;> unfold RangeOk <;> decide

/-- Its clauses on the port and the marker: the first absent port, a marker of 0, 1, 16 and 17 octets. -/
theorem witness_AcceptanceReportsFirstFailingCheck_port :
    ¬PortOk (setup { hd with port := 4#6 } Chan.reset [] []) 0 ∧ PortOk (setup { hd with port := 3#6 } Chan.reset [] []) 0
      ∧ ¬MarkerOk (setup { hd with eolLen := 0#5 } Chan.reset [] []) 0 ∧ MarkerOk (setup hd Chan.reset [] []) 0
      ∧ MarkerOk (setup { hd with eolLen := 16#5 } Chan.reset [] []) 0
      ∧ ¬MarkerOk (setup { hd with eolLen := 17#5 } Chan.reset [] []) 0 := by
  refine ⟨?_, ?_, ?_, ?_, ?_, ?_⟩ <;> first | (unfold PortOk; decide) | (unfold MarkerOk; decide)

theorem witness_SumAddAppendsChecksum :
    Ready (setup hd Chan.reset (octets "$01M") []) 0 ∧ RangeOk (setup hd Chan.reset (octets "$01M") []) (.sumAdd 0) :=
  ⟨ready_setup _ _ _ (by decide) (by decide), by unfold RangeOk; decide⟩

/-- A channel whose TXLEN fits the buffer is ready. -/
theorem ready_unwritten (n : Half) (h : n.toNat ≤ 256) : Ready (unwritten n) 0 :=
  ⟨(by decide : 0 < 4), (by decide : 0 < 8), h⟩

/-- The last length that leaves room for a checksum and the first that does not. -/
theorem witness_SumAddAppendsChecksum_full_buffer :
    (Ready (unwritten 254#16) 0 ∧ RangeOk (unwritten 254#16) (.sumAdd 0))
      ∧ Ready (unwritten 255#16) 0 ∧ ¬RangeOk (unwritten 255#16) (.sumAdd 0) :=
  ⟨⟨ready_unwritten _ (by decide), by unfold RangeOk; decide⟩, ready_unwritten _ (by decide), by unfold RangeOk; decide⟩

/-- A sequence whose check fails is not a body with its checksum. -/
theorem not_sumMatches {s : Bytes} (h : sumChk true s = false) : ¬SumMatches s := fun hm => by
  rw [(sumChk_true_iff s).2 hm] at h
  cases h

/-- A sequence whose check fails is not a body with its CRC. -/
theorem not_crcMatches {s : Bytes} (h : crcChk true s = false) : ¬CrcMatches s := fun hm => by
  rw [(crcChk_true_iff s).2 hm] at h
  cases h

theorem witness_SumChkReportsVerdict : Ready (setup hd Chan.reset (octets "$01MD2") []) 0 :=
  ready_setup _ _ _ (by decide) (by decide)

theorem witness_SumStripRemovesChecksum :
    let s := fun t => setup hd Chan.reset (octets t) []
    (∀ t ∈ ["", "5", "54", "00"], Ready (s t) 0) ∧ ((s "").handle 0).sumEn = true
      ∧ (operand (s "5")).length = 1 ∧ (operand (s "54")).length = 2 ∧ ¬SumMatches (operand (s "54"))
      ∧ operand (s "00") = [] ++ hex2 (sum8 []) := by
  refine ⟨fun t ht => ?_, by decide, by decide, by decide, not_sumMatches (by decide), by decide⟩
  refine ready_setup _ _ _ ?_ ?_ <;> revert t <;> decide

theorem witness_SumStripRemovesChecksum_disabled :
    let s := setup { hd with proto := 0#32 } Chan.reset (octets "5") []
    Ready s 0 ∧ (s.handle 0).sumEn = false := ⟨ready_setup _ _ _ (by decide) (by decide), by decide⟩

theorem witness_CrcAddAppendsCrc :
    Ready (setup hd Chan.reset [4#8, 4#8] []) 0 ∧ RangeOk (setup hd Chan.reset [4#8, 4#8] []) (.crcAdd 0) :=
  ⟨ready_setup _ _ _ (by decide) (by decide), by unfold RangeOk; decide⟩

theorem witness_CrcAddAppendsCrc_full_buffer :
    (Ready (unwritten 254#16) 0 ∧ RangeOk (unwritten 254#16) (.crcAdd 0))
      ∧ Ready (unwritten 255#16) 0 ∧ ¬RangeOk (unwritten 255#16) (.crcAdd 0) :=
  ⟨⟨ready_unwritten _ (by decide), by unfold RangeOk; decide⟩, ready_unwritten _ (by decide), by unfold RangeOk; decide⟩

theorem witness_CrcChkReportsVerdict : Ready (setup hd Chan.reset [0xFF#8, 0xFF#8] []) 0 :=
  ready_setup _ _ _ (by decide) (by decide)

theorem witness_CrcStripRemovesCrc :
    let s := fun t => setup hd Chan.reset t []
    Ready (s [0x71#8]) 0 ∧ Ready (s [0xFF#8, 0xFE#8]) 0 ∧ Ready (s [0xFF#8, 0xFF#8]) 0
      ∧ ((s []).handle 0).crcEn = true ∧ (operand (s [0x71#8])).length = 1
      ∧ (operand (s [0xFF#8, 0xFE#8])).length = 2 ∧ ¬CrcMatches (operand (s [0xFF#8, 0xFE#8]))
      ∧ operand (s [0xFF#8, 0xFF#8]) = [] ++ crcBytes (crc16 []) :=
  ⟨ready_setup _ _ _ (by decide) (by decide), ready_setup _ _ _ (by decide) (by decide),
    ready_setup _ _ _ (by decide) (by decide), by decide, by decide, by decide, not_crcMatches (by decide), by decide⟩

theorem witness_CrcStripRemovesCrc_disabled :
    let s := setup { hd with proto := 0#32 } Chan.reset [0x71#8] []
    Ready s 0 ∧ (s.handle 0).crcEn = false := ⟨ready_setup _ _ _ (by decide) (by decide), by decide⟩

theorem witness_AddedChecksumChecksAndStrips :
    let s := setup hd Chan.reset (octets "$01MD2") []
    let s0 := setup hd Chan.reset [] []
    (Ready s 0 ∧ operand s = (if (s.handle 0).sumEn then octets "$01M" ++ hex2 (sum8 (octets "$01M")) else octets "$01M"))
      ∧ Ready s0 0 ∧ RangeOk s0 (.sumAdd 0) ∧ (s0.handle 0).sumEn = true ∧ operand s0 = [] :=
  ⟨⟨ready_setup _ _ _ (by decide) (by decide), by decide⟩, ready_setup _ _ _ (by decide) (by decide),
    by unfold RangeOk; decide, by decide, by decide⟩

theorem witness_AddedCrcChecksAndStrips :
    let s := setup hd Chan.reset [0xFF#8, 0xFF#8] []
    Ready s 0 ∧ (s.handle 0).crcEn = true ∧ operand s = [] ++ crcBytes (crc16 []) :=
  ⟨ready_setup _ _ _ (by decide) (by decide), by decide, by decide⟩

/-- The first and the last bit of a sequence of two octets. -/
theorem witness_CrcChkDetectsEverySingleBitError :
    let s := fun i => setup hd Chan.reset (flipBit ([] ++ crcBytes (crc16 [])) i) []
    (Ready (s 0) 0 ∧ ((s 0).handle 0).crcEn = true ∧ 0 < 8 * (([] : Bytes).length + 2)
        ∧ operand (s 0) = flipBit ([] ++ crcBytes (crc16 [])) 0)
      ∧ Ready (s 15) 0 ∧ ((s 15).handle 0).crcEn = true ∧ 15 < 8 * (([] : Bytes).length + 2)
        ∧ operand (s 15) = flipBit ([] ++ crcBytes (crc16 [])) 15 :=
  ⟨⟨ready_setup _ _ _ (by decide) (by decide), by decide, by decide, by decide⟩,
    ready_setup _ _ _ (by decide) (by decide), by decide, by decide, by decide⟩

theorem witness_CrcChkDetectsEverySingleBitError_disabled :
    let s := setup { hd with proto := 0#32 } Chan.reset [0x71#8] []
    Ready s 0 ∧ (s.handle 0).crcEn = false := ⟨ready_setup _ _ _ (by decide) (by decide), by decide⟩

theorem witness_AscBuildSerialisesFrame :
    let s := setup hd { Chan.reset with arg0 := 0x24#16 } (octets "M") []
    Ready s 0 ∧ RangeOk s (.ascBuild 0) ∧ MarkerOk s 0 :=
  ⟨ready_setup _ _ _ (by decide) (by decide), by unfold RangeOk; decide, by unfold MarkerOk; decide⟩

/-- The last command length whose frame fits, the first whose does not, and the two ends of the illegal marker lengths. -/
theorem witness_AscBuildSerialisesFrame_bounds :
    (Ready (unwritten 250#16) 0 ∧ RangeOk (unwritten 250#16) (.ascBuild 0) ∧ MarkerOk (unwritten 250#16) 0)
      ∧ (Ready (unwritten 251#16) 0 ∧ ¬RangeOk (unwritten 251#16) (.ascBuild 0))
      ∧ ∀ n ∈ [0#5, 17#5], Ready (setup { hd with eolLen := n } Chan.reset [] []) 0
          ∧ RangeOk (setup { hd with eolLen := n } Chan.reset [] []) (.ascBuild 0)
          ∧ ¬MarkerOk (setup { hd with eolLen := n } Chan.reset [] []) 0 := by
  refine ⟨⟨ready_unwritten _ (by decide), by unfold RangeOk; decide, by unfold MarkerOk; decide⟩,
    ⟨ready_unwritten _ (by decide), by unfold RangeOk; decide⟩, fun n hn =>
    ⟨ready_setup _ _ _ (by decide) (by decide), ?_, ?_⟩⟩
  · unfold RangeOk
    revert n
    decide
  · unfold MarkerOk
    revert n
    decide

/-- The checksum clauses of the ASCII parse. -/
theorem witness_AscParseChecksReply_checksum :
    let s := fun t => setup hd Chan.reset (octets t) []
    Ready (s "5") 0 ∧ ((s "5").handle 0).sumEn = true ∧ (operand (s "5")).length < 2
      ∧ Ready (s "!1") 0 ∧ 2 ≤ (operand (s "!1")).length ∧ ¬SumMatches (operand (s "!1")) :=
  ⟨ready_setup _ _ _ (by decide) (by decide), by decide, by decide, ready_setup _ _ _ (by decide) (by decide), by decide,
    not_sumMatches (by decide)⟩

/-- Its content clauses: no octet left, a good separator without the address check, a short, a wrong and a right
address. -/
theorem witness_AscParseChecksReply_content :
    let s := fun t => setup hd Chan.reset (octets t) []
    let n := setup { hd with proto := 0#32 } Chan.reset (octets "~") []
    (Ready (s "00") 0 ∧ operand (s "00") = [] ++ hex2 (sum8 []))
      ∧ (Ready n 0 ∧ operand n = [0x7E#8] ∧ 0x7E#8 ∈ separators ∧ (n.handle 0).addrEn = false)
      ∧ (Ready (s "!051") 0 ∧ operand (s "!051") = octets "!0" ++ hex2 (sum8 (octets "!0"))
        ∧ ((s "!051").handle 0).addrEn = true)
      ∧ (Ready (s "!0283") 0 ∧ hexVal 0x30#8 0x32#8 ≠ some ((s "!0283").handle 0).addr.toNat)
      ∧ Ready (s "!0182") 0 ∧ operand (s "!0182") = octets "!01" ++ hex2 (sum8 (octets "!01"))
        ∧ hexVal 0x30#8 0x31#8 = some ((s "!0182").handle 0).addr.toNat :=
  ⟨⟨ready_setup _ _ _ (by decide) (by decide), by decide⟩,
    ⟨ready_setup _ _ _ (by decide) (by decide), by decide, by decide, by decide⟩,
    ⟨ready_setup _ _ _ (by decide) (by decide), by decide, by decide⟩,
    ⟨ready_setup _ _ _ (by decide) (by decide), by decide⟩,
    ready_setup _ _ _ (by decide) (by decide), by decide, by decide⟩

theorem witness_RtuBuildSerialisesFrame :
    (Ready (unwritten 252#16) 0 ∧ RangeOk (unwritten 252#16) (.rtuBuild 0))
      ∧ Ready (unwritten 253#16) 0 ∧ ¬RangeOk (unwritten 253#16) (.rtuBuild 0) :=
  ⟨⟨ready_unwritten _ (by decide), by unfold RangeOk; decide⟩, ready_unwritten _ (by decide), by unfold RangeOk; decide⟩

/-- The clauses of the binary parse, the CRC disabled for the content: no octet, no length octet, declared 1 with 0 and
with 1 left. -/
theorem witness_RtuParseChecksReply :
    let s := fun t => setup hd Chan.reset t []
    let n := fun t => setup { hd with proto := 1#32 } Chan.reset t []
    (Ready (s [0x71#8]) 0 ∧ ((s [0x71#8]).handle 0).crcEn = true ∧ (operand (s [0x71#8])).length < 2)
      ∧ (Ready (s [0#8, 0#8]) 0 ∧ 2 ≤ (operand (s [0#8, 0#8])).length ∧ ¬CrcMatches (operand (s [0#8, 0#8])))
      ∧ (Ready (s [0xFF#8, 0xFF#8]) 0 ∧ operand (s [0xFF#8, 0xFF#8]) = [] ++ crcBytes (crc16 []))
      ∧ ((n []).handle 0).crcEn = false
      ∧ (Ready (n [1#8, 4#8]) 0 ∧ operand (n [1#8, 4#8]) = ((n []).handle 0).addr :: [4#8])
      ∧ (Ready (n [1#8, 4#8, 1#8]) 0 ∧ operand (n [1#8, 4#8, 1#8]) = ((n []).handle 0).addr :: 4#8 :: 1#8 :: [])
      ∧ Ready (n [1#8, 4#8, 1#8, 9#8]) 0
      ∧ operand (n [1#8, 4#8, 1#8, 9#8]) = ((n []).handle 0).addr :: 4#8 :: 1#8 :: [9#8] :=
  ⟨⟨ready_setup _ _ _ (by decide) (by decide), by decide, by decide⟩,
    ⟨ready_setup _ _ _ (by decide) (by decide), by decide,
      not_crcMatches (by set_option maxRecDepth 4000 in decide)⟩,
    ⟨ready_setup _ _ _ (by decide) (by decide), by decide⟩, by decide,
    ⟨ready_setup _ _ _ (by decide) (by decide), by decide⟩,
    ⟨ready_setup _ _ _ (by decide) (by decide), by decide⟩, ready_setup _ _ _ (by decide) (by decide), by decide⟩

/-- Each of the nine transceiver commands, with the exact length and the delimiter each needs. -/
theorem witness_TransceiverCommandsWaitForLock :
    let s := setup hd chanND [0x41#8] []
    Shape s ∧ Ready s 0 ∧ PortOk s 0 ∧ MarkerOk s 0 ∧ ∀ e ∈ transceivers 0, RangeOk s e.1 := by
  refine ⟨⟨rfl, rfl, rfl⟩, ready_setup _ _ _ (by decide) (by decide), by unfold PortOk; decide, by unfold MarkerOk; decide, ?_⟩
  intro e he
  fin_cases he <;> simp only [RangeOk] <;> decide

theorem witness_AscReqWaitsWithFrame :
    let s := setup hd { Chan.reset with arg0 := 0x24#16 } (octets "M") []
    Shape s ∧ Ready s 0 ∧ RangeOk s (.ascReq 0) ∧ PortOk s 0 ∧ MarkerOk s 0 :=
  ⟨⟨rfl, rfl, rfl⟩, ready_setup _ _ _ (by decide) (by decide), by unfold RangeOk; decide, by unfold PortOk; decide,
    by unfold MarkerOk; decide⟩

theorem witness_RtuReqWaitsWithFrame :
    let s := setup hd { Chan.reset with arg0 := 4#16 } [0#8, 0#8, 0#8, 0x26#8] []
    Shape s ∧ Ready s 0 ∧ RangeOk s (.rtuReq 0) ∧ PortOk s 0 :=
  ⟨⟨rfl, rfl, rfl⟩, ready_setup _ _ _ (by decide) (by decide), by unfold RangeOk; decide, by unfold PortOk; decide⟩

theorem witness_CommandTouchesOwnChannelOnly :
    ∃ t, exec (.sumAdd 0) (setup hd Chan.reset (octets "M") []) = .next t := ⟨_, rfl⟩

/-! ### Steps of an exchange -/

/-- The grant of port 0 to channel 0, waiting with the snapshot `o` and the handle `h`. -/
theorem grantNext (h : Handle) (o : Op) (ho : o.port = 0) (openOk applyOk : Bool) :
    GrantNext { exchange .waitLock o line [] none 0 [.grant 0 0 openOk applyOk] with
      handles := h :: List.replicate 7 Handle.reset } [] 0 0 openOk applyOk :=
  ⟨rfl, (by decide : 0 < 4), (by decide : 0 < 4), rfl, List.mem_singleton.2 rfl, ho⟩

theorem witness_GrantFailuresEndInOrder :
    let s := fun h o a => waiting h [.grant 0 0 o a]
    (GrantNext (s { hd with baud := 0#32 } true true) [] 0 0 true true
        ∧ (grantLine (s { hd with baud := 0#32 } true true) 0).baud = 0#32)
      ∧ (GrantNext (s { hd with frame := 9#32 } true true) [] 0 0 true true
        ∧ (grantLine (s { hd with frame := 9#32 } true true) 0).data = 9#4)
      ∧ (GrantNext (s { hd with frame := 0x58#32 } true true) [] 0 0 true true
        ∧ (grantLine (s { hd with frame := 0x58#32 } true true) 0).parity = 5#3)
      ∧ GrantNext (s { hd with frame := 0x47#32 } false true) [] 0 0 false true
      ∧ (grantLine (s { hd with frame := 0x47#32 } false true) 0).parity = 4#3
      ∧ GrantNext (s hd true false) [] 0 0 true false :=
  ⟨⟨grantNext _ _ rfl _ _, by decide⟩, ⟨grantNext _ _ rfl _ _, by decide⟩, ⟨grantNext _ _ rfl _ _, by decide⟩,
    grantNext _ _ rfl _ _, by decide, grantNext _ _ rfl _ _⟩

theorem witness_GrantStartsWrite :
    let s := waiting hd [.grant 0 0 true true]
    GrantNext s [] 0 0 true true ∧ LineOk (grantLine s 0) ∧ (s.chan 0).op.hasWrite = true :=
  ⟨grantNext _ _ rfl _ _, ⟨by decide, .inr (by decide), by decide⟩, by decide⟩

/-- A waiting RN of 0 and of 1 octets. -/
theorem witness_GrantWithoutWriteStartsRead :
    let s := fun n => exchange .waitLock { op 0x32#8 .n false [] with n := n } line [] none 0 [.grant 0 0 true true]
    (∀ n, GrantNext (s n) [] 0 0 true true ∧ ((s n).chan 0).op.hasWrite = false ∧ ((s n).chan 0).op.mode = .n
        ∧ ((s n).chan 0).op.n = n ∧ ((s n).chan 0).op.reply = .plain)
      ∧ LineOk (grantLine (s 0) 0) ∧ LineOk (grantLine (s 1) 0) :=
  ⟨fun _ => ⟨⟨rfl, (by decide : 0 < 4), (by decide : 0 < 4), rfl, List.mem_singleton.2 rfl, rfl⟩, rfl, rfl, rfl, rfl⟩,
    ⟨by decide, .inr (by decide), by decide⟩, by decide, .inr (by decide), by decide⟩

/-- The end of WRITE of a WR, of an XQ and of an XN of 0 octets, and the nanosecond before it; the draw may be either. -/
theorem witness_WriteDeadlineEndsPhase (writeOk : Bool) :
    let s := fun o now => exchange .write o line [] none now [.deadline 0 writeOk]
    ∀ o, o.port = 0 → (∀ now, DeadlineNext (s o now) [] 0 writeOk ∧ ((s o now).chan 0).phase = .write)
      ∧ (s o 2000).now = ((s o 2000).chan 0).tEnd ∧ ((s o 2000).chan 0).op = o
      ∧ (s o 1999).now ≠ ((s o 1999).chan 0).tEnd := fun o ho =>
  ⟨fun _ => ⟨⟨rfl, (by decide : 0 < 4), by
    show o.port < 4
    omega⟩, rfl⟩, rfl, rfl, (by decide : 1999 ≠ 2000)⟩

theorem witness_WriteDeadlineEndsPhase_modes :
    (op 0x20#8 .w true []).port = 0 ∧ (op 0x21#8 .q true []).mode ≠ .w
      ∧ (op 0x22#8 .n true []).mode = .n ∧ (op 0x22#8 .n true []).n = 0 ∧ (op 0x22#8 .n true []).reply = .plain := by decide

theorem witness_SettleDeadlineCompletesWrite :
    let s := fun now => exchange .settle (op 0x20#8 .w true []) line [] none now [.deadline 0 true]
    (∀ now, DeadlineNext (s now) [] 0 true ∧ ((s now).chan 0).phase = .settle)
      ∧ (s 2000).now = ((s 2000).chan 0).tEnd ∧ ((s 2000).chan 0).op.reply = .plain
      ∧ (s 1999).now ≠ ((s 1999).chan 0).tEnd :=
  ⟨fun _ => ⟨⟨rfl, (by decide : 0 < 4), (by decide : 0 < 4)⟩, rfl⟩, rfl, rfl, by decide⟩

/-- Silence exactly as long as the quiet interval, in modes Q and N. -/
theorem witness_ReadDeadlineEndsExchange_quiet (m : Mode) (hm : m = .q ∨ m = .n) :
    let s := exchange .read (op 0x21#8 m true []) line [0x41#8] (some 2500) 5500 [.deadline 0 true]
    DeadlineNext s [] 0 true ∧ (s.chan 0).phase = .read ∧ QuietElapsed s (s.chan 0) ∧ (s.chan 0).op.mode = m
      ∧ (s.chan 0).op.reply = .plain :=
  ⟨⟨rfl, (by decide : 0 < 4), (by decide : 0 < 4)⟩, rfl, ⟨hm, List.cons_ne_nil _ _, 2500, rfl, le_refl 5500⟩, rfl, rfl⟩

/-- The timeout reached exactly, with no octet. -/
theorem witness_ReadDeadlineEndsExchange_timeout :
    let s := exchange .read (op 0x21#8 .q true []) { line with timeout := some 1000000 } [] none 1002000 [.deadline 0 true]
    DeadlineNext s [] 0 true ∧ (s.chan 0).phase = .read ∧ TimeoutElapsed s (s.chan 0) ∧ ¬QuietElapsed s (s.chan 0) :=
  ⟨⟨rfl, by decide, by decide⟩, rfl, ⟨1000000, rfl, by decide⟩, fun h => h.2.1 rfl⟩

/-- One nanosecond before silence and before the timeout, neither has elapsed. -/
theorem witness_ReadDeadlineEndsExchange_early :
    let s := exchange .read (op 0x21#8 .q true []) { line with timeout := some 1000000 } [0x41#8] (some 2500) 5499
      [.deadline 0 true]
    DeadlineNext s [] 0 true ∧ (s.chan 0).phase = .read ∧ ¬QuietElapsed s (s.chan 0) ∧ ¬TimeoutElapsed s (s.chan 0) := by
  refine ⟨⟨rfl, by decide, by decide⟩, rfl, ?_, ?_⟩
  · rintro ⟨-, -, l, hl, hle⟩
    obtain rfl : 2500 = l := Option.some.inj hl
    exact absurd (show 5500 ≤ 5499 from hle) (by decide)
  · rintro ⟨d, hd, hle⟩
    obtain rfl : 1000000 = d := Option.some.inj hd
    exact absurd (show 1002000 ≤ 5499 from hle) (by decide)

/-- An octet in WRITE one nanosecond before T_END, and one on a free port. -/
theorem witness_OctetOutsideReadIsLost :
    let s := exchange .write (op 0x21#8 .q true [0x41#8]) line [] none 1999 [.rx 0 0xEE#8 true]
    let f := setup hd Chan.reset [] [.rx 3 0xEE#8 true]
    (s.sched = .rx 0 0xEE#8 true :: [] ∧ 0 < s.ports.length
        ∧ ∀ c, (s.port 0).owner = some c →
            ((s.chan c).phase ≠ .read ∨ (s.chan c).watch = false) ∧ ¬DeadlineDue s (s.chan c))
      ∧ f.sched = .rx 3 0xEE#8 true :: [] ∧ 3 < f.ports.length ∧ (f.port 3).owner = none := by
  refine ⟨⟨rfl, by decide, fun c hc => ?_⟩, rfl, by decide, rfl⟩
  obtain rfl : 0 = c := Option.some.inj hc
  refine ⟨.inl (by decide), ?_⟩
  rintro (⟨-, h⟩ | ⟨h, -⟩)
  · exact absurd (show 1999 = 2000 from h) (by decide)
  · exact Phase.noConfusion h

/-- An octet for channel 0 in READ before its quiet deadline. -/
theorem octetNext (o : Op) (ho : o.port = 0) (hw : o.mode ≠ .w) (acc : Bytes) (b : Byte) :
    OctetNext (exchange .read o line acc (some 2500) 2600 [.rx 0 b true]) [] 0 0 b := by
  refine ⟨⟨true, rfl⟩, (by decide : 0 < 4), (by decide : 0 < 4), rfl, ho, rfl, ?_, ?_, ?_⟩
  · exact decide_eq_true hw
  · rintro ⟨-, -, l, hl, hle⟩
    obtain rfl : 2500 = l := Option.some.inj hl
    exact absurd (show 5500 ≤ 2600 from hle) (by decide)
  · rintro ⟨d, hd, -⟩
    exact Option.noConfusion rfl (heq_of_eq hd)

theorem witness_OctetExtendsFrame :
    let s := exchange .read (op 0x23#8 .d true []) line [] (some 2500) 2600 [.rx 0 0x41#8 true]
    OctetNext s [] 0 0 0x41#8 ∧ (s.chan 0).acc.length ≠ s.cfg.bufBytes
      ∧ ¬FrameEnds (s.chan 0) ((s.chan 0).acc ++ [0x41#8]) := by
  refine ⟨octetNext _ rfl (by decide) _ _, by decide, ?_⟩
  rintro (h | h | h)
  · exact absurd h.1 (by decide)
  · exact absurd h.2 (by decide)
  · exact absurd h.1 (by decide)

theorem witness_ExactLengthEndsOnLastOctet :
    let s := exchange .read { op 0x22#8 .n true [] with n := 1 } line [] (some 2500) 2600 [.rx 0 0x41#8 true]
    OctetNext s [] 0 0 0x41#8 ∧ (s.chan 0).acc.length ≠ s.cfg.bufBytes ∧ (s.chan 0).op.mode = .n
      ∧ (s.chan 0).op.reply = .plain ∧ (s.chan 0).acc.length + 1 = (s.chan 0).op.n :=
  ⟨octetNext _ rfl (by decide) _ _, by decide, rfl, rfl, rfl⟩

/-- The delimiter and the marker, each completed by one octet, with no octet before it. -/
theorem witness_DelimiterEndsFrame :
    let d := exchange .read (op 0x23#8 .d true []) line [] (some 2500) 2600 [.rx 0 0x3B#8 true]
    let l := exchange .read (op 0x24#8 .l true []) line [] (some 2500) 2600 [.rx 0 0x0D#8 true]
    (OctetNext d [] 0 0 0x3B#8 ∧ (d.chan 0).acc.length ≠ d.cfg.bufBytes ∧ (d.chan 0).op.reply = .plain
        ∧ (d.chan 0).op.mode = .d ∧ (d.chan 0).acc ++ [0x3B#8] = [] ++ (d.chan 0).op.delim)
      ∧ OctetNext l [] 0 0 0x0D#8 ∧ (l.chan 0).acc.length ≠ l.cfg.bufBytes ∧ (l.chan 0).op.reply = .plain
        ∧ (l.chan 0).op.mode = .l ∧ (l.chan 0).acc ++ [0x0D#8] = [] ++ (l.chan 0).op.eolSeq :=
  ⟨⟨octetNext _ rfl (by decide) _ _, by decide, rfl, rfl, rfl⟩, octetNext _ rfl (by decide) _ _, by decide, rfl, rfl, rfl⟩

theorem witness_OverflowEndsExchange :
    let s := exchange .read (op 0x21#8 .q true []) line (List.replicate 256 0#8) (some 2500) 2600 [.rx 0 1#8 true]
    OctetNext s [] 0 0 1#8 ∧ (s.chan 0).acc.length = s.cfg.bufBytes :=
  ⟨octetNext _ rfl (by decide) _ _, List.length_replicate⟩

/-- An octet at the instant of silence in READ, and one at the instant T_END of a WRITE and of a SETTLE. -/
theorem witness_DeadlineFiresBeforeOctet :
    let r := xqRead 5500 [.rx 0 0x42#8 true]
    let w := fun ph => exchange ph (op 0x20#8 .w true []) line [] none 2000 [.rx 0 0x42#8 false]
    (r.sched = .rx 0 0x42#8 true :: [] ∧ 0 < r.ports.length ∧ 0 < r.chans.length ∧ (r.port 0).owner = some 0
        ∧ DeadlineDue r (r.chan 0) ∧ (r.chan 0).watch = true)
      ∧ ∀ ph, ph = .write ∨ ph = .settle → (w ph).sched = .rx 0 0x42#8 false :: [] ∧ 0 < (w ph).ports.length
        ∧ 0 < (w ph).chans.length ∧ ((w ph).port 0).owner = some 0 ∧ DeadlineDue (w ph) ((w ph).chan 0)
        ∧ ((w ph).chan 0).phase ≠ .read := by
  refine ⟨⟨rfl, by decide, by decide, rfl, .inr ⟨rfl, .inl ⟨.inl rfl, List.cons_ne_nil _ _, 2500, rfl, le_refl 5500⟩⟩, rfl⟩,
    ?_⟩
  rintro _ (rfl | rfl)
  · exact ⟨rfl, by decide, by decide, rfl, .inl ⟨.inl rfl, rfl⟩, Phase.noConfusion⟩
  · exact ⟨rfl, by decide, by decide, rfl, .inl ⟨.inr rfl, rfl⟩, Phase.noConfusion⟩

/-- A reply that parses and one that does not, for each of the two request commands. -/
theorem witness_RequestReplyIsParsed_ascii :
    let s := fun t =>
      exchange .read { op 0x42#8 .l true [] with reply := .ascii } line (octets t) (some 2500) 2600 [.rx 0 0x0D#8 true]
    (∀ t, OctetNext (s t) [] 0 0 0x0D#8 ∧ ((s t).chan 0).op.reply = .ascii ∧ ((s t).chan 0).op.mode = .l
        ∧ ((s t).chan 0).acc ++ [0x0D#8] = octets t ++ ((s t).chan 0).op.eolSeq)
      ∧ (octets "!0182").length ≠ 256 ∧ ascParse 1#8 true true (octets "!0182") = .ok ⟨0x21#8, []⟩
      ∧ ascParse 1#8 true true (octets "!0183") = .error .sumMismatch :=
  ⟨fun _ => ⟨octetNext _ rfl (by decide) _ _, rfl, rfl, rfl⟩, by decide, by decide, by decide⟩

theorem witness_RequestReplyIsParsed_binary :
    let s := exchange .read { op 0x4A#8 .q true [] with reply := .binary } line [0xFF#8, 0xFF#8] (some 2500) 5500
      [.deadline 0 true]
    DeadlineNext s [] 0 true ∧ (s.chan 0).phase = .read ∧ QuietElapsed s (s.chan 0) ∧ (s.chan 0).op.mode = .q
      ∧ (s.chan 0).op.reply = .binary ∧ rtuParse 1#8 true (s.chan 0).acc = .error .badAddress
      ∧ rtuParse 1#8 false [1#8, 4#8, 0#8] = .ok ⟨4#8, []⟩ :=
  ⟨⟨rfl, by decide, by decide⟩, rfl, ⟨.inl rfl, List.cons_ne_nil _ _, 2500, rfl, le_refl 5500⟩, rfl, rfl, by decide,
    by decide⟩

/-- The clock just reaches the quiet deadline, and one nanosecond past it. -/
theorem witness_ClockStopsAtDeadlines :
    let s := xqRead 2500 [.advance 5500]
    (s.now < 5500 ∧ (∀ ch ∈ s.chans, ch.due s.now = false) ∧ (∀ pt ∈ s.ports, pt.owner = none → pt.waiters = [])
        ∧ ∀ ch ∈ s.chans, ∀ d ∈ ch.deadlines, 5500 ≤ d)
      ∧ ¬∀ ch ∈ (xqRead 2500 [.advance 5501]).chans, ∀ d ∈ ch.deadlines, 5501 ≤ d := by decide

/-! ### The bus -/

theorem witness_BusErrorChangesNothing :
    (2 ≠ 4 ∨ (0x8000#16).toNat % 4 ≠ 0) ∧ (4 ≠ 4 ∨ (0x8001#16).toNat % 4 ≠ 0) := by decide

/-- The ends of every reserved range of the reference instance. -/
theorem witness_ReservedAndReadOnlyAddresses :
    ∀ a ∈ [0x8, 0xFC, 0x200, 0xFFC, 0x102C, 0x103C, 0x1200, 0x7FFC, 0xC000, 0xFFFC, 0x802C, 0x83FC, 0x8500, 0x87FC, 0x8900,
        0x8BFC, 0x8C00, 0x8FFC], ReservedAddress Config.reference (BitVec.ofNat 16 a).toNat := by
  unfold ReservedAddress
  decide

/-- ID, PARAMS, the ends of PORT_STATUS, the read-only registers of channel 0 and the ends of RXBUF. -/
theorem witness_ReservedAndReadOnlyAddresses_readOnly :
    ∀ a ∈ [0x0, 0x4, 0x100, 0x1FC, 0x8004, 0x800C, 0x8028, 0x8800, 0x88FC, 0xB8FC],
      ReadOnlyAddress Config.reference (BitVec.ofNat 16 a).toNat := by
  unfold ReadOnlyAddress
  decide

/-- The ends of the port range; port 3 is present and free, ports 4 and 63 are absent. -/
theorem witness_GlobalRegistersReadOnly :
    Config.reference.wf = true ∧ (∀ a ∈ [0, 4, 0x100, 0x1FC], (a = 0 ∨ a = 4 ∨ 0x100 ≤ a ∧ a < 0x200) ∧ a % 4 = 0)
      ∧ 3 < State.reset.cfg.nport ∧ State.reset.cfg.nport ≤ 4 ∧ 63 < 64 ∧ (State.reset.port 3).owner = none := by decide

theorem witness_GlobalRegistersReadOnly_owned :
    let s := xqRead 2500 []
    0 < s.cfg.nport ∧ (∀ c, (s.port 0).owner = some c → c < 8) ∧ (s.port 0).dir = .rx := by
  refine ⟨by decide, fun c hc => ?_, rfl⟩
  obtain rfl : 0 = c := Option.some.inj hc
  decide

/-- The first and the last slot, and every register. -/
theorem witness_HandleRegistersStoreTheirBits (h : Nat) (hh : h = 0 ∨ h = 7) (e : Nat × HandleReg × Word)
    (_ : e ∈ handleMap) (v : Word) :
    let s := { State.reset with
      sched := [.hostWrite (handleAddress h e.1) 4 v, .hostRead (handleAddress h e.1) 4] }
    s.cfg.wf = true ∧ Shape s ∧ h < s.cfg.nhandle :=
  ⟨test_params_wf_reference, ⟨rfl, rfl, rfl⟩, by
    show h < 8
    omega⟩

/-- The first and the last channel, and every operand register. -/
theorem witness_OperandRegistersStoreTheirBits (c : Nat) (hc : c = 0 ∨ c = 3) (e : Nat × ChanReg × Word)
    (_ : e ∈ operandMap) (v : Word) :
    let s := { State.reset with sched := [.hostWrite (chanAddress c e.1) 4 v, .hostRead (chanAddress c e.1) 4] }
    s.cfg.wf = true ∧ Shape s ∧ c < s.cfg.nchan ∧ (s.chan c).busy = false := by
  rcases hc with rfl | rfl <;> exact ⟨test_params_wf_reference, ⟨rfl, rfl, rfl⟩, by
    show _ < 4
    omega, rfl⟩

theorem witness_OperandWritesIgnoredWhileBusy :
    let s := xqRead 2500 []
    s.cfg.wf = true ∧ 0 < s.cfg.nchan ∧ (s.chan 0).busy = true ∧ 0x08 ∈ operandMap.map (·.1)
      ∧ (∀ off ∈ [0x400, 0x4FC], 0x400 ≤ off ∧ off < 0x400 + s.cfg.bufBytes ∧ off % 4 = 0) := by decide

/-- The first and the last word of TXBUF. -/
theorem witness_TxBufferWordReadsBack (k : Nat) (hk : k = 0 ∨ k = 252) (v : Word) :
    let s := { State.reset with
      sched := [.hostWrite (chanAddress 0 (0x400 + k)) 4 v, .hostRead (chanAddress 0 (0x400 + k)) 4] }
    s.cfg.wf = true ∧ 0 < s.cfg.nchan ∧ (s.chan 0).busy = false ∧ k % 4 = 0 ∧ k < s.cfg.bufBytes := by
  have hk' : k % 4 = 0 ∧ k < 256 := by omega
  exact ⟨test_params_wf_reference, (by decide : 0 < 4), rfl, hk'.1, hk'.2⟩

theorem witness_StatusFieldsReadable :
    let s := { xqRead 2500 [] with sched := [.hostRead (chanAddress 0 4) 4] }
    s.cfg.wf = true ∧ 0 < s.cfg.nchan ∧ (s.chan 0).phase = .read := ⟨by decide, by decide, rfl⟩

/-- Every register of a channel that is not busy, and of a busy one; the first and the last offset of the window. -/
theorem witness_ChannelRegistersReadable (off : Nat) (ho : off ∈ [0x000, 0x008, 0x00C, 0x024, 0x028, 0x400, 0xFFC]) :
    let e := [Event.hostRead (chanAddress 0 off) 4]
    let s := setup hd { Chan.reset with done := true } [0x41#8] e
    let t := xqRead 2500 e
    (off % 4 = 0 ∧ off < 0x1000)
      ∧ (s.cfg.wf = true ∧ 0 < s.cfg.nchan ∧ s.sched = .hostRead (chanAddress 0 off) 4 :: [] ∧ (s.chan 0).busy = false
        ∧ s.byte? (txAddr 0 0) = some 0x41#8)
      ∧ t.cfg.wf = true ∧ 0 < t.cfg.nchan ∧ t.sched = .hostRead (chanAddress 0 off) 4 :: [] ∧ (t.chan 0).busy = true :=
  ⟨by revert off; decide, ⟨test_params_wf_reference, (by decide : 0 < 4), rfl, rfl, by
    show Memory.read? (Memory.writeBytes [] (txAddr 0 0) [0x41#8]) (txAddr 0 0) = _
    decide⟩, test_params_wf_reference, (by decide : 0 < 4), rfl,
    rfl⟩

/-- The last word of an output of 5 octets, filled in part. -/
theorem witness_ChannelRegistersReadable_output :
    let s := { setup hd { Chan.reset with rxlen := 5#16, done := true } [] [.hostRead (chanAddress 0 0x804) 4] with
      mem := Memory.writeBytes [] (rxAddr 0 0) (octets "$01MD") }
    s.cfg.wf = true ∧ 0 < s.cfg.nchan ∧ 0x804 % 4 = 0 ∧ (s.chan 0).busy = false ∧ 0x804 = 0x800 + 4
      ∧ 4 + 0 < (s.chan 0).rxlen.toNat ∧ 4 + 0 < s.cfg.bufBytes ∧ s.byte? (rxAddr 0 (4 + 0)) = some 0x44#8 :=
  ⟨by decide, by decide, rfl, rfl, rfl, by decide, by decide, by decide⟩

/-! ### Reset, the invariants and the rules of the whole machine -/

theorem witness_ResetInputRestoresReset :
    (xqRead 2500 [.reset]).sched = .reset :: [] ∧ Shape (xqRead 2500 [.reset]) := ⟨rfl, rfl, rfl, rfl⟩

/-- A state in which channel 0 has an exchange meets what the ports' invariant asks, if each part of it does. -/
theorem serialised_of {s : State}
    (hp : ∀ p < s.ports.length,
      ((s.port p).owner = none → (s.port p).opened = false ∧ (s.port p).dir = .idle)
        ∧ (∀ c ∈ (s.port p).owner.toList, c < s.chans.length ∧ (s.chan c).op.port = p ∧ (s.port p).opened = true
          ∧ (((s.chan c).phase = .write ∨ (s.chan c).phase = .settle) ∧ (s.port p).dir = .tx
                ∧ ((s.chan c).op.mode ≠ .w → (s.chan c).watch = true)
              ∨ (s.chan c).phase = .read ∧ (s.port p).dir = .rx ∧ (s.chan c).watch = true))
        ∧ (s.port p).waiters.Pairwise (· < ·)
        ∧ ∀ c ∈ (s.port p).waiters, c < s.chans.length ∧ (s.chan c).phase = .waitLock ∧ (s.chan c).op.port = p)
    (hc : ∀ c < s.chans.length,
      (holding (s.chan c).phase = true →
          (s.chan c).op.port < s.ports.length ∧ (s.port (s.chan c).op.port).owner = some c)
        ∧ ((s.chan c).phase = .waitLock →
          (s.chan c).op.port < s.ports.length ∧ c ∈ (s.port (s.chan c).op.port).waiters)) : Serialised s :=
  ⟨fun p h => ⟨(hp p h).1, fun c hco => (hp p h).2.1 c (by rw [hco]; exact List.mem_singleton.2 rfl), (hp p h).2.2.1,
    (hp p h).2.2.2⟩, hc⟩

/-- An XQ in READ with one octet, its quiet deadline reached: all the invariants hold, and its end is a step. -/
theorem xqRead_good :
    let s := xqRead 5500 [.deadline 0 true]
    s.cfg.wf = true ∧ Shape s ∧ BusyOk s ∧ Serialised s ∧ DeadlinesAhead s ∧ ErrorsOk s ∧ FitsBuffers s ∧ ReservedZero s
      ∧ Canonical s ∧ step s = .next (after s) ∧ after s ≠ s := by
  refine ⟨by decide, ⟨rfl, rfl, rfl⟩, by unfold BusyOk; decide, serialised_of (by decide) (by decide),
    by unfold DeadlinesAhead; decide, by unfold ErrorsOk; decide, by unfold FitsBuffers; decide,
    by unfold ReservedZero; decide, ⟨List.Pairwise.nil, fun e he => nomatch he⟩, rfl, by decide⟩

theorem witness_StepKeepsMemoryCanonical :
    ∃ s t : State, s.cfg.wf = true ∧ Shape s ∧ FitsBuffers s ∧ Canonical s ∧ step s = .next t ∧ t.mem ≠ s.mem :=
  ⟨_, _, xqRead_good.1, xqRead_good.2.1, xqRead_good.2.2.2.2.2.2.1, xqRead_good.2.2.2.2.2.2.2.2.1,
    xqRead_good.2.2.2.2.2.2.2.2.2.1, by decide⟩

theorem witness_StepKeepsReservedBitsZero :
    let s := { State.reset with sched := [.hostWrite 0x1008#16 4 0xFFFFFFFF#32] }
    ReservedZero s ∧ step s = .next (after s) ∧ after s ≠ s := ⟨by unfold ReservedZero; decide, rfl, by decide⟩

theorem witness_StepKeepsPortsSerialised :
    ∃ s t : State, Shape s ∧ BusyOk s ∧ Serialised s ∧ step s = .next t ∧ t.ports ≠ s.ports :=
  ⟨_, _, xqRead_good.2.1, xqRead_good.2.2.1, xqRead_good.2.2.2.1, xqRead_good.2.2.2.2.2.2.2.2.2.1, by decide⟩

theorem witness_StepKeepsDeadlinesAhead :
    let s := xqRead 2500 [.advance 5500]
    DeadlinesAhead s ∧ step s = .next (after s) ∧ (after s).now = 5500 := ⟨by unfold DeadlinesAhead; decide, rfl, by decide⟩

theorem witness_StepKeepsErrorRecords :
    let s := issue hd Chan.reset 0x13#32 []
    ErrorsOk s ∧ step s = .next (after s) ∧ ((after s).chan 0).err = 5#4 := ⟨by unfold ErrorsOk; decide, rfl, by decide⟩

theorem witness_StepKeepsLengthsInBuffer :
    ∃ s t : State, FitsBuffers s ∧ step s = .next t ∧ (t.chan 0).rxlen = 1#16 :=
  ⟨_, _, xqRead_good.2.2.2.2.2.2.1, xqRead_good.2.2.2.2.2.2.2.2.2.1, by decide⟩

theorem witness_PhaseTransitionsAreComplete :
    let s := xqRead 5500 [.deadline 0 true]
    Shape s ∧ BusyOk s ∧ Serialised s ∧ s.sched = .deadline 0 true :: [] ∧ Event.deadline 0 true ≠ .reset
      ∧ step s = .next (after s) ∧ ((after s).chan 0).phase ≠ (s.chan 0).phase :=
  ⟨xqRead_good.2.1, xqRead_good.2.2.1, xqRead_good.2.2.2.1, rfl, by decide, rfl, by decide⟩

/-- Out of IDLE on a CMD write, and out of READ on the octet that completes a marker. -/
theorem witness_PhaseTransitionsAreComplete_causes :
    let s := issue hd Chan.reset 0x31#32 []
    let r := exchange .read (op 0x24#8 .l true []) line [0x21#8] (some 2500) 2600 [.rx 0 0x0D#8 true]
    (Shape s ∧ BusyOk s ∧ Serialised s ∧ s.sched = .hostWrite 0x8000#16 4 0x31#32 :: [] ∧ (s.chan 0).phase = .idle
        ∧ step s = .next (after s) ∧ ((after s).chan 0).phase = .waitLock)
      ∧ Shape r ∧ BusyOk r ∧ Serialised r ∧ r.sched = .rx 0 0x0D#8 true :: [] ∧ (r.chan 0).phase = .read
        ∧ step r = .next (after r) ∧ ((after r).chan 0).phase = .idle :=
  ⟨⟨⟨rfl, rfl, rfl⟩, by unfold BusyOk; decide, serialised_of (by decide) (by decide), rfl, rfl, rfl, by decide⟩,
    ⟨rfl, rfl, rfl⟩, by unfold BusyOk; decide, serialised_of (by decide) (by decide), rfl, rfl, rfl, by decide⟩

theorem witness_QuietFrameEndsOnSilence :
    let s := xqRead 5500 [.deadline 0 true]
    Shape s ∧ BusyOk s ∧ Serialised s ∧ DeadlinesAhead s ∧ 0 < s.chans.length ∧ (s.chan 0).phase = .read
      ∧ (s.chan 0).op.mode = .q ∧ (s.chan 0).done = false ∧ step s = .next (after s)
      ∧ ((after s).chan 0).done = true ∧ ((after s).chan 0).err = 0#4 :=
  ⟨xqRead_good.2.1, xqRead_good.2.2.1, xqRead_good.2.2.2.1, xqRead_good.2.2.2.2.1, by decide, rfl, rfl, rfl, rfl, by decide,
    by decide⟩

theorem witness_QuietFrameEndsOnSilence_timeout :
    let s := exchange .read (op 0x21#8 .q true []) { line with timeout := some 1000000 } [] none 1002000 [.deadline 0 true]
    Shape s ∧ BusyOk s ∧ Serialised s ∧ DeadlinesAhead s ∧ step s = .next (after s) ∧ ((after s).chan 0).done = true
      ∧ ((after s).chan 0).err = 1#4 ∧ ((after s).chan 0).sub = 4#8 :=
  ⟨⟨rfl, rfl, rfl⟩, by unfold BusyOk; decide, serialised_of (by decide) (by decide), by unfold DeadlinesAhead; decide, rfl,
    by decide, by decide, by decide⟩

/-- T11: a short read in mode N. -/
theorem witness_QuietFrameEndsOnSilence_short :
    let s := exchange .read { op 0x22#8 .n true [] with n := 4 } line [1#8] (some 2500) 5500 [.deadline 0 true]
    Shape s ∧ BusyOk s ∧ Serialised s ∧ DeadlinesAhead s ∧ (s.chan 0).done = false ∧ step s = .next (after s)
      ∧ ((after s).chan 0).done = true ∧ ((after s).chan 0).err = 1#4 ∧ ((after s).chan 0).sub = 5#8 :=
  ⟨⟨rfl, rfl, rfl⟩, by unfold BusyOk; decide, serialised_of (by decide) (by decide), by unfold DeadlinesAhead; decide, rfl,
    rfl, by decide, by decide, by decide⟩

/-- T9: no timeout, no octet, and the clock far ahead. -/
theorem witness_UnboundedReadWaits :
    let s := exchange .read (op 0x21#8 .q true []) line [] none 2000 [.advance 1000000000]
    Shape s ∧ BusyOk s ∧ Serialised s ∧ 0 < s.chans.length ∧ (s.chan 0).phase = .read ∧ (s.chan 0).line.timeout = none
      ∧ (s.chan 0).acc = [] ∧ s.sched = .advance 1000000000 :: [] ∧ step s = .next (after s) :=
  ⟨⟨rfl, rfl, rfl⟩, by unfold BusyOk; decide, serialised_of (by decide) (by decide), by decide, rfl, rfl, rfl, rfl, rfl⟩

theorem witness_TransceiverErrorClasses :
    let s := exchange .read (op 0x22#8 .n true []) line [1#8] (some 2500) 5500 [.deadline 0 true]
    Shape s ∧ BusyOk s ∧ Serialised s ∧ 0 < s.chans.length ∧ (s.chan 0).busy = true ∧ (s.chan 0).op.reply = .plain
      ∧ s.sched = .deadline 0 true :: [] ∧ step s = .next (after s) ∧ ((after s).chan 0).done = true
      ∧ (s.chan 0).done = false :=
  ⟨⟨rfl, rfl, rfl⟩, by unfold BusyOk; decide, serialised_of (by decide) (by decide), by decide, rfl, rfl, rfl, rfl, by decide,
    rfl⟩

theorem witness_HandlesChangeOnlyByHost :
    let s := { State.reset with sched := [.hostWrite 0x1004#16 4 9600#32] }
    step s = .next (after s) ∧ (after s).handles ≠ s.handles := ⟨rfl, by decide⟩

end Sys2Proof.Tests
end

section
/-! PROOF. One host access as one step of the machine: what the schedule's head does when it is a read, or a write that
issues no command (20_memory.md R62, R63). -/

namespace Sys2Proof.Machine

/-- A host access as wide and as aligned as R63 asks. -/
theorem busAccessOk_word {addr : BitVec 16} (ha : addr.toNat % 4 = 0) : busAccessOk addr 4 = true := by
  simp [busAccessOk, ha]

/-- A write that does not name a `CMD` register issues nothing (R22). -/
theorem issued?_hostWrite_eq_none {p : Config.Params} {addr : BitVec 16} (width : Nat) (v : Word)
    (ht : ∀ c, targetAt p addr ≠ .chanReg c .cmd) : issued? p (.hostWrite addr width v) = none := by
  unfold issued?
  dsimp only
  split
  · split
    · exact absurd ‹_› (ht _)
    · rfl
  · rfl

/-- What a target reads does not depend on the schedule. -/
@[simp] theorem State.readTarget_setSched (s : State) (l : List Event) (t : Target) :
    (s.setSched l).readTarget t = s.readTarget t := by
  cases t <;> rfl

/-- A step is the step of the schedule's first entry. -/
theorem step_of_sched {s : State} {e : Event} {rest : List Event} (hs : s.sched = e :: rest) :
    step s = (s.setSched rest).run e := by
  rw [step, hs]

/-- An entry that issues no command is a step of its agent. -/
theorem State.run_of_issued?_none {s : State} {e : Event} (hi : issued? s.cfg e = none) : s.run e = s.agentStep e := by
  rw [State.run, hi]

/-- An aligned 32-bit read answers the target's word and draws free values; nothing else changes (R63). -/
theorem step_hostRead_word {s : State} {rest : List Event} {addr : BitVec 16}
    (hs : s.sched = .hostRead addr 4 :: rest) (ha : addr.toNat % 4 = 0) :
    step s = .next { s with sched := rest, resp := .data (s.readTarget (targetAt s.cfg addr)), free := s.free + 4 } := by
  rw [step_of_sched hs, State.run_of_issued?_none rfl, State.agentStep, State.hostRead, if_pos (busAccessOk_word ha),
    State.readTarget_setSched]
  rfl

/-- An aligned 32-bit write that issues no command writes its target and is acknowledged (R63). -/
theorem step_hostWrite_word {s : State} {rest : List Event} {addr : BitVec 16} {v : Word}
    (hs : s.sched = .hostWrite addr 4 v :: rest) (ha : addr.toNat % 4 = 0)
    (ht : ∀ c, targetAt s.cfg addr ≠ .chanReg c .cmd) :
    step s = .next (((s.setSched rest).writeTarget (targetAt s.cfg addr) v).setResp .ack) := by
  have hi : issued? (s.setSched rest).cfg (.hostWrite addr 4 v) = none := issued?_hostWrite_eq_none 4 v ht
  rw [step_of_sched hs, State.run_of_issued?_none hi, State.agentStep, State.hostWrite, if_pos (busAccessOk_word ha),
    State.setSched_cfg]

end Sys2Proof.Machine
end

section
/-! PROOF. The parameters of the block are constant (10_state.md R43): every operation, hence every step, keeps
`State.cfg`. -/

namespace Sys2Proof.Machine

@[simp] theorem State.raise_cfg (s : State) (c : Nat) (e : CmdError) : (s.raise c e).cfg = s.cfg := rfl

@[simp] theorem State.complete_cfg (s : State) (c : Nat) (out : Bytes) : (s.complete c out).cfg = s.cfg := rfl

@[simp] theorem State.accept_cfg (s : State) (c : Nat) (w : Word) : (s.accept c w).cfg = s.cfg := rfl

@[simp] theorem State.enterWaitLock_cfg (s : State) (c : Nat) (o : Op) : (s.enterWaitLock c o).cfg = s.cfg := rfl

@[simp] theorem State.resetInput_cfg (s : State) : s.resetInput.cfg = s.cfg := rfl

@[simp] theorem State.endParse_cfg (s : State) (c : Nat) (r : Except CmdError Rec) : (s.endParse c r).cfg = s.cfg := by
  cases r <;> rfl

@[simp] theorem State.endReply_cfg (s : State) (c : Nat) (out : Bytes) : (s.endReply c out).cfg = s.cfg := by
  simp only [State.endReply]
  split <;> simp

@[simp] theorem State.endExchange_cfg (s : State) (c : Nat) (r : Except CmdError Bytes) :
    (s.endExchange c r).cfg = s.cfg := by
  cases r <;> simp [State.endExchange]

@[simp] theorem State.enterRead_cfg (s : State) (c : Nat) : (s.enterRead c).cfg = s.cfg := by
  simp only [State.enterRead]
  split <;> simp

@[simp] theorem State.beginExchange_cfg (s : State) (c : Nat) : (s.beginExchange c).cfg = s.cfg := by
  simp only [State.beginExchange]
  split <;> simp

@[simp] theorem State.grantStep_cfg (s : State) (p c : Nat) (openOk applyOk : Bool) :
    (s.grantStep p c openOk applyOk).cfg = s.cfg := by
  simp only [State.grantStep]
  split
  · simp
  · split_ifs <;> simp

@[simp] theorem State.writeDeadline_cfg (s : State) (c : Nat) (writeOk : Bool) :
    (s.writeDeadline c writeOk).cfg = s.cfg := by
  unfold State.writeDeadline
  split_ifs <;> simp

@[simp] theorem State.readDeadline_cfg (s : State) (c : Nat) : (s.readDeadline c).cfg = s.cfg := by
  simp only [State.readDeadline]
  split_ifs <;> simp

@[simp] theorem State.deadlineStep_cfg (s : State) (c : Nat) (writeOk : Bool) :
    (s.deadlineStep c writeOk).cfg = s.cfg := by
  unfold State.deadlineStep
  split <;> simp

@[simp] theorem State.takeOctet_cfg (s : State) (c : Nat) (b : Byte) : (s.takeOctet c b).cfg = s.cfg := by
  simp only [State.takeOctet]
  split_ifs
  · simp
  · split <;> simp

@[simp] theorem State.writeTarget_cfg (s : State) (t : Target) (v : Word) : (s.writeTarget t v).cfg = s.cfg := by
  cases t with
  | txbuf c k =>
    simp only [State.writeTarget]
    split <;> simp
  | _ => rfl

@[simp] theorem State.hostRead_cfg (s : State) (addr : BitVec 16) (width : Nat) : (s.hostRead addr width).cfg = s.cfg := by
  unfold State.hostRead
  split <;> simp

@[simp] theorem State.hostWrite_cfg (s : State) (addr : BitVec 16) (width : Nat) (v : Word) :
    (s.hostWrite addr width v).cfg = s.cfg := by
  unfold State.hostWrite
  split <;> simp

/-- No end of a command's meaning changes the parameters. -/
theorem ExecEnds.cfg_eq {s t : State} (h : ExecEnds s t) : t.cfg = s.cfg := by
  cases h <;> simp

/-- No command changes the parameters. -/
theorem exec_cfg {i : Instr} {s t : State} (h : exec i s = .next t) : t.cfg = s.cfg := by
  obtain ⟨t', ht', hends⟩ := exec_ends i s
  obtain rfl : t' = t := by
    rw [ht'] at h
    injection h
  exact hends.cfg_eq

/-- Nothing a step can do changes the parameters. -/
theorem StepEnds.cfg_eq {u t : State} (h : StepEnds u t) : t.cfg = u.cfg := by
  cases h with
  | command c w i t hc hb hd hx => exact (exec_cfg hx).trans rfl
  | _ => simp

/-- No step changes the parameters, reset included (R43). -/
theorem step_cfg {s t : State} (h : step s = .next t) : t.cfg = s.cfg := by
  obtain ⟨-, rfl⟩ | ⟨e, rest, -, hends⟩ := step_ends h
  · rfl
  · exact hends.cfg_eq

end Sys2Proof.Machine
end

section
/-! PROOF. The read-only global registers ID, PARAMS and PORT_STATUS (10_state.md R42, R43, R44): their addresses, the
fields of their words, and the statement about them. -/

namespace Sys2Proof.Machine

/-! ### Addresses (20_memory.md R62) -/

theorem targetAt_id (p : Config.Params) : targetAt p 0#16 = .id := rfl

theorem targetAt_params (p : Config.Params) : targetAt p 4#16 = .params := rfl

theorem targetAt_portStatus (p : Config.Params) {a : Nat} (hlo : 0x100 ≤ a) (hhi : a < 0x200) :
    targetAt p (BitVec.ofNat 16 a) = .portStatus ((a - 0x100) / 4) := by
  have ha : (BitVec.ofNat 16 a).toNat = a := by
    rw [BitVec.toNat_ofNat]
    omega
  simp only [targetAt, ha]
  rw [if_neg (by omega), if_neg (by omega), if_neg (by omega), if_pos hhi]

/-- The word of port `k` stands at `0x100 + 4 * k`. -/
theorem targetAt_portStatus_word (p : Config.Params) {k : Nat} (hk : k < 64) :
    targetAt p (BitVec.ofNat 16 (0x100 + 4 * k)) = .portStatus k := by
  rw [targetAt_portStatus p (by omega) (by omega)]
  congr 1
  omega

/-- ID, PARAMS and every word of PORT_STATUS stand at their own addresses. -/
theorem targetAt_globalRegister (p : Config.Params) {a : Nat} (ha : a = 0 ∨ a = 4 ∨ 0x100 ≤ a ∧ a < 0x200) :
    targetAt p (BitVec.ofNat 16 a) = .id ∨ targetAt p (BitVec.ofNat 16 a) = .params
      ∨ ∃ k, targetAt p (BitVec.ofNat 16 a) = .portStatus k := by
  obtain rfl | rfl | ⟨hlo, hhi⟩ := ha
  · exact .inl (targetAt_id p)
  · exact .inr (.inl (targetAt_params p))
  · exact .inr (.inr ⟨_, targetAt_portStatus p hlo hhi⟩)

/-- Reducing to a 16-bit address keeps alignment. -/
theorem aligned_ofNat {a : Nat} (ha : a % 4 = 0) : (BitVec.ofNat 16 a).toNat % 4 = 0 := by
  rw [BitVec.toNat_ofNat]
  omega

/-! ### The fields of `PARAMS` (R43) -/

/-- The bounds of R6 that the fields of `PARAMS` rest on. -/
theorem params_wf_bounds {p : Config.Params} (h : p.wf = true) :
    p.nchan ≤ 8 ∧ p.nport ≤ 64 ∧ p.nhandle ≤ 448 ∧ p.bufBytes ≤ 1024 := by
  simp only [Config.Params.wf, Bool.and_eq_true, decide_eq_true_eq] at h
  omega

theorem paramsWord_nchan (p : Config.Params) : (paramsWord p).extractLsb' 0 4 = BitVec.ofNat 4 p.nchan :=
  BitVec.extractLsb'_append_eq_right

theorem paramsWord_nport (p : Config.Params) : (paramsWord p).extractLsb' 4 7 = BitVec.ofNat 7 p.nport :=
  (BitVec.extractLsb'_append_eq_of_le (by decide)).trans BitVec.extractLsb'_append_eq_right

theorem paramsWord_nhandle (p : Config.Params) : (paramsWord p).extractLsb' 11 9 = BitVec.ofNat 9 p.nhandle :=
  (BitVec.extractLsb'_append_eq_of_le (by decide)).trans <|
    (BitVec.extractLsb'_append_eq_of_le (by decide)).trans BitVec.extractLsb'_append_eq_right

theorem paramsWord_bufBytes (p : Config.Params) : (paramsWord p).extractLsb' 20 11 = BitVec.ofNat 11 p.bufBytes :=
  (BitVec.extractLsb'_append_eq_of_le (by decide)).trans <|
    (BitVec.extractLsb'_append_eq_of_le (by decide)).trans <|
      (BitVec.extractLsb'_append_eq_of_le (by decide)).trans BitVec.extractLsb'_append_eq_right

theorem paramsWord_top (p : Config.Params) : (paramsWord p).getLsbD 31 = false := by
  rw [paramsWord]
  simp only [BitVec.getLsbD_append]
  rfl

/-- Where the parameters obey R6, every field of `PARAMS` holds its parameter uncut. -/
theorem paramsWord_fields {p : Config.Params} (h : p.wf = true) :
    ((paramsWord p).extractLsb' 0 4).toNat = p.nchan ∧ ((paramsWord p).extractLsb' 4 7).toNat = p.nport
      ∧ ((paramsWord p).extractLsb' 11 9).toNat = p.nhandle ∧ ((paramsWord p).extractLsb' 20 11).toNat = p.bufBytes
      ∧ (paramsWord p).getLsbD 31 = false := by
  obtain ⟨hchan, hport, hhandle, hbuf⟩ := params_wf_bounds h
  rw [paramsWord_nchan, paramsWord_nport, paramsWord_nhandle, paramsWord_bufBytes]
  refine ⟨?_, ?_, ?_, ?_, paramsWord_top p⟩ <;> exact Nat.mod_eq_of_lt (by omega)

/-! ### The fields of `PORT_STATUS` (R44) -/

theorem Port.statusWord_opened (pt : Port) : pt.statusWord.getLsbD 0 = pt.opened := by
  rw [Port.statusWord]
  simp only [BitVec.getLsbD_append]
  simp

theorem Port.statusWord_locked (pt : Port) : pt.statusWord.getLsbD 1 = pt.owner.isSome := by
  rw [Port.statusWord]
  simp only [BitVec.getLsbD_append]
  simp

theorem Port.statusWord_owner (pt : Port) : pt.statusWord.extractLsb' 2 3 = BitVec.ofNat 3 (pt.owner.getD 0) :=
  (BitVec.extractLsb'_append_eq_of_le (by decide)).trans <|
    (BitVec.extractLsb'_append_eq_of_le (by decide)).trans BitVec.extractLsb'_append_eq_right

theorem Port.statusWord_dir (pt : Port) : pt.statusWord.extractLsb' 5 2 = pt.dir.code :=
  (BitVec.extractLsb'_append_eq_of_le (by decide)).trans <|
    (BitVec.extractLsb'_append_eq_of_le (by decide)).trans <|
      (BitVec.extractLsb'_append_eq_of_le (by decide)).trans BitVec.extractLsb'_append_eq_right

theorem Port.statusWord_rest (pt : Port) : pt.statusWord.extractLsb' 7 25 = 0#25 :=
  (BitVec.extractLsb'_append_eq_of_le (by decide)).trans <|
    (BitVec.extractLsb'_append_eq_of_le (by decide)).trans <|
      (BitVec.extractLsb'_append_eq_of_le (by decide)).trans BitVec.extractLsb'_append_eq_left

/-- The owner's index fits its field, because there are at most eight channels; a free port reads 0. -/
theorem Port.statusWord_owner_toNat {pt : Port} (h : ∀ c, pt.owner = some c → c < 8) :
    (pt.statusWord.extractLsb' 2 3).toNat = pt.owner.getD 0 := by
  rw [Port.statusWord_owner]
  cases ho : pt.owner with
  | none => rfl
  | some c => exact Nat.mod_eq_of_lt (h c ho)

theorem Port.statusWord_reset : Port.reset.statusWord = 0#32 := rfl

/-! ### What the three registers read and that they ignore writes -/

theorem State.readTarget_portStatus_absent {s : State} {p : Nat} (h : s.cfg.nport ≤ p) :
    s.readTarget (.portStatus p) = 0#32 :=
  if_neg (by omega)

theorem State.readTarget_portStatus_present {s : State} {p : Nat} (h : p < s.cfg.nport) :
    s.readTarget (.portStatus p) = (s.port p).statusWord :=
  if_pos h

/-- After reset every port is as R45 says, and so reads an absent one. -/
theorem State.resetOf_port (cfg : Config.Params) (p : Nat) : (State.resetOf cfg).port p = Port.reset := by
  simp only [State.port, State.resetOf, List.getD_eq_getElem?_getD, List.getElem?_replicate]
  split <;> rfl

theorem State.readTarget_portStatus_resetOf (cfg : Config.Params) (p : Nat) :
    (State.resetOf cfg).readTarget (.portStatus p) = 0#32 := by
  rcases Nat.lt_or_ge p cfg.nport with h | h
  · rw [State.readTarget_portStatus_present h, State.resetOf_port, Port.statusWord_reset]
  · exact State.readTarget_portStatus_absent h

/-- A write to ID, PARAMS or PORT_STATUS is acknowledged and changes nothing (R42, R43, R44). -/
theorem step_hostWrite_globalRegister {s : State} {rest : List Event} {a : Nat} {v : Word}
    (ha : a = 0 ∨ a = 4 ∨ 0x100 ≤ a ∧ a < 0x200) (hal : a % 4 = 0)
    (hs : s.sched = .hostWrite (BitVec.ofNat 16 a) 4 v :: rest) :
    step s = .next { s with sched := rest, resp := .ack } := by
  obtain ht | ht | ⟨k, ht⟩ := targetAt_globalRegister s.cfg ha
  all_goals
    rw [step_hostWrite_word hs (aligned_ofNat hal) (by simp [ht]), ht]
    rfl

/-- A read of a word of PORT_STATUS (R44). -/
theorem step_hostRead_portStatus {s : State} {rest : List Event} {p : Nat} (hp : p < 64)
    (hs : s.sched = .hostRead (BitVec.ofNat 16 (0x100 + 4 * p)) 4 :: rest) :
    step s = .next { s with sched := rest, resp := .data (s.readTarget (.portStatus p)), free := s.free + 4 } := by
  rw [step_hostRead_word hs (aligned_ofNat (by omega)), targetAt_portStatus_word _ hp]

/-- Settles O41, from the target of each address, the fields of the two words, and the constancy of the parameters. -/
theorem globalRegistersReadOnly : Obligations.GlobalRegistersReadOnly := by
  refine ⟨fun s rest a v ha hal hs => step_hostWrite_globalRegister ha hal hs, ?id, ?params, ?portStatus,
    fun s t h => step_cfg h, ?reset⟩
  case id =>
    intro s rest hs
    exact ⟨s.free + 4, step_hostRead_word hs rfl⟩
  case params =>
    intro s rest hwf hs
    exact ⟨s.free + 4, paramsWord s.cfg, step_hostRead_word hs rfl, paramsWord_fields hwf⟩
  case portStatus =>
    intro s rest p hp hs
    refine ⟨s.free + 4, s.readTarget (.portStatus p), step_hostRead_portStatus hp hs,
      State.readTarget_portStatus_absent, fun hpresent howner => ?_⟩
    rw [State.readTarget_portStatus_present hpresent, Port.statusWord_dir]
    refine ⟨Port.statusWord_opened _, Port.statusWord_locked _, Port.statusWord_owner_toNat howner, ?_, ?_, ?_,
      Port.statusWord_rest _⟩
    all_goals
      intro hdir
      rw [hdir]
      rfl
  case reset =>
    intro cfg p hp
    refine ⟨_, step_hostRead_portStatus hp rfl, ?_⟩
    exact congrArg BusResponse.data (State.readTarget_portStatus_resetOf cfg p)

end Sys2Proof.Machine
end

section
/-! PROOF. Reserved addresses and read-only registers, and that no aligned access gets an error (20_memory.md R66): the
targets of their addresses, the targets that ignore writes, and the answer to every aligned write. -/

namespace Sys2Proof.Machine

open Sys2Proof.Safety

/-! ### The address map, by its ranges (20_memory.md R62) -/

/-- A handle slot's registers end below offset `0x2C`. -/
theorem handleRegAt_eq_none {off : Nat} (h : 0x2C ≤ off) : handleRegAt off = none := by
  unfold handleRegAt
  split
  case h_12 => rfl
  all_goals omega

/-- A channel's registers end below offset `0x2C`. -/
theorem chanRegAt_eq_none {off : Nat} (h : 0x2C ≤ off) : chanRegAt off = none := by
  unfold chanRegAt
  split
  case h_12 => rfl
  all_goals omega

theorem chanTarget_rxbuf {p : Config.Params} {off : Nat} (c : Nat) (hlo : 0x800 ≤ off) (hbuf : off < 0x800 + p.bufBytes)
    (hhi : off < 0xC00) : chanTarget p c off = .rxbuf c (off - 0x800) := by
  rw [chanTarget, if_neg (by omega), if_neg (by omega), if_pos hhi, if_pos (by omega)]

/-- The holes of a present channel's window: behind its registers, behind each buffer, and at its end. -/
theorem chanTarget_reserved {p : Config.Params} {off : Nat} (c : Nat)
    (h : (0x2C ≤ off ∧ off < 0x400) ∨ (0x400 + p.bufBytes ≤ off ∧ off < 0x800)
      ∨ (0x800 + p.bufBytes ≤ off ∧ off < 0xC00) ∨ 0xC00 ≤ off) : chanTarget p c off = .reserved := by
  rw [chanTarget]
  obtain ⟨hlo, hhi⟩ | ⟨hlo, hhi⟩ | ⟨hlo, hhi⟩ | hlo := h
  · rw [if_pos hhi, chanRegAt_eq_none hlo]
  · rw [if_neg (by omega), if_pos hhi, if_neg (by omega)]
  · rw [if_neg (by omega), if_neg (by omega), if_pos hhi, if_neg (by omega)]
  · rw [if_neg (by omega), if_neg (by omega), if_neg (by omega)]

/-- The holes among the global registers. -/
theorem targetAt_globalHole (p : Config.Params) {addr : BitVec 16}
    (h : (0x8 ≤ addr.toNat ∧ addr.toNat < 0x100) ∨ (0x200 ≤ addr.toNat ∧ addr.toNat < 0x1000)) :
    targetAt p addr = .reserved := by
  simp only [targetAt]
  rw [if_neg (by omega), if_neg (by omega)]
  obtain ⟨-, hhi⟩ | ⟨hlo, hhi⟩ := h
  · rw [if_pos hhi]
  · rw [if_neg (by omega), if_neg (by omega), if_pos hhi]

/-- The handle windows: an absent slot, and the hole behind a slot's registers. -/
theorem targetAt_handleHole {p : Config.Params} {addr : BitVec 16} (hlo : 0x1000 ≤ addr.toNat) (hhi : addr.toNat < 0x8000)
    (h : p.nhandle ≤ (addr.toNat - 0x1000) / 0x40 ∨ 0x2C ≤ (addr.toNat - 0x1000) % 0x40) :
    targetAt p addr = .reserved := by
  simp only [targetAt]
  rw [if_neg (by omega), if_neg (by omega), if_neg (by omega), if_neg (by omega), if_neg (by omega), if_pos hhi]
  split
  · rw [handleRegAt_eq_none (by omega)]
  · rfl

/-- The channel windows: a present channel's targets, or a hole. -/
theorem targetAt_chanWindow (p : Config.Params) {addr : BitVec 16} (hlo : 0x8000 ≤ addr.toNat) :
    targetAt p addr =
      if (addr.toNat - 0x8000) / 0x1000 < p.nchan then
        chanTarget p ((addr.toNat - 0x8000) / 0x1000) ((addr.toNat - 0x8000) % 0x1000)
      else .reserved := by
  simp only [targetAt]
  rw [if_neg (by omega), if_neg (by omega), if_neg (by omega), if_neg (by omega), if_neg (by omega), if_neg (by omega)]

/-- Every reserved address has the reserved target. -/
theorem targetAt_of_reservedAddress {p : Config.Params} {addr : BitVec 16} (h : ReservedAddress p addr.toNat) :
    targetAt p addr = .reserved := by
  obtain ⟨-, hlow | hgap | ⟨hlo, hhi, hhole⟩ | ⟨hlo, hhole⟩⟩ := h
  · exact targetAt_globalHole p (.inl hlow)
  · exact targetAt_globalHole p (.inr hgap)
  · exact targetAt_handleHole hlo hhi hhole
  · rw [targetAt_chanWindow p hlo]
    obtain habsent | hhole := hhole
    · exact if_neg (by omega)
    · rw [chanTarget_reserved _ hhole, ite_self]

/-! ### Targets that ignore writes (R66) -/

/-- The targets at which the bus takes a write and stores nothing, whatever the state: the holes and the read-only
registers. -/
def Target.readOnly : Target → Bool
  | .id | .params | .reserved | .portStatus _ | .rxbuf _ _ => true
  | .chanReg _ r => r = .status ∨ r = .rxlen ∨ r = .res
  | .handleReg _ _ | .txbuf _ _ => false

/-- A write to a read-only register of a channel stores nothing, busy or not. -/
theorem Chan.writeReg_readOnly (ch : Chan) {r : ChanReg} (v : Word) (h : r = .status ∨ r = .rxlen ∨ r = .res) :
    ch.writeReg r v = ch := by
  obtain rfl | rfl | rfl := h
  all_goals exact ite_self ch

theorem State.writeTarget_readOnly (s : State) {t : Target} (v : Word) (h : t.readOnly = true) :
    s.writeTarget t v = s := by
  cases t with
  | id | params | reserved | portStatus _ | rxbuf _ _ => rfl
  | handleReg _ _ | txbuf _ _ => cases h
  | chanReg c r =>
    have hid : (fun ch : Chan => ch.writeReg r v) = id :=
      funext fun ch => ch.writeReg_readOnly v (of_decide_eq_true h)
    rw [State.writeTarget, hid, State.modChan_id]

/-- A read-only target is no `CMD`. -/
theorem Target.ne_cmd_of_readOnly {t : Target} (h : t.readOnly = true) (c : Nat) : t ≠ .chanReg c .cmd := by
  rintro rfl
  simp [Target.readOnly] at h

/-- `STATUS`, `RXLEN` and `RES` of a channel. -/
theorem chanTarget_readOnly (p : Config.Params) (c : Nat) {off : Nat} (h : off = 0x4 ∨ off = 0xC ∨ off = 0x28) :
    (chanTarget p c off).readOnly = true := by
  obtain rfl | rfl | rfl := h
  all_goals rfl

/-- Every read-only register has a read-only target. -/
theorem targetAt_readOnly {p : Config.Params} {addr : BitVec 16} (h : ReadOnlyAddress p addr.toNat) :
    (targetAt p addr).readOnly = true := by
  have hglobal : (addr.toNat = 0 ∨ addr.toNat = 4 ∨ 0x100 ≤ addr.toNat ∧ addr.toNat < 0x200) →
      (targetAt p addr).readOnly = true := fun ha => by
    have ht := targetAt_globalRegister p ha
    rw [BitVec.ofNat_toNat, BitVec.setWidth_eq] at ht
    obtain ht | ht | ⟨k, ht⟩ := ht <;> rw [ht] <;> rfl
  obtain ⟨-, hid | hparams | hport | ⟨hlo, hpresent, hreg⟩⟩ := h
  · exact hglobal (.inl hid)
  · exact hglobal (.inr (.inl hparams))
  · exact hglobal (.inr (.inr hport))
  · rw [targetAt_chanWindow p hlo, if_pos hpresent]
    obtain hstatus | hrxlen | hres | ⟨hrx, hbuf, hhi⟩ := hreg
    · exact chanTarget_readOnly p _ (.inl hstatus)
    · exact chanTarget_readOnly p _ (.inr (.inl hrxlen))
    · exact chanTarget_readOnly p _ (.inr (.inr hres))
    · rw [chanTarget_rxbuf _ hrx hbuf hhi]
      rfl

/-- A write to a read-only target is acknowledged and changes nothing. -/
theorem step_hostWrite_readOnly {s : State} {rest : List Event} {addr : BitVec 16} {v : Word}
    (hs : s.sched = .hostWrite addr 4 v :: rest) (ha : addr.toNat % 4 = 0)
    (ht : (targetAt s.cfg addr).readOnly = true) : step s = .next { s with sched := rest, resp := .ack } := by
  rw [step_hostWrite_word hs ha (Target.ne_cmd_of_readOnly ht), State.writeTarget_readOnly _ v ht]
  rfl

/-! ### The answer to every aligned write (R63, R66) -/

/-- No end of a command's meaning touches the bus response. -/
theorem ExecEnds.resp_eq {s t : State} (h : ExecEnds s t) : t.resp = s.resp := by
  cases h <;> rfl

/-- A write of any word to a `CMD` register is acknowledged: rejected, no command, or a command (R22, R211). -/
theorem State.issue_acknowledged (s : State) (c : Nat) (w : Word) : ∃ t, s.issue c w = .next t ∧ t.resp = .ack := by
  unfold State.issue
  split
  · exact ⟨_, rfl, rfl⟩
  · unfold State.acceptStep
    split
    · exact ⟨_, rfl, rfl⟩
    · rename_i i _
      obtain ⟨t, ht, hends⟩ := exec_ends i ((s.setResp .ack).accept c w)
      exact ⟨t, ht, hends.resp_eq⟩

/-- Every aligned 32-bit write is acknowledged. -/
theorem step_hostWrite_acknowledged {s : State} {rest : List Event} {addr : BitVec 16} {v : Word}
    (hs : s.sched = .hostWrite addr 4 v :: rest) (ha : addr.toNat % 4 = 0) :
    ∃ t, step s = .next t ∧ t.resp = .ack := by
  rw [step_of_sched hs, State.run]
  split
  · exact State.issue_acknowledged _ _ _
  · exact ⟨_, rfl, by rw [State.hostWrite, if_pos (busAccessOk_word ha)]; rfl⟩

/-- Settles O40, from the targets of the reserved and the read-only addresses and the answer to every aligned access. -/
theorem reservedAndReadOnlyAddresses : Obligations.ReservedAndReadOnlyAddresses := by
  refine ⟨?write, ?read, ?acknowledged⟩
  case write =>
    intro s rest addr v h hs
    obtain hreserved | hreadOnly := h
    · exact step_hostWrite_readOnly hs hreserved.1 (by rw [targetAt_of_reservedAddress hreserved]; rfl)
    · exact step_hostWrite_readOnly hs hreadOnly.1 (targetAt_readOnly hreadOnly)
  case read =>
    intro s rest addr hreserved hs
    have hstep := step_hostRead_word hs hreserved.1
    rw [targetAt_of_reservedAddress hreserved] at hstep
    exact ⟨_, hstep⟩
  case acknowledged =>
    intro s rest addr v ha
    exact ⟨fun hs => step_hostWrite_acknowledged hs ha, fun hs => ⟨_, _, step_hostRead_word hs ha, rfl⟩⟩

end Sys2Proof.Machine
end

section
/-! PROOF. The ends of the checksum commands past the common part of their meanings (30_encoding.md R82, R83;
60_exceptions.md R213, R214, R215). -/

namespace Sys2Proof.Machine

open Sys2Proof.Safety

/-- A failing range check of a ready command is IllegalCommand(4) (R82 step 4, R83). -/
theorem State.accepted_operandRange {s : State} {h : Nat} {need : Needs} (run : Operands → State → State)
    (hr : Ready s h) (hf : need.fits s.cfg.bufBytes (s.operands h) = false) :
    s.accepted h need run = s.raise s.sel .operandRange := by
  obtain ⟨-, hh, -⟩ := hr
  have he : acceptError s.cfg (s.operands h) need = some .operandRange := by
    exact (if_neg (Nat.not_le.2 hh)).trans (if_pos (.inr hf))
  rw [State.accepted, he]

/-- The free values an operand draws show nowhere in an atomic command's end. -/
theorem State.finish_addFree_spec {s : State} (k : Nat) (v : Bool) (out : Bytes) (h : s.sel < s.chans.length) :
    EndsOk s ((s.addFree k).finish v out) s.sel { s.chan s.sel with result := v } out
      ∧ PortsSame s ((s.addFree k).finish v out) :=
  State.finish_spec (s := s.addFree k) v out h

/-- The two ends of a command whose engine may fail: its output with RESULT 0, or its error. -/
theorem State.finishE_addFree_spec {s : State} (k : Nat) (r : Except CmdError Bytes) (h : s.sel < s.chans.length) :
    (∀ out, r = .ok out →
        EndsOk s ((s.addFree k).finishE r) s.sel { s.chan s.sel with result := false } out)
      ∧ (∀ e, r = .error e → EndsErr s ((s.addFree k).finishE r) s.sel (s.chan s.sel) e.errCode e.sub)
      ∧ PortsSame s ((s.addFree k).finishE r) := by
  cases r with
  | ok out =>
    obtain ⟨hends, hports⟩ := State.finish_addFree_spec k false out h
    exact ⟨fun _ ho => Except.ok.inj ho ▸ hends, nofun, hports⟩
  | error e =>
    obtain ⟨hends, hports⟩ := State.raise_spec (s := s.addFree k) e h
    exact ⟨nofun, fun _ he => Except.error.inj he ▸ hends, hports⟩

/-- An append command of a ready state: its output where it fits the buffer, else IllegalCommand(4). -/
theorem State.accepted_append_spec {s : State} {h : Nat} (fits : Nat → Operands → Bool) (out : Operands → Bytes)
    (hr : Ready s h) :
    ∃ t, s.accepted h ⟨fits, false, false⟩ (fun o s => s.finish false (out o)) = t ∧ PortsSame s t
      ∧ (fits s.cfg.bufBytes (s.operands h) = true →
          EndsOk s t s.sel { s.chan s.sel with result := false } (out (s.operands h)))
      ∧ (fits s.cfg.bufBytes (s.operands h) = false → EndsErr s t s.sel (s.chan s.sel) 5#4 4#8) := by
  cases hf : fits s.cfg.bufBytes (s.operands h) with
  | true =>
    obtain ⟨hends, hports⟩ := State.finish_addFree_spec (s.operands h).n false (out (s.operands h)) hr.1
    exact ⟨_, State.accepted_ok _ hr hf nofun nofun, hports, fun _ => hends, nofun⟩
  | false =>
    obtain ⟨hends, hports⟩ := State.raise_spec .operandRange hr.1
    exact ⟨_, State.accepted_operandRange _ hr hf, hports, nofun, fun _ => hends⟩

/-- A check command of a ready state succeeds with its verdict and no output. -/
theorem State.accepted_check_spec {s : State} {h : Nat} (verdict : Operands → Bool) (hr : Ready s h) :
    ∃ t, s.accepted h ⟨fitsAny, false, false⟩ (fun o s => s.finish (verdict o) []) = t ∧ PortsSame s t
      ∧ EndsOk s t s.sel { s.chan s.sel with result := verdict (s.operands h) } [] := by
  obtain ⟨hends, hports⟩ := State.finish_addFree_spec (s.operands h).n (verdict (s.operands h)) [] hr.1
  exact ⟨_, State.accepted_ok _ hr rfl nofun nofun, hports, hends⟩

/-- A strip command of a ready state ends with what its engine answers. -/
theorem State.accepted_strip_spec {s : State} {h : Nat} (strip : Operands → Except CmdError Bytes) (hr : Ready s h) :
    ∃ t, s.accepted h ⟨fitsAny, false, false⟩ (fun o s => s.finishE (strip o)) = t ∧ PortsSame s t
      ∧ (∀ out, strip (s.operands h) = .ok out →
          EndsOk s t s.sel { s.chan s.sel with result := false } out)
      ∧ ∀ e, strip (s.operands h) = .error e → EndsErr s t s.sel (s.chan s.sel) e.errCode e.sub := by
  obtain ⟨hok, herr, hports⟩ := State.finishE_addFree_spec (s.operands h).n (strip (s.operands h)) hr.1
  exact ⟨_, State.accepted_ok _ hr rfl nofun nofun, hports, hok, herr⟩

end Sys2Proof.Machine
end

section
/-! PROOF. The additive checksum commands (41_checksum.md R102 to R105). -/

namespace Sys2Proof.Machine

open Sys2Proof.Safety

theorem exec_sumAdd (h : Nat) (s : State) :
    exec (.sumAdd h) s
      = .next (s.accepted h ⟨fitsSum, false, false⟩ fun o s => s.finish false (sumAdd o.sumEn o.tx)) := rfl

theorem exec_sumChk (h : Nat) (s : State) :
    exec (.sumChk h) s
      = .next (s.accepted h ⟨fitsAny, false, false⟩ fun o s => s.finish (sumChk o.sumEn o.tx) []) := rfl

theorem exec_sumStrip (h : Nat) (s : State) :
    exec (.sumStrip h) s
      = .next (s.accepted h ⟨fitsAny, false, false⟩ fun o s => s.finishE (sumStrip o.sumEn o.tx)) := rfl

/-- The model's range check is the rule's (R83). -/
theorem fitsSum_operands_iff (s : State) (h : Nat) :
    fitsSum s.cfg.bufBytes (s.operands h) = true ↔ RangeOk s (.sumAdd h) :=
  decide_eq_true_iff

/-- The verdict of the additive check under either policy (R103). -/
theorem sumChk_eq_true_iff (en : Bool) (s : Bytes) : sumChk en s = true ↔ en = false ∨ SumMatches s := by
  cases en with
  | false => simp
  | true => simpa [SumMatches] using sumChk_true_iff s

theorem sumStrip_of_short {s : Bytes} (h : s.length < 2) : sumStrip true s = .error .sumShort := by
  simp [sumStrip, h]

theorem sumStrip_of_mismatch {s : Bytes} (hl : 2 ≤ s.length) (hm : ¬SumMatches s) :
    sumStrip true s = .error .sumMismatch := by
  obtain ⟨hshort, -⟩ | ⟨-, -, he⟩ | ⟨body, hb, -⟩ := sumStrip_cases s
  · omega
  · exact he
  · exact absurd ⟨body, hb⟩ hm

/-- Settles O8: the append command's spec with the additive engine. -/
theorem sumAddAppendsChecksum : Obligations.SumAddAppendsChecksum := by
  intro s h hr
  obtain ⟨t, ht, hports, hok, herr⟩ := State.accepted_append_spec fitsSum (fun o => sumAdd o.sumEn o.tx) hr
  refine ⟨t, by rw [exec_sumAdd, ht], hports, fun hf => hok ((fitsSum_operands_iff s h).2 hf), fun hf => herr ?_⟩
  rwa [← Bool.not_eq_true, fitsSum_operands_iff]

/-- Settles O9: the check command's spec, its verdict by `sumChk_eq_true_iff`. -/
theorem sumChkReportsVerdict : Obligations.SumChkReportsVerdict := by
  intro s h hr
  obtain ⟨t, ht, hports, hends⟩ := State.accepted_check_spec (fun o => sumChk o.sumEn o.tx) hr
  exact ⟨t, _, by rw [exec_sumChk, ht], hports, sumChk_eq_true_iff _ _, hends⟩

/-- Settles O10: the strip command's spec, with each answer of the additive engine. -/
theorem sumStripRemovesChecksum : Obligations.SumStripRemovesChecksum := by
  intro s h hr
  obtain ⟨t, ht, hports, hok, herr⟩ := State.accepted_strip_spec (fun o => sumStrip o.sumEn o.tx) hr
  simp only [State.operands_sumEn, State.operands_tx] at hok herr
  refine ⟨t, by rw [exec_sumStrip, ht], hports, fun hen => hok _ (by rw [hen]; rfl), fun hen => ?_⟩
  rw [hen] at hok herr
  refine ⟨fun hs => herr _ (sumStrip_of_short hs), fun hl hm => herr _ (sumStrip_of_mismatch hl hm), fun body hb => ?_⟩
  exact hok body (by rw [hb, sumStrip_append])

/-- SUM.CHK of a ready state as RESULT and the error record show it (R103). -/
theorem exec_sumChk_result {s : State} {h : Nat} (hr : Ready s h) :
    ∃ t, exec (.sumChk h) s = .next t ∧ (t.chan s.sel).err = 0#4
      ∧ ((t.chan s.sel).result = true ↔ (s.handle h).sumEn = false ∨ SumMatches (operand s)) := by
  obtain ⟨t, ok, ht, -, hiff, -, hchan, -⟩ := sumChkReportsVerdict s h hr
  exact ⟨t, ht, by rw [hchan], by rw [hchan]; exact hiff⟩

/-- Settles O14: what SUM.CHK, SUM.STRIP and SUM.ADD do, on an operand that carries its checksum. -/
theorem addedChecksumChecksAndStrips : Obligations.AddedChecksumChecksAndStrips := by
  refine ⟨fun s h b hr hop => ⟨?chk, ?strip⟩, ?empty⟩
  case chk =>
    obtain ⟨t, ht, herr, hiff⟩ := exec_sumChk_result hr
    refine ⟨t, ht, hiff.2 ?_, herr⟩
    rw [hop]
    cases (s.handle h).sumEn with
    | false => exact .inl rfl
    | true => exact .inr ⟨b, rfl⟩
  case strip =>
    obtain ⟨t, ht, -, hdisabled, henabled⟩ := sumStripRemovesChecksum s h hr
    refine ⟨t, ht, ?_⟩
    cases hen : (s.handle h).sumEn with
    | false =>
      rw [hen] at hop
      rw [← show operand s = b from hop]
      exact hdisabled hen
    | true =>
      obtain ⟨-, -, hbody⟩ := henabled hen
      rw [hen] at hop
      exact hbody b hop
  case empty =>
    intro s h hr hf hen hop
    obtain ⟨t, ht, -, hok, -⟩ := sumAddAppendsChecksum s h hr
    have hends := hok hf
    rw [hen, hop] at hends
    exact ⟨t, ht, hends⟩

end Sys2Proof.Machine
end

section
/-! PROOF. The CRC-16 as an engine (41_checksum.md R110, R111, R115, R116): the residue of a sequence with its CRC is 0,
and one changed octet always changes the CRC. -/

namespace Sys2Proof.Machine

/-- A shift that pushes out a 0 adds no polynomial. -/
theorem crcShift_of_lsb_false {c : Half} (h : c.getLsbD 0 = false) : crcShift c = c >>> 1 := by
  rw [crcShift, h]
  rfl

/-- Shifts that push out only zeros are a plain right shift. -/
theorem crcShifts_of_low_zero {k : Nat} {c : Half} (h : ∀ i < k, c.getLsbD i = false) : crcShifts k c = c >>> k := by
  induction k generalizing c with
  | zero => simp [crcShifts]
  | succ k ih =>
    rw [crcShifts, crcShift_of_lsb_false (h 0 k.succ_pos), ih, ← BitVec.shiftRight_add, Nat.add_comm]
    intro i hi
    simpa [Nat.add_comm] using h (i + 1) (Nat.succ_lt_succ hi)

/-- The low byte of the register's own value shifts the register by one octet. -/
theorem crcByte_low (c : Half) : crcByte c (c.extractLsb' 0 8) = c >>> 8 := by
  rw [crcByte, crcShifts_of_low_zero]
  · ext i hi
    simp
  · intro i hi
    simpa [hi] using fun _ => Nat.lt_trans hi (by decide)

/-- The register's own wire form brings it to 0 (R115). -/
theorem foldl_crcByte_crcBytes (c : Half) : (crcBytes c).foldl crcByte c = 0#16 := by
  have hhigh : c >>> 8 ^^^ (c.extractLsb' 8 8).setWidth 16 = 0#16 := by
    rw [BitVec.xor_eq_zero_iff]
    ext i hi
    have hrange : c.getLsbD (8 + i) = true → i < 8 := fun hb => by
      have := BitVec.lt_of_getLsbD hb
      omega
    simpa using hrange
  simp only [crcBytes, List.foldl_cons, List.foldl_nil, crcByte_low]
  rw [crcByte, hhigh]
  rfl

/-- The residue of a sequence with its CRC (R115). -/
theorem crc16_append_crcBytes (b : Bytes) : crc16 (b ++ crcBytes (crc16 b)) = 0#16 := by
  rw [crc16, List.foldl_append]
  exact foldl_crcByte_crcBytes (crc16 b)

/-- No register but 0 shifts to 0: the polynomial sets the top bit, which a plain shift clears. -/
theorem eq_zero_of_crcShift_eq_zero {c : Half} (h : crcShift c = 0#16) : c = 0#16 := by
  cases hlsb : c.getLsbD 0 with
  | true =>
    have htop : (crcShift c).getLsbD 15 = true := by simp [crcShift, hlsb]
    rw [h] at htop
    cases htop
  | false =>
    rw [crcShift_of_lsb_false hlsb] at h
    have hbit (i : Nat) : c.getLsbD (1 + i) = false := by
      rw [← BitVec.getLsbD_ushiftRight, h, BitVec.getLsbD_zero]
    refine BitVec.eq_of_getLsbD_eq fun i _ => ?_
    cases i with
    | zero => simpa using hlsb
    | succ i => simpa [Nat.add_comm] using hbit i

/-- A shift loses nothing of the register: it is linear (`crcShift_xor`) with kernel 0. -/
theorem crcShift_injective : Function.Injective crcShift := fun a b h => by
  have hker : crcShift (a ^^^ b) = 0#16 := by rw [crcShift_xor, h, BitVec.xor_self]
  exact BitVec.xor_eq_zero_iff.1 (eq_zero_of_crcShift_eq_zero hker)

theorem crcShifts_injective (k : Nat) : Function.Injective (crcShifts k) := by
  induction k with
  | zero => exact fun _ _ h => h
  | succ k ih => exact ih.comp crcShift_injective

/-- Different registers stay different under the same octet. -/
theorem crcByte_injective_left (b : Byte) : Function.Injective fun c => crcByte c b := fun _ _ h =>
  (BitVec.xor_left_inj _).1 (crcShifts_injective 8 h)

/-- Different octets take a register to different values. -/
theorem crcByte_injective_right (c : Half) : Function.Injective (crcByte c) := fun a b h => by
  have hw : a.setWidth 16 = b.setWidth 16 := (BitVec.xor_right_inj _).1 (crcShifts_injective 8 h)
  simpa using congrArg (BitVec.setWidth 8) hw

/-- Different registers stay different under the same octets. -/
theorem foldl_crcByte_injective (s : Bytes) : Function.Injective fun c => s.foldl crcByte c := by
  induction s with
  | nil => exact fun _ _ h => h
  | cons b s ih => exact ih.comp (crcByte_injective_left b)

/-- Changing one octet changes the register after the whole sequence, from every seed. -/
theorem foldl_crcByte_modify_ne {g : Byte → Byte} (hg : ∀ b, g b ≠ b) {s : Bytes} {k : Nat} (hk : k < s.length)
    (c : Half) : (s.modify k g).foldl crcByte c ≠ s.foldl crcByte c := by
  induction s generalizing k c with
  | nil => cases hk
  | cons b s ih =>
    cases k with
    | zero =>
      intro h
      exact hg b (crcByte_injective_right c (foldl_crcByte_injective s (by simpa using h)))
    | succ k => simpa using ih (Nat.lt_of_succ_lt_succ hk) (crcByte c b)

theorem crc16_modify_ne {g : Byte → Byte} (hg : ∀ b, g b ≠ b) {s : Bytes} {k : Nat} (hk : k < s.length) :
    crc16 (s.modify k g) ≠ crc16 s :=
  foldl_crcByte_modify_ne hg hk _

end Sys2Proof.Machine
end

section
/-! PROOF. The CRC commands (41_checksum.md R112 to R116). -/

namespace Sys2Proof.Machine

open Sys2Proof.Safety

theorem exec_crcAdd (h : Nat) (s : State) :
    exec (.crcAdd h) s
      = .next (s.accepted h ⟨fitsCrc, false, false⟩ fun o s => s.finish false (crcAdd o.crcEn o.tx)) := rfl

theorem exec_crcChk (h : Nat) (s : State) :
    exec (.crcChk h) s
      = .next (s.accepted h ⟨fitsAny, false, false⟩ fun o s => s.finish (crcChk o.crcEn o.tx) []) := rfl

theorem exec_crcStrip (h : Nat) (s : State) :
    exec (.crcStrip h) s
      = .next (s.accepted h ⟨fitsAny, false, false⟩ fun o s => s.finishE (crcStrip o.crcEn o.tx)) := rfl

/-- The model's range check is the rule's (R83). -/
theorem fitsCrc_operands_iff (s : State) (h : Nat) :
    fitsCrc s.cfg.bufBytes (s.operands h) = true ↔ RangeOk s (.crcAdd h) :=
  decide_eq_true_iff

/-- The verdict of the CRC check under either policy (R113). -/
theorem crcChk_eq_true_iff (en : Bool) (s : Bytes) : crcChk en s = true ↔ en = false ∨ CrcMatches s := by
  cases en with
  | false => simp
  | true => simpa [CrcMatches] using crcChk_true_iff s

theorem crcStrip_of_short {s : Bytes} (h : s.length < 2) : crcStrip true s = .error .crcShort := by
  simp [crcStrip, h]

theorem crcStrip_of_mismatch {s : Bytes} (hl : 2 ≤ s.length) (hm : ¬CrcMatches s) :
    crcStrip true s = .error .crcMismatch := by
  obtain ⟨hshort, -⟩ | ⟨-, -, he⟩ | ⟨body, hb, -⟩ := crcStrip_cases s
  · omega
  · exact he
  · exact absurd ⟨body, hb⟩ hm

/-- Settles O11: the append command's spec with the CRC engine. -/
theorem crcAddAppendsCrc : Obligations.CrcAddAppendsCrc := by
  intro s h hr
  obtain ⟨t, ht, hports, hok, herr⟩ := State.accepted_append_spec fitsCrc (fun o => crcAdd o.crcEn o.tx) hr
  refine ⟨t, by rw [exec_crcAdd, ht], hports, fun hf => hok ((fitsCrc_operands_iff s h).2 hf), fun hf => herr ?_⟩
  rwa [← Bool.not_eq_true, fitsCrc_operands_iff]

/-- Settles O12: the check command's spec, its verdict by `crcChk_eq_true_iff`. -/
theorem crcChkReportsVerdict : Obligations.CrcChkReportsVerdict := by
  intro s h hr
  obtain ⟨t, ht, hports, hends⟩ := State.accepted_check_spec (fun o => crcChk o.crcEn o.tx) hr
  exact ⟨t, _, by rw [exec_crcChk, ht], hports, crcChk_eq_true_iff _ _, hends⟩

/-- Settles O13: the strip command's spec, with each answer of the CRC engine. -/
theorem crcStripRemovesCrc : Obligations.CrcStripRemovesCrc := by
  intro s h hr
  obtain ⟨t, ht, hports, hok, herr⟩ := State.accepted_strip_spec (fun o => crcStrip o.crcEn o.tx) hr
  simp only [State.operands_crcEn, State.operands_tx] at hok herr
  refine ⟨t, by rw [exec_crcStrip, ht], hports, fun hen => hok _ (by rw [hen]; rfl), fun hen => ?_⟩
  rw [hen] at hok herr
  refine ⟨fun hs => herr _ (crcStrip_of_short hs), fun hl hm => herr _ (crcStrip_of_mismatch hl hm), fun body hb => ?_⟩
  exact hok body (by rw [hb, crcStrip_append])

/-- CRC.CHK of a ready state as RESULT and the error record show it (R113). -/
theorem exec_crcChk_result {s : State} {h : Nat} (hr : Ready s h) :
    ∃ t, exec (.crcChk h) s = .next t ∧ (t.chan s.sel).err = 0#4
      ∧ ((t.chan s.sel).result = true ↔ (s.handle h).crcEn = false ∨ CrcMatches (operand s)) := by
  obtain ⟨t, ok, ht, -, hiff, -, hchan, -⟩ := crcChkReportsVerdict s h hr
  exact ⟨t, ht, by rw [hchan], by rw [hchan]; exact hiff⟩

/-- Settles O15: what CRC.CHK and CRC.STRIP do, on an operand that carries its CRC; the residue is
`crc16_append_crcBytes`. -/
theorem addedCrcChecksAndStrips : Obligations.AddedCrcChecksAndStrips := by
  refine ⟨fun s h b hr hen hop => ⟨?chk, ?strip⟩, crc16_append_crcBytes⟩
  case chk =>
    obtain ⟨t, ht, herr, hiff⟩ := exec_crcChk_result hr
    exact ⟨t, ht, hiff.2 (.inr ⟨b, hop⟩), herr⟩
  case strip =>
    obtain ⟨t, ht, -, -, henabled⟩ := crcStripRemovesCrc s h hr
    obtain ⟨-, -, hbody⟩ := henabled hen
    exact ⟨t, ht, hbody b hop⟩

/-- A sequence with its CRC has residue 0. -/
theorem crc16_of_crcMatches {s : Bytes} (h : CrcMatches s) : crc16 s = 0#16 := by
  obtain ⟨body, rfl⟩ := h
  exact crc16_append_crcBytes body

/-- A set bit inverts the octet it is added to. -/
theorem xor_bit_ne (b : Byte) {k : Nat} (hk : k < 8) : b ^^^ (1#8 <<< k) ≠ b := fun h => by
  have hbit : 1#8 <<< k ≠ 0#8 := (by decide : ∀ k < 8, 1#8 <<< k ≠ 0#8) k hk
  exact hbit ((BitVec.xor_right_inj b).1 (h.trans BitVec.xor_zero.symm))

/-- One inverted bit breaks the match: it changes the CRC of the whole, whose residue was 0 (R116). -/
theorem not_crcMatches_flipBit {s : Bytes} {i : Nat} (hm : CrcMatches s) (hi : i < 8 * s.length) :
    ¬CrcMatches (flipBit s i) := fun hflip => by
  have hne : crc16 (flipBit s i) ≠ crc16 s :=
    crc16_modify_ne (fun b => xor_bit_ne b (Nat.mod_lt i (by decide))) (Nat.div_lt_of_lt_mul hi)
  exact hne (by rw [crc16_of_crcMatches hflip, crc16_of_crcMatches hm])

/-- Settles O16: the verdict of CRC.CHK on a sequence that no longer matches, and with the policy disabled. -/
theorem crcChkDetectsEverySingleBitError : Obligations.CrcChkDetectsEverySingleBitError := by
  refine ⟨fun s h b i hr hen hi hop => ?enabled, fun s h hr hen => ?disabled⟩
  case enabled =>
    obtain ⟨t, ht, herr, hiff⟩ := exec_crcChk_result hr
    have hno : ¬CrcMatches (operand s) := by
      rw [hop]
      exact not_crcMatches_flipBit ⟨b, rfl⟩ (by simpa using hi)
    refine ⟨t, ht, ?_, herr⟩
    rw [← Bool.not_eq_true, hiff, hen]
    simp [hno]
  case disabled =>
    obtain ⟨t, ht, herr, hiff⟩ := exec_crcChk_result hr
    exact ⟨t, ht, hiff.2 (.inl hen), herr⟩

end Sys2Proof.Machine
end

section
/-! PROOF. The ends of the framer commands past the common part of their meanings: a build command puts its frame out,
a parse command ends with the record or the error of its engine (30_encoding.md R82, R83; 43_framers.md R180). -/

namespace Sys2Proof.Machine

open Sys2Proof.Safety

/-- A success end as seen from before an update of the ending channel. -/
theorem endsOk_of_modChan {s t : State} {c : Nat} {f : Chan → Chan} {ch : Chan} {out : Bytes}
    (h : EndsOk (s.modChan c f) t c ch out) : EndsOk s t c ch out := by
  obtain ⟨hothers, hchan, hin, hout⟩ := h
  exact ⟨othersSame_trans (State.othersSame_modChan s c f) hothers, hchan, hin, hout⟩

/-- An error end as seen from before an update of the ending channel. -/
theorem endsErr_of_modChan {s t : State} {c : Nat} {f : Chan → Chan} {ch : Chan} {err : BitVec 4} {sub : BitVec 8}
    (h : EndsErr (s.modChan c f) t c ch err sub) : EndsErr s t c ch err sub := by
  obtain ⟨hothers, hchan, hmem⟩ := h
  exact ⟨othersSame_trans (State.othersSame_modChan s c f) hothers, hchan, hmem⟩

/-- A failing marker check of a ready command whose operands fit is ConfigurationError(4) (R82 step 6). -/
theorem State.accepted_badEol {s : State} {h : Nat} {need : Needs} (run : Operands → State → State) (hr : Ready s h)
    (hf : need.fits s.cfg.bufBytes (s.operands h) = true) (hp : need.port = true → PortOk s h)
    (he : need.eol = true) (hm : ¬MarkerOk s h) : s.accepted h need run = s.raise s.sel .badEol := by
  obtain ⟨-, hh, hn⟩ := hr
  have hrange : ¬(s.cfg.bufBytes < (s.operands h).n ∨ need.fits s.cfg.bufBytes (s.operands h) = false) := by
    simpa [hf] using hn
  have hport : ¬(need.port = true ∧ s.cfg.nport ≤ (s.operands h).port) := fun ⟨hu, hle⟩ => Nat.not_le.2 (hp hu) hle
  have hlen : (s.operands h).eolLen = 0 ∨ Config.seqMax < (s.operands h).eolLen := by
    unfold MarkerOk at hm
    simp only [State.operands_eolLen, Config.seqMax]
    omega
  have herr : acceptError s.cfg (s.operands h) need = some .badEol := by
    rw [acceptError, State.operands_h, if_neg (Nat.not_le.2 hh), if_neg hrange, if_neg hport, if_pos ⟨he, hlen⟩]
  rw [State.accepted, herr]

/-- A framer's success end: RES and RESULT as it set them, the free values its operand drew show nowhere. -/
theorem State.finish_setRes_spec {s : State} (k : Nat) (v : Byte) (out : Bytes) (h : s.sel < s.chans.length) :
    EndsOk s (((s.addFree k).modChan s.sel (Chan.setRes v)).finish false out) s.sel
        { s.chan s.sel with result := false, res := v } out
      ∧ PortsSame s (((s.addFree k).modChan s.sel (Chan.setRes v)).finish false out) := by
  have hlen : s.sel < ((s.addFree k).modChan s.sel (Chan.setRes v)).chans.length := by simpa using h
  obtain ⟨hends, hports⟩ := State.finish_spec (s := (s.addFree k).modChan s.sel (Chan.setRes v)) false out hlen
  have hchan : ((s.addFree k).modChan s.sel (Chan.setRes v)).chan s.sel = Chan.setRes v (s.chan s.sel) :=
    State.chan_modChan_self _ h
  rw [State.modChan_sel, State.addFree_sel, hchan] at hends
  exact ⟨endsOk_of_modChan (s := s.addFree k) hends, hports⟩

/-- The two ends of a parse command: the record with RESULT 0, or the error. -/
theorem State.endParse_setResult_spec {s : State} (k : Nat) (r : Except CmdError Rec) (h : s.sel < s.chans.length) :
    (∀ rec, r = .ok rec →
        EndsOk s (((s.addFree k).modChan s.sel (Chan.setResult false)).endParse s.sel r) s.sel
          { s.chan s.sel with result := false, res := rec.res } rec.body)
      ∧ (∀ e, r = .error e →
          EndsErr s (((s.addFree k).modChan s.sel (Chan.setResult false)).endParse s.sel r) s.sel (s.chan s.sel)
            e.errCode e.sub)
      ∧ PortsSame s (((s.addFree k).modChan s.sel (Chan.setResult false)).endParse s.sel r) := by
  have hlen : s.sel < ((s.addFree k).modChan s.sel (Chan.setResult false)).chans.length := by simpa using h
  have hchan : ((s.addFree k).modChan s.sel (Chan.setResult false)).chan s.sel
      = Chan.setResult false (s.chan s.sel) := State.chan_modChan_self _ h
  cases r with
  | ok rec =>
    obtain ⟨hends, hports⟩ := State.endParse_ok rec hlen
    rw [hchan] at hends
    exact ⟨fun _ ho => Except.ok.inj ho ▸ endsOk_of_modChan (s := s.addFree k) hends, nofun, hports⟩
  | error e =>
    obtain ⟨hends, hports⟩ := State.raise_spec e hlen
    rw [hchan] at hends
    exact ⟨nofun, fun _ he => Except.error.inj he ▸ endsErr_of_modChan (s := s.addFree k) hends, hports⟩

/-- A build command of a ready state: its frame where it fits and the marker it needs is legal, else the error of the
first check that fails, the range before the marker. -/
theorem State.accepted_build_spec {s : State} {h : Nat} (fits : Nat → Operands → Bool) (eol : Bool)
    (out : Operands → Bytes) (hr : Ready s h) :
    ∃ t, s.accepted h ⟨fits, false, eol⟩ (fun o s => (s.modChan s.sel (Chan.setRes 0#8)).finish false (out o)) = t
      ∧ PortsSame s t
      ∧ (fits s.cfg.bufBytes (s.operands h) = true → (eol = true → MarkerOk s h) →
          EndsOk s t s.sel { s.chan s.sel with result := false, res := 0#8 } (out (s.operands h)))
      ∧ (fits s.cfg.bufBytes (s.operands h) = false → EndsErr s t s.sel (s.chan s.sel) 5#4 4#8)
      ∧ (fits s.cfg.bufBytes (s.operands h) = true → eol = true → ¬MarkerOk s h →
          EndsErr s t s.sel (s.chan s.sel) 4#4 4#8) := by
  cases hf : fits s.cfg.bufBytes (s.operands h) with
  | false =>
    obtain ⟨hends, hports⟩ := State.raise_spec .operandRange hr.1
    exact ⟨_, State.accepted_operandRange _ hr hf, hports, nofun, fun _ => hends, nofun⟩
  | true =>
    by_cases hm : eol = true → MarkerOk s h
    · obtain ⟨hends, hports⟩ := State.finish_setRes_spec (s.operands h).n 0#8 (out (s.operands h)) hr.1
      exact ⟨_, State.accepted_ok _ hr hf nofun hm, hports, fun _ _ => hends, nofun,
        fun _ he hbad => absurd (hm he) hbad⟩
    · obtain ⟨he, hbad⟩ := Classical.not_imp.1 hm
      obtain ⟨hends, hports⟩ := State.raise_spec .badEol hr.1
      exact ⟨_, State.accepted_badEol _ hr hf nofun he hbad, hports, fun _ hm' => absurd hm' hm, nofun,
        fun _ _ _ => hends⟩

/-- A parse command of a ready state ends with what its engine answers. -/
theorem State.accepted_parse_spec {s : State} {h : Nat} (parse : Operands → Except CmdError Rec) (hr : Ready s h) :
    ∃ t, s.accepted h ⟨fitsAny, false, false⟩
          (fun o s => (s.modChan s.sel (Chan.setResult false)).endParse s.sel (parse o)) = t
      ∧ PortsSame s t
      ∧ (∀ rec, parse (s.operands h) = .ok rec →
          EndsOk s t s.sel { s.chan s.sel with result := false, res := rec.res } rec.body)
      ∧ ∀ e, parse (s.operands h) = .error e → EndsErr s t s.sel (s.chan s.sel) e.errCode e.sub := by
  obtain ⟨hok, herr, hports⟩ := State.endParse_setResult_spec (s.operands h).n (parse (s.operands h)) hr.1
  exact ⟨_, State.accepted_ok _ hr rfl nofun nofun, hports, hok, herr⟩

end Sys2Proof.Machine
end

section
/-! PROOF. The ASCII framers ASC.BUILD and ASC.PARSE (43_framers.md R180 to R184). -/

namespace Sys2Proof.Machine

open Sys2Proof.Safety

theorem exec_ascBuild (h : Nat) (s : State) :
    exec (.ascBuild h) s
      = .next (s.accepted h ⟨fitsAsc, false, true⟩ fun o s =>
          (s.modChan s.sel (Chan.setRes 0#8)).finish false o.ascOut) := rfl

theorem exec_ascParse (h : Nat) (s : State) :
    exec (.ascParse h) s
      = .next (s.accepted h ⟨fitsAny, false, false⟩ fun o s =>
          (s.modChan s.sel (Chan.setResult false)).endParse s.sel (ascParse o.addr o.addrEn o.sumEn o.tx)) := rfl

/-- The model's range check is the rule's (R83). -/
theorem fitsAsc_operands_iff (s : State) (h : Nat) :
    fitsAsc s.cfg.bufBytes (s.operands h) = true ↔ RangeOk s (.ascBuild h) :=
  decide_eq_true_iff

/-- The frame the operands give is the rule's (R183). -/
theorem State.operands_ascOut (s : State) (h : Nat) : (s.operands h).ascOut = asciiFrame s h := rfl

/-- What SUM.ADD appends, the strip takes off again, under either policy (R105). -/
theorem sumStrip_sumAdd (en : Bool) (r : Bytes) : sumStrip en (sumAdd en r) = .ok r := by
  cases en with
  | false => rfl
  | true => exact sumStrip_append r

/-- The checksum is the first check of the ASCII parse (R180, R184). -/
theorem ascParse_of_sumStrip_error {addr : Byte} {addrEn sumEn : Bool} {s : Bytes} {e : CmdError}
    (h : sumStrip sumEn s = .error e) : ascParse addr addrEn sumEn s = .error e := by
  rw [ascParse, h]

/-- Past the checksum the parse is the content's (R184). -/
theorem ascParse_sumAdd (addr : Byte) (addrEn sumEn : Bool) (r : Bytes) :
    ascParse addr addrEn sumEn (sumAdd sumEn r) = ascContent addr addrEn r := by
  rw [ascParse, sumStrip_sumAdd]

theorem ascContent_of_badSeparator {addr : Byte} {addrEn : Bool} {r : Bytes}
    (h : ∀ sep rest, r = sep :: rest → sep ∉ separators) : ascContent addr addrEn r = .error .badSeparator := by
  cases r with
  | nil => rfl
  | cons sep rest => exact if_pos (h sep rest rfl)

theorem ascContent_of_addrEn_false {addr sep : Byte} {rest : Bytes} (h : sep ∈ separators) :
    ascContent addr false (sep :: rest) = .ok ⟨sep, rest⟩ :=
  if_neg (not_not_intro h)

theorem ascContent_of_badAddress {addr sep : Byte} {rest : Bytes} (h : sep ∈ separators)
    (ha : ∀ a b body, rest = a :: b :: body → hexVal a b ≠ some addr.toNat) :
    ascContent addr true (sep :: rest) = .error .badAddress := by
  refine (if_neg (not_not_intro h)).trans ?_
  match rest, ha with
  | [], _ => rfl
  | [_], _ => rfl
  | a :: b :: body, ha => exact if_neg (ha a b body rfl)

theorem ascContent_of_address {addr sep a b : Byte} {body : Bytes} (h : sep ∈ separators)
    (ha : hexVal a b = some addr.toNat) : ascContent addr true (sep :: a :: b :: body) = .ok ⟨sep, body⟩ :=
  (if_neg (not_not_intro h)).trans (if_pos ha)

/-- Settles O17: the build command's spec with the ASCII frame, which needs the marker. -/
theorem ascBuildSerialisesFrame : Obligations.AscBuildSerialisesFrame := by
  intro s h hr
  obtain ⟨t, ht, hports, hok, hrange, hmarker⟩ := State.accepted_build_spec fitsAsc true Operands.ascOut hr
  rw [fitsAsc_operands_iff] at hok hmarker
  rw [State.operands_ascOut] at hok
  rw [← Bool.not_eq_true, fitsAsc_operands_iff] at hrange
  exact ⟨t, by rw [exec_ascBuild, ht], hports, fun hf hm => hok hf fun _ => hm, hrange, fun hf => hmarker hf rfl⟩

/-- Settles O18: the parse command's spec; the checksum's answers are `sumStrip`'s, the others the content's. -/
theorem ascParseChecksReply : Obligations.AscParseChecksReply := by
  intro s h hr
  obtain ⟨t, ht, hports, hok, herr⟩ :=
    State.accepted_parse_spec (fun o => ascParse o.addr o.addrEn o.sumEn o.tx) hr
  simp only [State.operands_addr, State.operands_addrEn, State.operands_sumEn, State.operands_tx] at hok herr
  refine ⟨t, by rw [exec_ascParse, ht], hports, fun hen hs => herr .sumShort ?short,
    fun hen hl hm => herr .sumMismatch ?mismatch, fun r hop => ?content⟩
  case short => exact ascParse_of_sumStrip_error (by rw [hen, sumStrip_of_short hs])
  case mismatch => exact ascParse_of_sumStrip_error (by rw [hen, sumStrip_of_mismatch hl hm])
  case content =>
    have hparse : ascParse (s.handle h).addr (s.handle h).addrEn (s.handle h).sumEn (operand s)
        = ascContent (s.handle h).addr (s.handle h).addrEn r := by
      rw [hop]
      exact ascParse_sumAdd _ _ _ r
    rw [hparse] at hok herr
    refine ⟨fun hsep => herr _ (ascContent_of_badSeparator hsep), ?_⟩
    rintro sep rest rfl hsep
    refine ⟨fun hen => ?_, fun hen => ?_⟩ <;> rw [hen] at hok herr
    · exact hok _ (ascContent_of_addrEn_false hsep)
    · refine ⟨fun ha => herr _ (ascContent_of_badAddress hsep ha), ?_⟩
      rintro a b body rfl ha
      exact hok _ (ascContent_of_address hsep ha)

end Sys2Proof.Machine
end

section
/-! PROOF. The binary framers RTU.BUILD and RTU.PARSE (43_framers.md R180, R190 to R192). -/

namespace Sys2Proof.Machine

open Sys2Proof.Safety

theorem exec_rtuBuild (h : Nat) (s : State) :
    exec (.rtuBuild h) s
      = .next (s.accepted h ⟨fitsRtu, false, false⟩ fun o s =>
          (s.modChan s.sel (Chan.setRes 0#8)).finish false o.rtuOut) := rfl

theorem exec_rtuParse (h : Nat) (s : State) :
    exec (.rtuParse h) s
      = .next (s.accepted h ⟨fitsAny, false, false⟩ fun o s =>
          (s.modChan s.sel (Chan.setResult false)).endParse s.sel (rtuParse o.addr o.crcEn o.tx)) := rfl

/-- The model's range check is the rule's (R83). -/
theorem fitsRtu_operands_iff (s : State) (h : Nat) :
    fitsRtu s.cfg.bufBytes (s.operands h) = true ↔ RangeOk s (.rtuBuild h) :=
  decide_eq_true_iff

/-- The frame the operands give is the rule's (R191). -/
theorem State.operands_rtuOut (s : State) (h : Nat) : (s.operands h).rtuOut = binaryFrame s h := rfl

/-- What CRC.ADD appends, the strip takes off again, under either policy (R115). -/
theorem crcStrip_crcAdd (en : Bool) (r : Bytes) : crcStrip en (crcAdd en r) = .ok r := by
  cases en with
  | false => rfl
  | true => exact crcStrip_append r

/-- The CRC is the first check of the binary parse (R180, R192). -/
theorem rtuParse_of_crcStrip_error {addr : Byte} {crcEn : Bool} {s : Bytes} {e : CmdError}
    (h : crcStrip crcEn s = .error e) : rtuParse addr crcEn s = .error e := by
  rw [rtuParse, h]

/-- Past the CRC the parse is the content's (R192). -/
theorem rtuParse_crcAdd (addr : Byte) (crcEn : Bool) (r : Bytes) :
    rtuParse addr crcEn (crcAdd crcEn r) = rtuContent addr r := by
  rw [rtuParse, crcStrip_crcAdd]

theorem rtuContent_of_badAddress {addr : Byte} {r : Bytes} (h : ∀ rest, r ≠ addr :: rest) :
    rtuContent addr r = .error .badAddress := by
  cases r with
  | nil => rfl
  | cons a rest => exact if_pos fun ha => h rest (by rw [ha])

theorem rtuContent_of_short {addr : Byte} {rest : Bytes} (h : rest.length < 2) :
    rtuContent addr (addr :: rest) = .error .badLength := by
  refine (if_neg (not_not_intro rfl)).trans ?_
  match rest, h with
  | [], _ => rfl
  | [_], _ => rfl

theorem rtuContent_of_badLength {addr fn len : Byte} {data : Bytes} (h : data.length ≠ len.toNat) :
    rtuContent addr (addr :: fn :: len :: data) = .error .badLength :=
  (if_neg (not_not_intro rfl)).trans (if_neg h)

theorem rtuContent_of_length {addr fn len : Byte} {data : Bytes} (h : data.length = len.toNat) :
    rtuContent addr (addr :: fn :: len :: data) = .ok ⟨fn, data⟩ :=
  (if_neg (not_not_intro rfl)).trans (if_pos h)

/-- Settles O19: the build command's spec with the binary frame, which needs no marker. -/
theorem rtuBuildSerialisesFrame : Obligations.RtuBuildSerialisesFrame := by
  intro s h hr
  obtain ⟨t, ht, hports, hok, hrange, -⟩ := State.accepted_build_spec fitsRtu false Operands.rtuOut hr
  rw [fitsRtu_operands_iff, State.operands_rtuOut] at hok
  rw [← Bool.not_eq_true, fitsRtu_operands_iff] at hrange
  exact ⟨t, by rw [exec_rtuBuild, ht], hports, fun hf => hok hf nofun, hrange⟩

/-- Settles O20: the parse command's spec; the CRC's answers are `crcStrip`'s, the others the content's. -/
theorem rtuParseChecksReply : Obligations.RtuParseChecksReply := by
  intro s h hr
  obtain ⟨t, ht, hports, hok, herr⟩ := State.accepted_parse_spec (fun o => rtuParse o.addr o.crcEn o.tx) hr
  simp only [State.operands_addr, State.operands_crcEn, State.operands_tx] at hok herr
  refine ⟨t, by rw [exec_rtuParse, ht], hports, fun hen hs => herr .crcShort ?short,
    fun hen hl hm => herr .crcMismatch ?mismatch, fun r hop => ?content⟩
  case short => exact rtuParse_of_crcStrip_error (by rw [hen, crcStrip_of_short hs])
  case mismatch => exact rtuParse_of_crcStrip_error (by rw [hen, crcStrip_of_mismatch hl hm])
  case content =>
    have hparse : rtuParse (s.handle h).addr (s.handle h).crcEn (operand s) = rtuContent (s.handle h).addr r := by
      rw [hop]
      exact rtuParse_crcAdd _ _ r
    rw [hparse] at hok herr
    refine ⟨fun ha => herr _ (rtuContent_of_badAddress ha), ?_⟩
    rintro rest rfl
    refine ⟨fun hs => herr _ (rtuContent_of_short hs), ?_⟩
    rintro fn len data rfl
    exact ⟨fun hl => herr _ (rtuContent_of_badLength hl), fun hl => hok _ (rtuContent_of_length hl)⟩

end Sys2Proof.Machine
end

section
/-! PROOF. Decoding and encoding (30_encoding.md R80 to R87): the opcode map row by row, and the two directions of the
round trip. -/

namespace Sys2Proof.Machine

open Sys2Proof.Safety

/-- The opcodes of the model's map are the rule's, in its order (R84). -/
theorem opcodeTable_keys : opcodeTable.map Prod.fst = opcodes := rfl

/-- Every row of the opcode map builds commands of its own opcode with the handle it is given (R84). -/
theorem opcodeTable_row {e : BitVec 8 × (Nat → Instr)} (he : e ∈ opcodeTable) (h : Nat) :
    (e.2 h).opc = e.1 ∧ (e.2 h).handle = h := by
  simp only [opcodeTable, List.mem_cons, List.not_mem_nil, or_false] at he
  rcases he with rfl | rfl | rfl | rfl | rfl | rfl | rfl | rfl | rfl | rfl | rfl | rfl | rfl | rfl | rfl | rfl | rfl |
    rfl | rfl | rfl | rfl <;> exact ⟨rfl, rfl⟩

/-- The map's row at a command's opcode rebuilds the command from its handle. -/
theorem opcodeTable_lookup_opc (i : Instr) : ∃ mk, opcodeTable.lookup i.opc = some mk ∧ mk i.handle = i := by
  cases i <;> exact ⟨_, rfl, rfl⟩

/-- A key that the map finds is in it. -/
theorem mem_of_lookup {α β : Type} [BEq α] [LawfulBEq α] {l : List (α × β)} {a : α} {b : β} (h : l.lookup a = some b) :
    (a, b) ∈ l := by
  obtain ⟨l₁, l₂, rfl, -⟩ := List.lookup_eq_some_iff.1 h
  simp

/-- The map finds no row exactly for an unlisted opcode. -/
theorem opcodeTable_lookup_eq_none_iff (o : BitVec 8) : opcodeTable.lookup o = none ↔ o ∉ opcodes := by
  rw [List.lookup_eq_none_iff, ← opcodeTable_keys, List.mem_map]
  simp only [bne_iff_ne, ne_eq]
  exact ⟨fun h ⟨e, he, ho⟩ => h e he ho.symm, fun h e he ho => h ⟨e, he, ho.symm⟩⟩

/-- A word is the three fields of its format (R80). -/
theorem word_eq_fields (w : Word) : w.extractLsb' 16 16 ++ w.extractLsb' 8 8 ++ w.extractLsb' 0 8 = w := by
  refine BitVec.eq_of_getLsbD_eq fun j hj => ?_
  simp only [BitVec.getLsbD_append, BitVec.getLsbD_extractLsb']
  split_ifs with h0 h1
  · simp [h0]
  · simp [h1, show 8 + (j - 8) = j by omega]
  · simp [show j - 8 - 8 < 16 by omega, show 16 + (j - 8 - 8) = j by omega]

/-- Settles O1: the encoded word's fields pick the command's own row of the opcode map. -/
theorem decodeEncodeRoundTrip : Obligations.DecodeEncodeRoundTrip := by
  intro i hwf
  obtain ⟨hopc, hhsel, hreserved⟩ := Laws.encode_fields i hwf
  obtain ⟨mk, hlookup, hmk⟩ := opcodeTable_lookup_opc i
  rw [decode, wordOpc, hopc, hlookup]
  dsimp only
  rw [wordReserved, hreserved, if_pos rfl, wordHsel, hhsel, hmk]

/-- Settles O2: the row that decoded the word gives back its opcode and its handle, and its upper bits are 0. -/
theorem decodedWordEncodesBack : Obligations.DecodedWordEncodesBack := by
  intro w i h
  unfold decode at h
  split at h
  · cases h
  · rename_i mk hlookup
    split_ifs at h with hreserved
    obtain rfl := Except.ok.inj h
    obtain ⟨hopc, hhandle⟩ := opcodeTable_row (mem_of_lookup hlookup) (wordHsel w)
    dsimp only at hopc hhandle
    refine ⟨?_, decide_eq_true (show (mk (wordHsel w)).handle < 256 by rw [hhandle]; exact (w.extractLsb' 8 8).isLt)⟩
    rw [encode, hopc, hhandle, wordHsel, BitVec.ofNat_toNat, BitVec.setWidth_eq, ← hreserved]
    exact word_eq_fields w

/-- Settles O3: the first check is the map's lookup, the second is made only where the lookup finds a row. -/
theorem decodeRefusesIllegalWords : Obligations.DecodeRefusesIllegalWords := by
  intro w
  have hnone := opcodeTable_lookup_eq_none_iff (wordOpc w)
  rw [← show wordOpc w = w.extractLsb' 0 8 from rfl, ← show wordReserved w = w.extractLsb' 16 16 from rfl]
  cases hlookup : opcodeTable.lookup (wordOpc w) with
  | none => simp [decode, hlookup, hnone.1 hlookup]
  | some mk =>
    have hlisted : wordOpc w ∈ opcodes := by
      by_contra h
      rw [hnone.2 h] at hlookup
      cases hlookup
    by_cases hreserved : wordReserved w = 0#16 <;> simp [decode, hlookup, hlisted, hreserved]

/-- Settles O4: each word by evaluation of the decoder. -/
theorem decodeKnownWords : Obligations.DecodeKnownWords := by
  unfold Obligations.DecodeKnownWords
  decide

end Sys2Proof.Machine
end

section
/-! PROOF. The address map, both ways: the target of a window's offset, and the address of a target
(20_memory.md R62). -/

namespace Sys2Proof.Machine

open Sys2Proof.Safety

/-! ### The target of an address -/

/-- An address of a present channel's window is not cut to 16 bits. -/
theorem chanAddress_toNat {c off : Nat} (hc : c < 8) (hoff : off < 0x1000) :
    (chanAddress c off).toNat = 0x8000 + 0x1000 * c + off := by
  rw [chanAddress, BitVec.toNat_ofNat]
  omega

theorem handleAddress_toNat {h off : Nat} (hh : h < 448) (hoff : off < 0x40) :
    (handleAddress h off).toNat = 0x1000 + 0x40 * h + off := by
  rw [handleAddress, BitVec.toNat_ofNat]
  omega

theorem targetAt_chanAddress {p : Config.Params} {c off : Nat} (hc : c < p.nchan) (hn : p.nchan ≤ 8)
    (hoff : off < 0x1000) : targetAt p (chanAddress c off) = chanTarget p c off := by
  have ha := chanAddress_toNat (Nat.lt_of_lt_of_le hc hn) hoff
  rw [targetAt_chanWindow p (by omega), ha, show (0x8000 + 0x1000 * c + off - 0x8000) / 0x1000 = c by omega,
    show (0x8000 + 0x1000 * c + off - 0x8000) % 0x1000 = off by omega, if_pos hc]

theorem targetAt_cmdAddress {p : Config.Params} {c : Nat} (hc : c < p.nchan) (hn : p.nchan ≤ 8) :
    targetAt p (cmdAddress c) = .chanReg c .cmd :=
  targetAt_chanAddress (off := 0) hc hn (by omega)

theorem targetAt_handleAddress {p : Config.Params} {h off : Nat} {r : HandleReg} (hh : h < p.nhandle)
    (hn : p.nhandle ≤ 448) (hoff : off < 0x40) (hr : handleRegAt off = some r) :
    targetAt p (handleAddress h off) = .handleReg h r := by
  have ha := handleAddress_toNat (Nat.lt_of_lt_of_le hh hn) hoff
  simp only [targetAt]
  rw [if_neg (by omega), if_neg (by omega), if_neg (by omega), if_neg (by omega), if_neg (by omega), if_pos (by omega),
    ha, show (0x1000 + 0x40 * h + off - 0x1000) / 0x40 = h by omega,
    show (0x1000 + 0x40 * h + off - 0x1000) % 0x40 = off by omega, if_pos hh, hr]

/-- A word of TXBUF below BUF_BYTES. -/
theorem chanTarget_txbuf {p : Config.Params} {k : Nat} (c : Nat) (hk : k < p.bufBytes) (hhi : k < 0x400) :
    chanTarget p c (0x400 + k) = .txbuf c k := by
  rw [chanTarget, if_neg (by omega), if_pos (by omega), if_pos (by omega), Nat.add_sub_cancel_left]

/-! ### The address of a target -/

/-- The four windows of a channel: its registers, the two buffers, and the holes. -/
theorem chanTarget_cases (p : Config.Params) (c off : Nat) :
    chanTarget p c off = .reserved
      ∨ (∃ r, off < 0x400 ∧ chanRegAt off = some r ∧ chanTarget p c off = .chanReg c r)
      ∨ (0x400 ≤ off ∧ off - 0x400 < p.bufBytes ∧ chanTarget p c off = .txbuf c (off - 0x400))
      ∨ (0x800 ≤ off ∧ off - 0x800 < p.bufBytes ∧ chanTarget p c off = .rxbuf c (off - 0x800)) := by
  generalize ht : chanTarget p c off = t
  unfold chanTarget at ht
  split at ht
  · cases hr : chanRegAt off with
    | none => exact .inl (by rw [← ht, hr])
    | some r => exact .inr (.inl ⟨r, by assumption, rfl, by rw [← ht, hr]⟩)
  · split at ht
    · split at ht
      · exact .inr (.inr (.inl ⟨by omega, by assumption, ht.symm⟩))
      · exact .inl ht.symm
    · split at ht
      · split at ht
        · exact .inr (.inr (.inr ⟨by omega, by assumption, ht.symm⟩))
        · exact .inl ht.symm
      · exact .inl ht.symm

/-- The three regions of the register space: the global registers, the handle windows and the channel windows. -/
theorem targetAt_cases (p : Config.Params) (addr : BitVec 16) :
    (targetAt p addr = .id ∨ targetAt p addr = .params ∨ targetAt p addr = .reserved
        ∨ ∃ q, targetAt p addr = .portStatus q)
      ∨ (∃ h r, 0x1000 ≤ addr.toNat ∧ addr.toNat < 0x8000 ∧ targetAt p addr = .handleReg h r)
      ∨ (0x8000 ≤ addr.toNat ∧ (addr.toNat - 0x8000) / 0x1000 < p.nchan
        ∧ targetAt p addr = chanTarget p ((addr.toNat - 0x8000) / 0x1000) ((addr.toNat - 0x8000) % 0x1000)) := by
  by_cases hlo : 0x8000 ≤ addr.toNat
  · rw [targetAt_chanWindow p hlo]
    split
    · exact .inr (.inr ⟨hlo, by assumption, rfl⟩)
    · exact .inl (.inr (.inr (.inl rfl)))
  · generalize ht : targetAt p addr = t
    simp only [targetAt] at ht
    split at ht
    · exact .inl (.inl ht.symm)
    split at ht
    · exact .inl (.inr (.inl ht.symm))
    split at ht
    · exact .inl (.inr (.inr (.inl ht.symm)))
    split at ht
    · exact .inl (.inr (.inr (.inr ⟨_, ht.symm⟩)))
    split at ht
    · exact .inl (.inr (.inr (.inl ht.symm)))
    rw [if_pos (by omega)] at ht
    split at ht
    · split at ht
      · exact .inr (.inl ⟨_, _, by omega, by omega, ht.symm⟩)
      · exact .inl (.inr (.inr (.inl ht.symm)))
    · exact .inl (.inr (.inr (.inl ht.symm)))

/-- The handle registers stand in the handle windows. -/
theorem targetAt_handleReg_inv {p : Config.Params} {addr : BitVec 16} {h : Nat} {r : HandleReg}
    (ht : targetAt p addr = .handleReg h r) : 0x1000 ≤ addr.toNat ∧ addr.toNat < 0x8000 := by
  obtain hg | ⟨_, _, hlo, hhi, -⟩ | ⟨-, -, hc⟩ := targetAt_cases p addr
  · rcases hg with hg | hg | hg | ⟨q, hg⟩ <;> rw [hg] at ht <;> cases ht
  · exact ⟨hlo, hhi⟩
  · rw [hc] at ht
    rcases chanTarget_cases p ((addr.toNat - 0x8000) / 0x1000) ((addr.toNat - 0x8000) % 0x1000) with
      hx | ⟨_, _, _, hx⟩ | ⟨_, _, hx⟩ | ⟨_, _, hx⟩ <;> rw [hx] at ht <;> cases ht

/-- A target of a channel stands in that channel's window, and the channel is present. -/
theorem targetAt_chanWindow_inv {p : Config.Params} {addr : BitVec 16} {t : Target} {c : Nat}
    (ht : targetAt p addr = t) (hc : (∃ r, t = .chanReg c r) ∨ (∃ k, t = .txbuf c k) ∨ ∃ k, t = .rxbuf c k) :
    c < p.nchan ∧ ∃ off, addr.toNat = 0x8000 + 0x1000 * c + off ∧ chanTarget p c off = t := by
  obtain hg | ⟨_, _, -, -, hh⟩ | ⟨hlo, hn, hw⟩ := targetAt_cases p addr
  · rcases hg with hg | hg | hg | ⟨q, hg⟩ <;> rw [hg] at ht <;> subst ht <;> simp at hc
  · rw [hh] at ht
    subst ht
    simp at hc
  · rw [hw] at ht
    have hcc : (addr.toNat - 0x8000) / 0x1000 = c := by
      rcases chanTarget_cases p ((addr.toNat - 0x8000) / 0x1000) ((addr.toNat - 0x8000) % 0x1000) with
        hx | ⟨_, _, _, hx⟩ | ⟨_, _, hx⟩ | ⟨_, _, hx⟩ <;> rw [hx] at ht <;> subst ht <;> simp at hc <;> exact hc
    rw [hcc] at hn ht
    exact ⟨hn, (addr.toNat - 0x8000) % 0x1000, by omega, ht⟩

/-- Only offset 0 of a channel's window is its CMD. -/
theorem chanRegAt_eq_cmd {off : Nat} (h : chanRegAt off = some .cmd) : off = 0 := by
  unfold chanRegAt at h
  split at h <;> simp at h ⊢

theorem targetAt_cmd_inv {p : Config.Params} {addr : BitVec 16} {c : Nat} (ht : targetAt p addr = .chanReg c .cmd) :
    addr = cmdAddress c := by
  obtain ⟨-, off, ha, hx⟩ := targetAt_chanWindow_inv ht (.inl ⟨_, rfl⟩)
  have hoff : off = 0 := by
    rcases chanTarget_cases p c off with hy | ⟨r, -, hr, hy⟩ | ⟨-, -, hy⟩ | ⟨-, -, hy⟩ <;> rw [hy] at hx <;>
      simp only [reduceCtorEq, Target.chanReg.injEq, true_and] at hx
    exact chanRegAt_eq_cmd (hx ▸ hr)
  subst hoff
  have hlt := addr.isLt
  refine BitVec.eq_of_toNat_eq ?_
  rw [cmdAddress, BitVec.toNat_ofNat]
  omega

/-- An aligned word of TXBUF lies below BUF_BYTES in a present channel's window. -/
theorem targetAt_txbuf_inv {p : Config.Params} {addr : BitVec 16} {c k : Nat} (ht : targetAt p addr = .txbuf c k)
    (ha : addr.toNat % 4 = 0) : c < p.nchan ∧ k < p.bufBytes ∧ k % 4 = 0 := by
  obtain ⟨hc, off, haddr, hx⟩ := targetAt_chanWindow_inv ht (.inr (.inl ⟨_, rfl⟩))
  rcases chanTarget_cases p c off with hy | ⟨_, -, -, hy⟩ | ⟨hlo, hb, hy⟩ | ⟨-, -, hy⟩ <;> rw [hy] at hx <;>
    simp only [reduceCtorEq, Target.txbuf.injEq, true_and] at hx
  exact ⟨hc, by omega, by omega⟩

/-- A write that issues a command is a 32-bit write to the channel's CMD (R22). -/
theorem issued?_inv {p : Config.Params} {e : Event} {c : Nat} {w : Word} (h : issued? p e = some (c, w)) :
    e = .hostWrite (cmdAddress c) 4 w := by
  cases e with
  | hostWrite addr width v =>
    simp only [issued?] at h
    split_ifs at h with hok
    obtain ⟨rfl, -⟩ : width = 4 ∧ addr.toNat % 4 = 0 := by simpa [busAccessOk] using hok
    split at h
    · rename_i c' ht
      obtain ⟨rfl, rfl⟩ : c' = c ∧ v = w := by simpa using h
      rw [targetAt_cmd_inv ht]
    · cases h
  | _ => cases h

end Sys2Proof.Machine
end

section
/-! PROOF. The registers themselves: what a write stores and a read returns, and the bytes of a word
(10_state.md R23 to R41; 20_memory.md R64, R68). -/

namespace Sys2Proof.Machine

open Sys2Proof.Safety

/-! ### Updates that store nothing -/

/-- An update that changes nothing of its channel changes nothing. -/
theorem State.modChan_eq_self {s : State} {c : Nat} {f : Chan → Chan} (h : f (s.chan c) = s.chan c) :
    s.modChan c f = s := by
  have hl : s.chans.modify c f = s.chans := by
    refine List.ext_getElem (by simp) fun i h1 h2 => ?_
    rw [List.getElem_modify]
    split_ifs with hi
    · subst hi
      have hi : s.chan c = s.chans[c] := by simp [State.chan, h2]
      rw [← hi, h]
    · rfl
  rw [State.modChan, hl]

/-- Every channel register ignores a write while the channel is busy (R68). -/
theorem Chan.writeReg_of_busy {ch : Chan} (r : ChanReg) (v : Word) (h : ch.busy = true) : ch.writeReg r v = ch :=
  if_pos h

/-- A write to a channel register changes operand registers at most. -/
theorem Chan.writeReg_operands (ch : Chan) (r : ChanReg) (v : Word) :
    ∃ tl a0 dl dm, ch.writeReg r v = { ch with txlen := tl, arg0 := a0, dlen := dl, delim := dm } := by
  unfold Chan.writeReg
  split
  · exact ⟨_, _, _, _, rfl⟩
  · cases r <;> exact ⟨_, _, _, _, rfl⟩

/-! ### Fields of a word -/

/-- Storing the low `n` bits of a word and reading them back masks it. -/
theorem setWidth_setWidth_eq_and (v : Word) (n : Nat) :
    (v.setWidth n).setWidth 32 = v &&& BitVec.ofNat 32 (2 ^ n - 1) := by
  refine BitVec.eq_of_getLsbD_eq fun i hi => ?_
  rw [BitVec.getLsbD_and, BitVec.getLsbD_ofNat, BitVec.getLsbD_setWidth, BitVec.getLsbD_setWidth,
    Nat.testBit_two_pow_sub_one]
  simp [hi, Bool.and_comm]

theorem and_allOnes (v : Word) : v &&& 0xFFFFFFFF#32 = v :=
  BitVec.and_allOnes

theorem Quad.get_set_ne (q : Quad) {j j' : Nat} (v : Word) (hj : j < 4) (hj' : j' < 4) (h : j' ≠ j) :
    (q.set j v).get j' = q.get j' := by
  match j, j' with
  | 0, 1 | 0, 2 | 0, 3 | 1, 0 | 1, 2 | 1, 3 | 2, 0 | 2, 1 | 2, 3 | 3, 0 | 3, 1 | 3, 2 => rfl
  | 0, 0 | 1, 1 | 2, 2 | 3, 3 => exact absurd rfl h
  | _ + 4, _ | _, _ + 4 => omega

/-! ### The registers of a handle slot and the operand registers of a channel -/

/-- Every row of the handle map: its offset is the register's, and the register stores the row's bits and reads them
back (R34 to R41). -/
theorem handleMap_row {off : Nat} {r : HandleReg} {mask : Word} (h : (off, r, mask) ∈ handleMap) :
    off < 0x40 ∧ off % 4 = 0 ∧ handleRegAt off = some r ∧ (∀ j, r = .eol j → j < 4)
      ∧ ∀ (hd : Handle) (v : Word), (hd.writeReg r v).readReg r = v &&& mask := by
  simp only [handleMap, List.mem_cons, Prod.mk.injEq, List.not_mem_nil, or_false] at h
  rcases h with ⟨rfl, rfl, rfl⟩ | ⟨rfl, rfl, rfl⟩ | ⟨rfl, rfl, rfl⟩ | ⟨rfl, rfl, rfl⟩ | ⟨rfl, rfl, rfl⟩ |
    ⟨rfl, rfl, rfl⟩ | ⟨rfl, rfl, rfl⟩ | ⟨rfl, rfl, rfl⟩ | ⟨rfl, rfl, rfl⟩ | ⟨rfl, rfl, rfl⟩ | ⟨rfl, rfl, rfl⟩
  all_goals refine ⟨by omega, by omega, rfl, by simp, fun hd v => ?_⟩
  case inl => exact setWidth_setWidth_eq_and v 6
  case inr.inr.inr.inr.inl => exact setWidth_setWidth_eq_and v 5
  case inr.inr.inl | inr.inr.inr.inr.inr.inr.inr.inr.inr.inl => rfl
  all_goals exact (and_allOnes v).symm

/-- A write to one register of a handle slot leaves every other one. -/
theorem Handle.readReg_writeReg_ne (hd : Handle) {r r' : HandleReg} (v : Word) (hr : ∀ j, r = .eol j → j < 4)
    (hr' : ∀ j, r' = .eol j → j < 4) (h : r' ≠ r) : (hd.writeReg r v).readReg r' = hd.readReg r' := by
  cases r with
  | eol j =>
    cases r' with
    | eol j' => exact Quad.get_set_ne _ v (hr j rfl) (hr' j' rfl) fun hj => h (hj ▸ rfl)
    | _ => rfl
  | _ => cases r' <;> trivial

/-- Every row of the operand map, as `handleMap_row` (R24, R26, R28, R29). -/
theorem operandMap_row {off : Nat} {r : ChanReg} {mask : Word} (h : (off, r, mask) ∈ operandMap) :
    off < 0x400 ∧ off % 4 = 0 ∧ chanRegAt off = some r ∧ r ≠ .cmd ∧ (∀ j, r = .delim j → j < 4)
      ∧ ∀ (ch : Chan) (k : Nat) (v : Word), ch.busy = false → (ch.writeReg r v).readReg k r = v &&& mask := by
  simp only [operandMap, List.mem_cons, Prod.mk.injEq, List.not_mem_nil, or_false] at h
  rcases h with ⟨rfl, rfl, rfl⟩ | ⟨rfl, rfl, rfl⟩ | ⟨rfl, rfl, rfl⟩ | ⟨rfl, rfl, rfl⟩ | ⟨rfl, rfl, rfl⟩ |
    ⟨rfl, rfl, rfl⟩ | ⟨rfl, rfl, rfl⟩
  all_goals
    refine ⟨by omega, by omega, rfl, by simp, by simp, fun ch k v hb => ?_⟩
    rw [Chan.writeReg, if_neg (by simp [hb])]
  case inl | inr.inl => exact setWidth_setWidth_eq_and v 16
  case inr.inr.inl => exact setWidth_setWidth_eq_and v 5
  all_goals exact (and_allOnes v).symm

/-- A write to one operand register of a channel leaves every other register. -/
theorem Chan.readReg_writeReg_ne (ch : Chan) (k : Nat) {r r' : ChanReg} (v : Word) (hr : ∀ j, r = .delim j → j < 4)
    (hr' : ∀ j, r' = .delim j → j < 4) (h : r' ≠ r) : (ch.writeReg r v).readReg k r' = ch.readReg k r' := by
  unfold Chan.writeReg
  split
  · rfl
  · cases r with
    | delim j =>
      cases r' with
      | delim j' => exact Quad.get_set_ne _ v (hr j rfl) (hr' j' rfl) fun hj => h (hj ▸ rfl)
      | _ => rfl
    | _ => cases r' <;> trivial

/-! ### The bytes of a word (R64) -/

/-- A word put together from its four bytes. -/
theorem bytesWord_wordBytes (v : Word) :
    bytesWord (v.extractLsb' 0 8) (v.extractLsb' 8 8) (v.extractLsb' 16 8) (v.extractLsb' 24 8) = v := by
  refine BitVec.eq_of_getLsbD_eq fun j hj => ?_
  simp only [bytesWord, BitVec.getLsbD_append, BitVec.getLsbD_extractLsb']
  split_ifs with h0 h1 h2
  · simp [h0]
  · simp [h1, show 8 + (j - 8) = j by omega]
  · simp [h2, show 16 + (j - 8 - 8) = j by omega]
  · simp [show j - 8 - 8 - 8 < 8 by omega, show 24 + (j - 8 - 8 - 8) = j by omega]

/-- Byte `j` of a word put together from four bytes. -/
theorem extractLsb'_bytesWord (f : Nat → Byte) {j : Nat} (hj : j < 4) :
    (bytesWord (f 0) (f 1) (f 2) (f 3)).extractLsb' (8 * j) 8 = f j := by
  match j, hj with
  | 0, _ => exact BitVec.extractLsb'_append_eq_right
  | 1, _ => exact (BitVec.extractLsb'_append_eq_of_le (by decide)).trans BitVec.extractLsb'_append_eq_right
  | 2, _ =>
    exact (BitVec.extractLsb'_append_eq_of_le (by decide)).trans <|
      (BitVec.extractLsb'_append_eq_of_le (by decide)).trans BitVec.extractLsb'_append_eq_right
  | 3, _ =>
    exact (BitVec.extractLsb'_append_eq_of_le (by decide)).trans <|
      (BitVec.extractLsb'_append_eq_of_le (by decide)).trans <|
        (BitVec.extractLsb'_append_eq_of_le (by decide)).trans BitVec.extractLsb'_eq_self

/-- Byte `j` of a TXBUF word, where it is known. -/
theorem State.readTarget_txbuf_byte {s : State} {c k j : Nat} {b : Byte} (hj : j < 4)
    (hb : s.byte? (txAddr c (k + j)) = some b) : (s.readTarget (.txbuf c k)).extractLsb' (8 * j) 8 = b := by
  refine (extractLsb'_bytesWord (fun i => s.txReadByte c (k + i) (s.free + i)) hj).trans ?_
  rw [State.txReadByte, hb, Option.getD_some]

/-- Byte `j` of an RXBUF word, where it is an output byte of a channel that is not busy. -/
theorem State.readTarget_rxbuf_byte {s : State} {c k j : Nat} {b : Byte} (hj : j < 4)
    (hidle : (s.chan c).busy = false) (hlen : k + j < (s.chan c).rxlen.toNat)
    (hb : s.byte? (rxAddr c (k + j)) = some b) : (s.readTarget (.rxbuf c k)).extractLsb' (8 * j) 8 = b := by
  refine (extractLsb'_bytesWord (fun i => s.rxByte c (k + i) (s.free + i)) hj).trans ?_
  rw [State.rxByte, if_pos ⟨hidle, hlen⟩, hb, Option.getD_some]

/-- A written TXBUF word reads back where its four bytes are known. -/
theorem State.readTarget_txbuf {s : State} {c k : Nat} {v : Word}
    (h : ∀ j b, (wordBytes v)[j]? = some b → s.byte? (txAddr c (k + j)) = some b) :
    s.readTarget (.txbuf c k) = v := by
  rw [State.readTarget]
  simp only [State.txReadByte]
  rw [show txAddr c k = txAddr c (k + 0) from rfl, h 0 _ rfl, h 1 _ rfl, h 2 _ rfl, h 3 _ rfl]
  exact bytesWord_wordBytes v

/-! ### The fields of `STATUS` (R23) -/

theorem Chan.statusWord_flags (ch : Chan) :
    ch.statusWord.getLsbD 0 = ch.busy ∧ ch.statusWord.getLsbD 1 = ch.done ∧ ch.statusWord.getLsbD 2 = ch.result
      ∧ ch.statusWord.getLsbD 3 = ch.rej := by
  refine ⟨?_, ?_, ?_, ?_⟩ <;>
  · rw [Chan.statusWord]
    simp only [BitVec.getLsbD_append]
    simp

/-- ERR, SUB, PHASE and the reserved bits: each field past the ones below it. -/
theorem Chan.statusWord_fields (ch : Chan) :
    ch.statusWord.extractLsb' 4 4 = ch.err ∧ ch.statusWord.extractLsb' 8 8 = ch.sub
      ∧ ch.statusWord.extractLsb' 16 3 = ch.phase.code ∧ ch.statusWord.extractLsb' 19 13 = 0#13 := by
  refine ⟨?_, ?_, ?_, ?_⟩ <;> rw [Chan.statusWord] <;>
    simp (disch := decide) only [BitVec.extractLsb'_append_eq_of_le, Nat.reduceSub, BitVec.extractLsb'_append_eq_right,
      BitVec.extractLsb'_eq_self]

end Sys2Proof.Machine
end

section
/-! PROOF. The statements about single host accesses (20_memory.md R62 to R68; 10_state.md R22 to R41). -/

namespace Sys2Proof.Machine

open Sys2Proof.Safety

/-! ### Accesses at an offset of a window -/

/-- An aligned offset of a channel's window has an aligned address. -/
theorem chanAddress_aligned {c off : Nat} (h : off % 4 = 0) : (chanAddress c off).toNat % 4 = 0 :=
  aligned_ofNat (by omega)

theorem handleAddress_aligned {h off : Nat} (ho : off % 4 = 0) : (handleAddress h off).toNat % 4 = 0 :=
  aligned_ofNat (by omega)

/-- A read at an offset of a present channel's window (R62, R63). -/
theorem step_hostRead_chanAddress {s : State} {rest : List Event} {c off : Nat} (hwf : s.cfg.wf = true)
    (hc : c < s.cfg.nchan) (hal : off % 4 = 0) (hoff : off < 0x1000)
    (hs : s.sched = .hostRead (chanAddress c off) 4 :: rest) :
    step s = .next { s with sched := rest, resp := .data (s.readTarget (chanTarget s.cfg c off)), free := s.free + 4 } := by
  rw [step_hostRead_word hs (chanAddress_aligned hal), targetAt_chanAddress hc (params_wf_bounds hwf).1 hoff]

/-- A write at an offset of a present channel's window that is not its CMD (R62, R63). -/
theorem step_hostWrite_chanAddress {s : State} {rest : List Event} {c off : Nat} {v : Word} (hwf : s.cfg.wf = true)
    (hc : c < s.cfg.nchan) (hal : off % 4 = 0) (hoff : off < 0x1000)
    (ht : ∀ c', chanTarget s.cfg c off ≠ .chanReg c' .cmd)
    (hs : s.sched = .hostWrite (chanAddress c off) 4 v :: rest) :
    step s = .next (((s.setSched rest).writeTarget (chanTarget s.cfg c off) v).setResp .ack) := by
  have htarget := targetAt_chanAddress hc (params_wf_bounds hwf).1 hoff
  rw [step_hostWrite_word hs (chanAddress_aligned hal) (by rw [htarget]; exact ht), htarget]

/-- An operand register stands at its row's offset. -/
theorem chanTarget_operandMap {p : Config.Params} {c off : Nat} {r : ChanReg} {mask : Word}
    (h : (off, r, mask) ∈ operandMap) : chanTarget p c off = .chanReg c r := by
  obtain ⟨hoff, -, hreg, -⟩ := operandMap_row h
  rw [chanTarget, if_pos hoff, hreg]

/-- Settles O39: an access the bus does not take issues nothing and answers its error. -/
theorem busErrorChangesNothing : Obligations.BusErrorChangesNothing := by
  intro s rest addr width v hbad
  have hno : ¬busAccessOk addr width = true := by
    simp only [busAccessOk, Bool.and_eq_true, decide_eq_true_eq]
    omega
  refine ⟨fun hs => ?_, fun hs => ⟨Config.freeWord s.free, s.free + 4, ?_⟩⟩
  · have hi : issued? (s.setSched rest).cfg (.hostWrite addr width v) = none := if_neg hno
    rw [step_of_sched hs, State.run_of_issued?_none hi, State.agentStep, State.hostWrite, if_neg hno]
    rfl
  · rw [step_of_sched hs, State.run_of_issued?_none rfl, State.agentStep, State.hostRead, if_neg hno]
    rfl

/-- Settles O42: the address names the slot's register, whose row of the map says what it stores. -/
theorem handleRegistersStoreTheirBits : Obligations.HandleRegistersStoreTheirBits := by
  intro s rest h off r mask v hrow hwf hshape hh hs
  obtain ⟨hoff, hal, hreg, hj, hback⟩ := handleMap_row hrow
  obtain ⟨-, hlen, -⟩ := hshape
  have htarget : targetAt s.cfg (handleAddress h off) = .handleReg h r :=
    targetAt_handleAddress hh (params_wf_bounds hwf).2.2.1 hoff hreg
  have hself : ∀ l, ((s.setSched l).modHandle h fun hd => hd.writeReg r v).handle h = (s.handle h).writeReg r v :=
    fun l => State.handle_modHandle_self _ (hlen ▸ hh)
  have hwrite := step_hostWrite_word hs (handleAddress_aligned hal) (by simp [htarget])
  rw [htarget] at hwrite
  refine ⟨_, _, hwrite, step_hostRead_word rfl (handleAddress_aligned hal), ?_, rfl, rfl, rfl, rfl, rfl, fun h' hne => ?_,
    fun off' r' mask' hrow' hne => ?_⟩
  · refine congrArg BusResponse.data ?_
    rw [State.setResp_cfg, State.writeTarget_cfg, State.setSched_cfg, htarget]
    exact (congrArg (Handle.readReg · r) (hself _)).trans (hback _ v)
  · exact State.handle_modHandle_ne _ _ hne
  · obtain ⟨-, -, -, hj', -⟩ := handleMap_row hrow'
    exact (congrArg (Handle.readReg · r') (hself _)).trans (Handle.readReg_writeReg_ne _ v hj hj' hne)

/-- Settles O43: as O42, in the window of a channel that is not busy. -/
theorem operandRegistersStoreTheirBits : Obligations.OperandRegistersStoreTheirBits := by
  intro s rest c off r mask v hrow hwf hshape hc hbusy hs
  obtain ⟨hoff, hal, -, hcmd, hj, hback⟩ := operandMap_row hrow
  obtain ⟨hlen, -, -⟩ := hshape
  have htarget : ∀ p, chanTarget p c off = .chanReg c r := fun p => chanTarget_operandMap hrow
  have hself : ∀ l, ((s.setSched l).modChan c fun ch => ch.writeReg r v).chan c = (s.chan c).writeReg r v :=
    fun l => State.chan_modChan_self _ (hlen ▸ hc)
  have hwrite := step_hostWrite_chanAddress hwf hc hal (by omega) (by simp [htarget, hcmd]) hs
  rw [htarget] at hwrite
  obtain ⟨tl, a0, dl, dm, hops⟩ := Chan.writeReg_operands (s.chan c) r v
  refine ⟨_, _, hwrite, step_hostRead_chanAddress (by simpa using hwf) (by simpa using hc) hal (by omega) rfl, ?_,
    State.othersSame_modChan ((s.setSched _).setResp .ack) c _, rfl, rfl, ⟨tl, a0, dl, dm, (hself _).trans hops⟩,
    fun off' r' mask' hrow' hne k => ?_⟩
  · refine congrArg BusResponse.data ?_
    rw [htarget]
    exact (congrArg (Chan.readReg · _ r) (hself _)).trans (hback _ _ v hbusy)
  · obtain ⟨-, -, -, -, hj', -⟩ := operandMap_row hrow'
    exact (congrArg (Chan.readReg · k r') (hself _)).trans (Chan.readReg_writeReg_ne _ k v hj hj' hne)

/-- Settles O44: the address is an operand register's or a word of TXBUF, and both ignore a write while busy. -/
theorem operandWritesIgnoredWhileBusy : Obligations.OperandWritesIgnoredWhileBusy := by
  intro s rest c off v hwf hc hbusy hoff hs
  obtain ⟨-, -, -, hbuf⟩ := params_wf_bounds hwf
  obtain hreg | ⟨hlo, hhi, hal⟩ := hoff
  · obtain ⟨⟨off', r, mask⟩, hrow, rfl⟩ := List.mem_map.1 hreg
    obtain ⟨hoff, hal, -, hcmd, -⟩ := operandMap_row hrow
    have htarget : chanTarget s.cfg c off' = .chanReg c r := chanTarget_operandMap hrow
    rw [step_hostWrite_chanAddress hwf hc hal (by omega) (by simp [htarget, hcmd]) hs, htarget,
      State.writeTarget, State.modChan_eq_self (Chan.writeReg_of_busy r v hbusy)]
    rfl
  · obtain ⟨k, rfl⟩ := Nat.exists_eq_add_of_le hlo
    have htarget := chanTarget_txbuf (p := s.cfg) (k := k) c (by omega) (by omega)
    rw [step_hostWrite_chanAddress hwf hc hal (by omega) (by simp [htarget]) hs, htarget, State.writeTarget,
      if_pos (by simpa using hbusy)]
    rfl

/-- Settles O45: the word's four bytes are written from its address on, and the read puts them together again. -/
theorem txBufferWordReadsBack : Obligations.TxBufferWordReadsBack := by
  intro s rest c k v hwf hc hbusy hal hk hs
  obtain ⟨-, -, -, hbuf⟩ := params_wf_bounds hwf
  have htarget : chanTarget s.cfg c (0x400 + k) = .txbuf c k := chanTarget_txbuf c hk (by omega)
  have hwrite := step_hostWrite_chanAddress hwf hc (by omega) (by omega) (by simp [htarget]) hs
  rw [htarget, State.writeTarget, if_neg (by simp [hbusy])] at hwrite
  have hin : ∀ j b, (wordBytes v)[j]? = some b →
      (s.mem.writeBytes (txAddr c k) (wordBytes v)).read? (txAddr c (k + j)) = some b := fun j b hb => by
    rw [show txAddr c (k + j) = txAddr c k + j by simp only [txAddr]; omega]
    exact Memory.read?_writeBytes_in _ _ _ hb
  refine ⟨_, _, hwrite, step_hostRead_chanAddress (by simpa using hwf) (by simpa using hc) (by omega) (by omega) rfl, ?_,
    hin 0 _ rfl, hin 1 _ rfl, hin 2 _ rfl, hin 3 _ rfl, fun a ha => Memory.read?_writeBytes_out _ _ _ ha, rfl, rfl, rfl⟩
  refine congrArg BusResponse.data ?_
  rw [State.setResp_cfg, State.setMem_cfg, State.setSched_cfg, htarget]
  exact State.readTarget_txbuf hin

/-- Settles O46: the word read is STATUS, and its fields are the channel's. -/
theorem statusFieldsReadable : Obligations.StatusFieldsReadable := by
  intro s rest c hwf hc hs
  obtain ⟨hbusy, hdone, hresult, hrej⟩ := Chan.statusWord_flags (s.chan c)
  obtain ⟨herr, hsub, hphase, hzero⟩ := Chan.statusWord_fields (s.chan c)
  refine ⟨s.free + 4, (s.chan c).statusWord, step_hostRead_chanAddress hwf hc (by omega) (by omega) hs, hbusy, hdone,
    hresult, hrej, herr, hsub, ?_, hzero⟩
  rw [hphase]
  cases (s.chan c).phase <;> rfl

/-- Settles O47: the word read is the target's at the offset, register by register and byte by byte. -/
theorem channelRegistersReadable : Obligations.ChannelRegistersReadable := by
  intro s rest c off hwf hc hal hoff hs
  obtain ⟨-, -, -, hbuf⟩ := params_wf_bounds hwf
  refine ⟨s.free + 4, s.readTarget (chanTarget s.cfg c off), step_hostRead_chanAddress hwf hc hal hoff hs, ?_, ?_, ?_, ?_,
    ?_, ?_, ?_, ?_, ?tx, fun hidle => ⟨?rxlen, ?res, ?rx⟩⟩
  case tx =>
    rintro k j b rfl hj hk hb
    rw [chanTarget_txbuf c (by omega) (by omega)]
    exact State.readTarget_txbuf_byte hj hb
  case rx =>
    rintro k j b rfl hj hlen hk hb
    rw [chanTarget_rxbuf c (by omega) (by omega) (by omega), Nat.add_sub_cancel_left]
    exact State.readTarget_rxbuf_byte hj hidle hlen hb
  case rxlen | res =>
    rintro rfl
    exact if_neg (by simp [hidle])
  all_goals
    rintro rfl
    rfl

end Sys2Proof.Machine
end

section
/-! PROOF. The errors an engine can answer: a checksum error from the checks at the end of a frame, a semantic one from
its content (41_checksum.md R104, R114; 43_framers.md R184, R192). -/

namespace Sys2Proof.Machine

theorem sumStrip_error_cls {en : Bool} {s : Bytes} {e : CmdError} (h : sumStrip en s = .error e) : e.cls = .checksum := by
  unfold sumStrip at h
  split_ifs at h <;> cases h <;> rfl

theorem crcStrip_error_cls {en : Bool} {s : Bytes} {e : CmdError} (h : crcStrip en s = .error e) : e.cls = .checksum := by
  unfold crcStrip at h
  split_ifs at h <;> cases h <;> rfl

theorem ascContent_error_cls {addr : Byte} {addrEn : Bool} {r : Bytes} {e : CmdError}
    (h : ascContent addr addrEn r = .error e) : e.cls = .semantic := by
  unfold ascContent at h
  split at h
  · cases h; rfl
  · split at h
    · cases h; rfl
    · split at h
      · split at h
        · split_ifs at h
          cases h; rfl
        · cases h; rfl
      · cases h

theorem rtuContent_error_cls {addr : Byte} {r : Bytes} {e : CmdError} (h : rtuContent addr r = .error e) :
    e.cls = .semantic := by
  unfold rtuContent at h
  split at h
  · cases h; rfl
  · split_ifs at h
    · cases h; rfl
    · split at h
      · split_ifs at h
        cases h; rfl
      · cases h; rfl

theorem ascParse_error_cls {addr : Byte} {addrEn sumEn : Bool} {r : Bytes} {e : CmdError}
    (h : ascParse addr addrEn sumEn r = .error e) : e.cls = .checksum ∨ e.cls = .semantic := by
  unfold ascParse at h
  split at h
  · rename_i hs
    cases h
    exact .inl (sumStrip_error_cls hs)
  · exact .inr (ascContent_error_cls h)

theorem rtuParse_error_cls {addr : Byte} {crcEn : Bool} {r : Bytes} {e : CmdError}
    (h : rtuParse addr crcEn r = .error e) : e.cls = .checksum ∨ e.cls = .semantic := by
  unfold rtuParse at h
  split at h
  · rename_i hs
    cases h
    exact .inl (crcStrip_error_cls hs)
  · exact .inr (rtuContent_error_cls h)

end Sys2Proof.Machine
end

section
/-! PROOF. The acceptance of a command: the first failing check (30_encoding.md R82, R83), and every meaning as these
checks followed by WAIT_LOCK or by an end in the same step. -/

namespace Sys2Proof.Machine

open Sys2Proof.Safety

/-! ### The checks in their order -/

section Checks

variable {s : State} {h : Nat} {need : Needs}

theorem acceptError_handleRange (hh : s.cfg.nhandle ≤ h) :
    acceptError s.cfg (s.operands h) need = some .handleRange :=
  if_pos hh

theorem acceptError_operandRange (hh : h < s.cfg.nhandle)
    (hr : ¬((s.chan s.sel).txlen.toNat ≤ s.cfg.bufBytes ∧ need.fits s.cfg.bufBytes (s.operands h) = true)) :
    acceptError s.cfg (s.operands h) need = some .operandRange := by
  refine (if_neg (Nat.not_le.2 hh)).trans (if_pos ?_)
  rw [not_and_or, Bool.not_eq_true, Nat.not_le] at hr
  exact hr

variable (hh : h < s.cfg.nhandle) (hn : (s.chan s.sel).txlen.toNat ≤ s.cfg.bufBytes)
  (hf : need.fits s.cfg.bufBytes (s.operands h) = true)

include hh hn hf

theorem acceptError_portRange (hp : need.port = true) (hbad : ¬PortOk s h) :
    acceptError s.cfg (s.operands h) need = some .portRange := by
  have hrange : ¬(s.cfg.bufBytes < (s.operands h).n ∨ need.fits s.cfg.bufBytes (s.operands h) = false) := by
    simpa [hf] using hn
  exact (if_neg (Nat.not_le.2 hh)).trans <| (if_neg hrange).trans (if_pos ⟨hp, Nat.not_lt.1 hbad⟩)

theorem acceptError_badEol (hp : need.port = true → PortOk s h) (he : need.eol = true) (hbad : ¬MarkerOk s h) :
    acceptError s.cfg (s.operands h) need = some .badEol := by
  have hrange : ¬(s.cfg.bufBytes < (s.operands h).n ∨ need.fits s.cfg.bufBytes (s.operands h) = false) := by
    simpa [hf] using hn
  have hport : ¬(need.port = true ∧ s.cfg.nport ≤ (s.operands h).port) := fun ⟨hu, hle⟩ => Nat.not_le.2 (hp hu) hle
  have hlen : (s.operands h).eolLen = 0 ∨ Config.seqMax < (s.operands h).eolLen := by
    unfold MarkerOk at hbad
    simp only [State.operands_eolLen, Config.seqMax]
    omega
  exact (if_neg (Nat.not_le.2 hh)).trans <| (if_neg hrange).trans <| (if_neg hport).trans (if_pos ⟨he, hlen⟩)

end Checks

/-! ### What follows the checks -/

/-- A command's run past its checks ends in the same step, with success or an error of the engines' classes. -/
def EndsAtOnce (run : Operands → State → State) : Prop :=
  ∀ (o : Operands) (s : State), s.sel < s.chans.length →
    ((run o s).chan s.sel).phase = .idle ∧ ((run o s).chan s.sel).done = true
      ∧ ((run o s).chan s.sel).err ≠ 5#4 ∧ ((run o s).chan s.sel).err ≠ 4#4

/-- A command's run past its checks puts the channel among the waiters of a port. -/
def WaitsForPort (run : Operands → State → State) : Prop :=
  ∀ (o : Operands) (s : State), ∃ op, run o s = s.enterWaitLock s.sel op

theorem endsOk_atOnce {s t : State} {c : Nat} {ch : Chan} {out : Bytes} (h : EndsOk s t c ch out) :
    (t.chan c).phase = .idle ∧ (t.chan c).done = true ∧ (t.chan c).err ≠ 5#4 ∧ (t.chan c).err ≠ 4#4 := by
  obtain ⟨-, hchan, -⟩ := h
  rw [hchan]
  exact ⟨rfl, rfl, (by decide : 0#4 ≠ 5#4), (by decide : 0#4 ≠ 4#4)⟩

theorem endsErr_atOnce {s t : State} {c : Nat} {ch : Chan} {e : CmdError} (h : EndsErr s t c ch e.errCode e.sub)
    (he : e.cls = .checksum ∨ e.cls = .semantic) :
    (t.chan c).phase = .idle ∧ (t.chan c).done = true ∧ (t.chan c).err ≠ 5#4 ∧ (t.chan c).err ≠ 4#4 := by
  obtain ⟨-, hchan, -⟩ := h
  rw [hchan]
  refine ⟨rfl, rfl, ?_⟩
  show e.cls.code ≠ 5#4 ∧ e.cls.code ≠ 4#4
  rcases he with he | he <;> rw [he] <;> decide

theorem endsAtOnce_finish (v : Operands → Bool) (out : Operands → Bytes) :
    EndsAtOnce fun o s => s.finish (v o) (out o) :=
  fun _ _ hc => endsOk_atOnce (State.finish_spec _ _ hc).1

theorem endsAtOnce_build (out : Operands → Bytes) :
    EndsAtOnce fun o s => (s.modChan s.sel (Chan.setRes 0#8)).finish false (out o) :=
  fun _ s hc => endsOk_atOnce (State.finish_setRes_spec (s := s) 0 0#8 _ hc).1

theorem endsAtOnce_finishE {r : Operands → Except CmdError Bytes} (hr : ∀ o e, r o = .error e → e.cls = .checksum) :
    EndsAtOnce fun o s => s.finishE (r o) := by
  intro o s hc
  obtain ⟨hok, herr, -⟩ := State.finishE_addFree_spec (s := s) 0 (r o) hc
  cases h : r o with
  | ok out => exact endsOk_atOnce (hok out h)
  | error e => exact endsErr_atOnce (herr e h) (.inl (hr o e h))

theorem endsAtOnce_parse {r : Operands → Except CmdError Rec}
    (hr : ∀ o e, r o = .error e → e.cls = .checksum ∨ e.cls = .semantic) :
    EndsAtOnce fun o s => (s.modChan s.sel (Chan.setResult false)).endParse s.sel (r o) := by
  intro o s hc
  obtain ⟨hok, herr, -⟩ := State.endParse_setResult_spec (s := s) 0 (r o) hc
  cases h : r o with
  | ok out => exact endsOk_atOnce (hok out h)
  | error e => exact endsErr_atOnce (herr e h) (hr o e h)

/-- What the acceptance of a command consists of: its checks, which are the rule's for it, and its run past them. -/
structure AcceptsAs (s : State) (i : Instr) (need : Needs) (run : Operands → State → State) : Prop where
  exec_eq : exec i s = .next (s.accepted i.handle need run)
  fits : need.fits s.cfg.bufBytes (s.operands i.handle) = true ↔ RangeOk s i
  port : need.port = usesPort i
  eol : need.eol = usesMarker i
  run : if usesPort i then WaitsForPort run else EndsAtOnce run

theorem waitsForPort_op (opc : BitVec 8) (mode : Mode) (w : Bool) (r : Reply) (out : Operands → Bytes) :
    WaitsForPort fun o s => s.enterWaitLock s.sel (o.op opc mode w r (out o)) :=
  fun _ _ => ⟨_, rfl⟩

/-- Every command's meaning is its checks, then its run (R82). -/
theorem exec_acceptsAs (i : Instr) (s : State) : ∃ need run, AcceptsAs s i need run := by
  cases i with
  | sumAdd h => exact ⟨_, _, rfl, decide_eq_true_iff, rfl, rfl, endsAtOnce_finish _ _⟩
  | sumChk h => exact ⟨_, _, rfl, iff_of_true rfl trivial, rfl, rfl, endsAtOnce_finish _ _⟩
  | sumStrip h =>
    exact ⟨_, _, rfl, iff_of_true rfl trivial, rfl, rfl, endsAtOnce_finishE fun _ _ => sumStrip_error_cls⟩
  | crcAdd h => exact ⟨_, _, rfl, decide_eq_true_iff, rfl, rfl, endsAtOnce_finish _ _⟩
  | crcChk h => exact ⟨_, _, rfl, iff_of_true rfl trivial, rfl, rfl, endsAtOnce_finish _ _⟩
  | crcStrip h =>
    exact ⟨_, _, rfl, iff_of_true rfl trivial, rfl, rfl, endsAtOnce_finishE fun _ _ => crcStrip_error_cls⟩
  | wr h | xq h | xl h | rq h | rl h =>
    exact ⟨_, _, rfl, iff_of_true rfl trivial, rfl, rfl, waitsForPort_op _ _ _ _ _⟩
  | xn h | xd h | rn h | rd h | ascReq h | rtuReq h =>
    exact ⟨_, _, rfl, decide_eq_true_iff, rfl, rfl, waitsForPort_op _ _ _ _ _⟩
  | ascBuild h | rtuBuild h => exact ⟨_, _, rfl, decide_eq_true_iff, rfl, rfl, endsAtOnce_build _⟩
  | ascParse h =>
    exact ⟨_, _, rfl, iff_of_true rfl trivial, rfl, rfl, endsAtOnce_parse fun _ _ => ascParse_error_cls⟩
  | rtuParse h =>
    exact ⟨_, _, rfl, iff_of_true rfl trivial, rfl, rfl, endsAtOnce_parse fun _ _ => rtuParse_error_cls⟩

/-- A command whose checks find an error ends with it (R82, R213). -/
theorem State.accepted_error {s : State} {h : Nat} {need : Needs} {e : CmdError} (run : Operands → State → State)
    (hc : s.sel < s.chans.length) (he : acceptError s.cfg (s.operands h) need = some e) :
    EndsErr s (s.accepted h need run) s.sel (s.chan s.sel) e.errCode e.sub ∧ PortsSame s (s.accepted h need run) := by
  rw [State.accepted, he]
  exact State.raise_spec e hc

end Sys2Proof.Machine
end

section
/-! PROOF. The statements about the issue of a command (10_state.md R22; 30_encoding.md R82; 60_exceptions.md R211). -/

namespace Sys2Proof.Machine

open Sys2Proof.Safety

/-- A 32-bit write to a present channel's CMD issues its word (R22). -/
theorem issued?_cmdAddress {p : Config.Params} {c : Nat} (w : Word) (hc : c < p.nchan) (hn : p.nchan ≤ 8) :
    issued? p (.hostWrite (cmdAddress c) 4 w) = some (c, w) := by
  have hal : (cmdAddress c).toNat % 4 = 0 := aligned_ofNat (by omega)
  simp only [issued?]
  rw [if_pos (busAccessOk_word hal), targetAt_cmdAddress hc hn]

/-- A write to a present channel's CMD is the issue of its word. -/
theorem step_of_cmdWriteNext {s : State} {rest : List Event} {c : Nat} {w : Word} (h : CmdWriteNext s rest c w) :
    step s = (s.setSched rest).issue c w := by
  obtain ⟨hs, hc, hn, -⟩ := h
  rw [step_of_sched hs, State.run, State.setSched_cfg, issued?_cmdAddress w hc hn]

/-- The state the acceptance leaves is the rule's (R211). -/
theorem issuedState_eq (s : State) (rest : List Event) (c : Nat) (w : Word) :
    ((s.setSched rest).setResp .ack).accept c w = issuedState s rest c w := rfl

/-- A write to the CMD of a channel that is not busy is accepted. -/
theorem step_of_accepted {s : State} {rest : List Event} {c : Nat} {w : Word} (h : CmdWriteNext s rest c w)
    (hb : (s.chan c).busy = false) : step s = ((s.setSched rest).setResp .ack).acceptStep c w := by
  rw [step_of_cmdWriteNext h, State.issue, if_neg (by simp [hb])]

theorem State.acceptStep_of_error {s : State} {c : Nat} {w : Word} {e : DecodeError} (hd : decode w = .error e) :
    s.acceptStep c w = .next ((s.accept c w).raise c (decodeError e)) := by
  rw [State.acceptStep, hd]

theorem State.acceptStep_of_ok {s : State} {c : Nat} {w : Word} {i : Instr} (hd : decode w = .ok i) :
    s.acceptStep c w = exec i (s.accept c w) := by
  rw [State.acceptStep, hd]

/-- Settles O5: the acceptance of a word that decodes. -/
theorem stepRunsDecodedCommand : Obligations.StepRunsDecodedCommand := by
  intro s rest c w i h hb hd
  rw [step_of_accepted h hb, State.acceptStep_of_ok hd, issuedState_eq]

/-- Settles O6: the rejection. -/
theorem busyChannelRejectsCommand : Obligations.BusyChannelRejectsCommand := by
  intro s rest c w h hb
  rw [step_of_cmdWriteNext h, State.issue, if_pos (by simpa using hb)]
  rfl

/-- The end of an accepted command, by its first failing check or its run (R82). -/
theorem exec_reports {u : State} {i : Instr} (hc : u.sel < u.chans.length) :
    ∃ t, exec i u = .next t ∧
      (u.cfg.nhandle ≤ i.handle → EndsErr u t u.sel (u.chan u.sel) 5#4 3#8 ∧ PortsSame u t)
      ∧ (i.handle < u.cfg.nhandle → ¬((u.chan u.sel).txlen.toNat ≤ u.cfg.bufBytes ∧ RangeOk u i) →
          EndsErr u t u.sel (u.chan u.sel) 5#4 4#8 ∧ PortsSame u t)
      ∧ (i.handle < u.cfg.nhandle → (u.chan u.sel).txlen.toNat ≤ u.cfg.bufBytes → RangeOk u i →
          (usesPort i = true → ¬PortOk u i.handle → EndsErr u t u.sel (u.chan u.sel) 4#4 1#8 ∧ PortsSame u t)
          ∧ ((usesPort i = true → PortOk u i.handle) →
              (usesMarker i = true → ¬MarkerOk u i.handle → EndsErr u t u.sel (u.chan u.sel) 4#4 4#8 ∧ PortsSame u t)
              ∧ ((usesMarker i = true → MarkerOk u i.handle) →
                  if usesPort i then (t.chan u.sel).phase = .waitLock ∧ (t.chan u.sel).busy = (u.chan u.sel).busy
                  else (t.chan u.sel).phase = .idle ∧ (t.chan u.sel).done = true ∧ (t.chan u.sel).err ≠ 5#4
                    ∧ (t.chan u.sel).err ≠ 4#4))) := by
  obtain ⟨need, run, hexec, hfits, hport, heol, hrun⟩ := exec_acceptsAs i u
  rw [← hport, ← heol, ← hfits]
  refine ⟨_, hexec, fun hh => State.accepted_error run hc (acceptError_handleRange hh),
    fun hh hr => State.accepted_error run hc (acceptError_operandRange hh hr), fun hh hn hf => ⟨fun hp hbad =>
      State.accepted_error run hc (acceptError_portRange hh hn hf hp hbad), fun hp => ⟨fun he hbad =>
      State.accepted_error run hc (acceptError_badEol hh hn hf hp he hbad), fun he => ?_⟩⟩⟩
  rw [State.accepted_ok run ⟨hc, hh, hn⟩ hf hp he, hport]
  split_ifs at hrun ⊢ with hu
  · obtain ⟨op, ho⟩ := hrun (u.operands i.handle) (u.addFree (u.operands i.handle).n)
    have hchan : ((run (u.operands i.handle) (u.addFree (u.operands i.handle).n)).chan u.sel)
        = { u.chan u.sel with op := op, phase := .waitLock } := by
      rw [ho]
      exact State.chan_modChan_self _ hc
    rw [hchan]
    exact ⟨rfl, rfl⟩
  · exact hrun (u.operands i.handle) (u.addFree (u.operands i.handle).n) hc

/-- Settles O7: the two checks of the word, then those of the command it decodes to. -/
theorem acceptanceReportsFirstFailingCheck : Obligations.AcceptanceReportsFirstFailingCheck := by
  intro s rest c w h hb
  dsimp only
  have hc : c < (issuedState s rest c w).chans.length := by
    obtain ⟨-, -, -, hc⟩ := h
    exact lt_of_lt_of_eq hc (List.length_modify ..).symm
  obtain ⟨hunlisted, hreserved⟩ := decodeRefusesIllegalWords w
  rw [step_of_accepted h hb]
  cases hd : decode w with
  | error e =>
    rw [State.acceptStep_of_error hd, issuedState_eq]
    rw [hd] at hunlisted hreserved
    refine ⟨_, rfl, fun hno => ?_, fun hin hne => ?_, nofun⟩
    · cases hunlisted.2 hno
      exact State.raise_spec .opcUnlisted hc
    · cases hreserved.2 ⟨hin, hne⟩
      exact State.raise_spec .reservedBits hc
  | ok i =>
    rw [State.acceptStep_of_ok hd, issuedState_eq]
    rw [hd] at hunlisted hreserved
    obtain ⟨t, hexec, hends⟩ := exec_reports (i := i) (u := issuedState s rest c w) hc
    refine ⟨t, hexec, fun hno => ?_, fun hin hne => ?_, fun i' hi => ?_⟩
    · cases hunlisted.2 hno
    · cases hreserved.2 ⟨hin, hne⟩
    · obtain rfl := Except.ok.inj hi
      have hbusy : ((issuedState s rest c w).chan c).busy = true := by
        obtain ⟨-, -, -, hc⟩ := h
        exact congrArg Chan.busy (State.chan_modChan_self (s := s.setSched rest) (Chan.accept w) hc)
      rw [show (issuedState s rest c w).sel = c from rfl, hbusy] at hends
      exact hends

/-! ### The exchanging commands -/

/-- An exchanging command whose checks hold snapshots its operands and waits for its port (R135). -/
theorem State.startExchange_spec {s : State} {h : Nat} {fits : Nat → Operands → Bool} {eol : Bool}
    (opc : BitVec 8) (mode : Mode) (w : Bool) (r : Reply) (out : Operands → Bytes) (hshape : Shape s) (hr : Ready s h)
    (hf : fits s.cfg.bufBytes (s.operands h) = true) (hp : PortOk s h) (he : eol = true → MarkerOk s h) :
    EntersWaitLock s (s.startExchange h fits eol opc mode w r out) s.sel
      (snapshot s h opc mode w r (out (s.operands h))) := by
  obtain ⟨-, -, hports⟩ := hshape
  rw [State.startExchange, State.accepted_ok _ hr hf (fun _ => hp) he]
  obtain ⟨hothers, hchan, hport, hmem⟩ := State.enterWaitLock_spec (s := s.addFree (s.operands h).n)
    (snapshot s h opc mode w r (out (s.operands h))) hr.1 (lt_of_lt_of_eq hp hports.symm)
  exact ⟨hothers, hchan, ⟨_, mem_waitersAdd _ s.sel, hport⟩, hmem⟩

/-- Settles O21: each row of the table starts an exchange with the operand as it is. -/
theorem transceiverCommandsWaitForLock : Obligations.TransceiverCommandsWaitForLock := by
  intro s h i opc mode w hrow hshape hr hrange hp he
  simp only [transceivers, List.mem_cons, Prod.mk.injEq, List.not_mem_nil, or_false] at hrow
  rcases hrow with ⟨rfl, rfl, rfl, rfl⟩ | ⟨rfl, rfl, rfl, rfl⟩ | ⟨rfl, rfl, rfl, rfl⟩ | ⟨rfl, rfl, rfl, rfl⟩ |
    ⟨rfl, rfl, rfl, rfl⟩ | ⟨rfl, rfl, rfl, rfl⟩ | ⟨rfl, rfl, rfl, rfl⟩ | ⟨rfl, rfl, rfl, rfl⟩ | ⟨rfl, rfl, rfl, rfl⟩
  case inl | inr.inl | inr.inr.inr.inr.inr.inl =>
    exact ⟨_, rfl, State.startExchange_spec _ _ _ _ (·.tx) hshape hr rfl hp nofun⟩
  case inr.inr.inl | inr.inr.inr.inl | inr.inr.inr.inr.inr.inr.inl | inr.inr.inr.inr.inr.inr.inr.inl =>
    exact ⟨_, rfl, State.startExchange_spec _ _ _ _ (·.tx) hshape hr (decide_eq_true hrange) hp nofun⟩
  all_goals exact ⟨_, rfl, State.startExchange_spec _ _ _ _ (·.tx) hshape hr rfl hp he⟩

/-- Settles O22: an exchange with the frame of R183, in mode L. -/
theorem ascReqWaitsWithFrame : Obligations.AscReqWaitsWithFrame := by
  intro s h hshape hr hrange hp hm
  exact ⟨_, rfl, State.startExchange_spec _ _ _ _ Operands.ascOut hshape hr ((fitsAsc_operands_iff s h).2 hrange) hp
    fun _ => hm⟩

/-- Settles O23: an exchange with the frame of R191, in mode Q. -/
theorem rtuReqWaitsWithFrame : Obligations.RtuReqWaitsWithFrame := by
  intro s h hshape hr hrange hp
  exact ⟨_, rfl, State.startExchange_spec _ _ _ _ Operands.rtuOut hshape hr ((fitsRtu_operands_iff s h).2 hrange) hp
    nofun⟩

/-! ### The frame of every command (20_memory.md R61) -/

/-- An update of a port's waiters leaves every port but for its waiters. -/
theorem State.port_modPort_waiters (s : State) (p : Nat) (f : List Nat → List Nat) (p' : Nat) :
    ∃ ws, (s.modPort p fun pt => { pt with waiters := f pt.waiters }).port p' = { s.port p' with waiters := ws } := by
  by_cases hne : p' = p
  · subst hne
    by_cases hp : p' < s.ports.length
    · exact ⟨_, State.port_modPort_self _ hp⟩
    · refine ⟨[], ?_⟩
      rw [State.port, State.port, List.getD_eq_default _ _ (by simpa using hp), List.getD_eq_default _ _ (by omega)]
      rfl
  · exact ⟨_, State.port_modPort_ne s _ hne⟩

/-- Whatever the end of a command's meaning, it touches its own channel, its RXBUF and the waiters alone. -/
theorem ExecEnds.frame {s t : State} (h : ExecEnds s t) :
    OthersSame s t s.sel ∧ MemSameOutside s t (rxAddr s.sel 0) s.cfg.bufBytes
      ∧ t.ports.length = s.ports.length ∧ ∀ p, ∃ ws, t.port p = { s.port p with waiters := ws } := by
  cases h with
  | error k f e hf =>
    exact ⟨othersSame_trans (State.othersSame_modChan s _ f) (State.othersSame_modChan _ _ _), fun _ _ => rfl, rfl,
      fun p => ⟨_, rfl⟩⟩
  | ok k f out hf hl =>
    have hends : OthersSame (s.modChan s.sel f) (((s.addFree k).modChan s.sel f).complete s.sel out) s.sel :=
      State.othersSame_modChan (s.modChan s.sel f) s.sel (Chan.complete out.length)
    refine ⟨othersSame_trans (State.othersSame_modChan s _ f) hends, fun a ha => ?_, rfl, fun p => ⟨_, rfl⟩⟩
    exact Memory.read?_writeBytes_out _ _ _ fun hin => ha ⟨hin.1, by omega⟩
  | wait k o hp hl =>
    refine ⟨State.othersSame_modChan s _ _, fun _ _ => rfl, by simp [State.enterWaitLock], fun p => ?_⟩
    exact State.port_modPort_waiters _ o.port (waitersAdd · s.sel) p

/-- Settles O24: every meaning's end has this frame. -/
theorem commandTouchesOwnChannelOnly : Obligations.CommandTouchesOwnChannelOnly := by
  intro i s t h
  obtain ⟨t', ht', hends⟩ := exec_ends i s
  rw [ht'] at h
  injection h with h
  exact h ▸ hends.frame

end Sys2Proof.Machine
end

section
/-! PROOF. The steps of an exchange as updates of one port and one channel, then the end of the exchange where it ends:
one equation per branch (42_transceiver.md R141 to R145). -/

namespace Sys2Proof.Machine

open Sys2Proof.Safety

/-! ### One port and one channel -/

theorem State.modPort_modPort (s : State) (p : Nat) (f g : Port → Port) :
    (s.modPort p f).modPort p g = s.modPort p (g ∘ f) := by
  simp [State.modPort, List.modify_modify_eq]

theorem State.modPort_id (s : State) (p : Nat) : s.modPort p id = s := by
  simp [State.modPort]

/-- Updates of a channel and of a port do not meet. -/
theorem State.modChan_modPort (s : State) (c p : Nat) (f : Chan → Chan) (g : Port → Port) :
    (s.modChan c f).modPort p g = (s.modPort p g).modChan c f := rfl

section Update

variable {s : State} {p c : Nat} (g : Port → Port) (f : Chan → Chan)

theorem State.othersSame_update : OthersSame s ((s.modPort p g).modChan c f) c :=
  State.othersSame_modChan (s.modPort p g) c f

theorem State.chan_update (hc : c < s.chans.length) : ((s.modPort p g).modChan c f).chan c = f (s.chan c) :=
  State.chan_modChan_self (s := s.modPort p g) f hc

theorem State.portBecomes_update (hp : p < s.ports.length) :
    PortBecomes s ((s.modPort p g).modChan c f) p (g (s.port p)) :=
  ⟨by simp, State.port_modPort_self g hp, fun _ hne => State.port_modPort_ne s g hne⟩

/-- An exchange that ends with an error after an update of its channel and its port. -/
theorem State.endExchange_error_update (e : CmdError) (hc : c < s.chans.length) (hp : p < s.ports.length)
    (hop : (f (s.chan c)).op.port = p) :
    EndsErr s (((s.modPort p g).modChan c f).endExchange c (.error e)) c { f (s.chan c) with watch := false } e.errCode
        e.sub
      ∧ PortBecomes s (((s.modPort p g).modChan c f).endExchange c (.error e)) p
          { g (s.port p) with opened := false, owner := none, dir := .idle } := by
  have hchan := State.chan_update (p := p) g f hc
  obtain ⟨hlen, hport, hother⟩ := State.portBecomes_update (c := c) g f hp
  obtain ⟨⟨ho, hch, hm⟩, hlen', hport', hother'⟩ := State.endExchange_error (s := (s.modPort p g).modChan c f) e
    (by simpa using hc) (by rw [hchan, hop, hlen]; exact hp)
  rw [hchan, hop] at hport' hother'
  rw [hchan] at hch
  rw [hport] at hport'
  exact ⟨⟨othersSame_trans (State.othersSame_update g f) ho, hch, hm⟩, hlen'.trans hlen, hport',
    fun p' hne => (hother' p' hne).trans (hother p' hne)⟩

/-- A transceiver command's exchange that ends with success after an update of its channel and its port. -/
theorem State.endExchange_plain_update (out : Bytes) (hc : c < s.chans.length) (hp : p < s.ports.length)
    (hop : (f (s.chan c)).op.port = p) (hk : (f (s.chan c)).op.reply = .plain) :
    EndsOk s (((s.modPort p g).modChan c f).endExchange c (.ok out)) c
        { f (s.chan c) with watch := false, result := false } out
      ∧ PortBecomes s (((s.modPort p g).modChan c f).endExchange c (.ok out)) p
          { g (s.port p) with opened := false, owner := none, dir := .idle } := by
  have hchan := State.chan_update (p := p) g f hc
  obtain ⟨hlen, hport, hother⟩ := State.portBecomes_update (c := c) g f hp
  obtain ⟨⟨ho, hch, hin, hout⟩, hlen', hport', hother'⟩ := State.endExchange_plain
    (s := (s.modPort p g).modChan c f) out (by simpa using hc) (by rw [hchan, hop, hlen]; exact hp)
    (by rw [hchan]; exact hk)
  rw [hchan, hop] at hport' hother'
  rw [hchan] at hch
  rw [hport] at hport'
  exact ⟨⟨othersSame_trans (State.othersSame_update g f) ho, hch, hin, hout⟩, hlen'.trans hlen, hport',
    fun p' hne => (hother' p' hne).trans (hother p' hne)⟩

end Update

/-! ### Entering READ (R144) -/

/-- An exact read of no octets. -/
def Op.readsNothing (o : Op) : Prop := o.mode = .n ∧ o.n = 0

/-- The receiver of channel `c` turned on. -/
def State.receiving (s : State) (c : Nat) : State :=
  (s.modPort (s.chan c).op.port fun pt => { pt with dir := .rx }).modChan c (readEntered s)

theorem State.enterRead_of_readsNothing {s : State} {c : Nat} (h : (s.chan c).op.readsNothing) :
    s.enterRead c = (s.receiving c).endExchange c (.ok []) :=
  if_pos h

theorem State.enterRead_of_not_readsNothing {s : State} {c : Nat} (h : ¬(s.chan c).op.readsNothing) :
    s.enterRead c = s.receiving c :=
  if_neg h

/-! ### The grant (R141) -/

/-- A port as the grant takes it for channel `c`. -/
def Port.take (c : Nat) (pt : Port) : Port := { pt with waiters := waitersRemove pt.waiters c, owner := some c }

/-- A port that the grant has taken, opened and applied the line configuration `l` to. -/
def Port.start (c : Nat) (l : Line) (pt : Port) : Port := { pt.take c with opened := true, applied := some l }

/-- The line snapshot of the grant is the rule's. -/
theorem lineSnapshot_eq (s : State) (c : Nat) : lineSnapshot s.cfg (s.handle (s.chan c).op.h) = grantLine s c := rfl

/-- A legal line configuration passes the grant's checks. -/
theorem lineError_eq_none {l : Line} (h : LineOk l) : lineError l = none := by
  obtain ⟨hbaud, hdata, hparity⟩ := h
  have hdata : ¬(l.data ≠ 7#4 ∧ l.data ≠ 8#4) := fun hn => hdata.elim hn.1 hn.2
  exact (if_neg hbaud).trans <| (if_neg hdata).trans (if_neg (Nat.not_lt.2 hparity))

section Grant

variable {s : State} {p c : Nat} (openOk applyOk : Bool)

/-- A grant whose configuration check fails. -/
theorem State.grantStep_of_lineError {e : CmdError} (he : lineError (grantLine s c) = some e) :
    s.grantStep p c openOk applyOk
      = ((s.modPort p (Port.take c)).modChan c fun ch => { ch with line := grantLine s c }).endExchange c (.error e) := by
  simp only [State.grantStep, lineSnapshot_eq, he]
  rfl

variable (hl : lineError (grantLine s c) = none)

include hl

/-- A grant whose open fails. -/
theorem State.grantStep_of_openFailed :
    s.grantStep p c false applyOk
      = ((s.modPort p (Port.take c)).modChan c fun ch => { ch with line := grantLine s c }).endExchange c
          (.error .openFailed) := by
  simp only [State.grantStep, lineSnapshot_eq, hl]
  rfl

/-- A grant whose apply fails, after the open. -/
theorem State.grantStep_of_applyFailed :
    s.grantStep p c true false
      = ((s.modPort p fun pt => { pt.take c with opened := true }).modChan c
          fun ch => { ch with line := grantLine s c }).endExchange c (.error .applyFailed) := by
  simp only [State.grantStep, lineSnapshot_eq, hl, Bool.true_eq_false, if_false, if_true, State.modChan_modPort,
    State.modPort_modPort]
  rfl

/-- A grant that passes every check and draw begins the exchange. -/
theorem State.grantStep_of_begin :
    s.grantStep p c true true
      = ((s.modPort p (Port.start c (grantLine s c))).modChan c
          fun ch => { ch with line := grantLine s c }).beginExchange c := by
  simp only [State.grantStep, lineSnapshot_eq, hl, Bool.true_eq_false, if_false, State.modChan_modPort,
    State.modPort_modPort]
  rfl

/-- A grant of a command with a write phase (R142). -/
theorem State.grantStep_of_write (hc : c < s.chans.length) (hw : (s.chan c).op.hasWrite = true) :
    s.grantStep p c true true
      = ((s.modPort p (Port.start c (grantLine s c))).modPort (s.chan c).op.port fun pt =>
          { pt with dir := .tx
                    sent := pt.sent ++ writeSlots s.now (grantLine s c).bt (s.chan c).op.out }).modChan c fun ch =>
          { ch with line := grantLine s c, phase := .write
                    tEnd := s.now + Config.writeNs (grantLine s c).bt (s.chan c).op.out.length
                    watch := decide ((s.chan c).op.mode ≠ .w) } := by
  rw [State.grantStep_of_begin hl, State.beginExchange, State.chan_update _ _ hc]
  dsimp only
  rw [if_pos hw]
  exact State.modChan_modChan (((s.modPort p (Port.start c (grantLine s c))).modPort (s.chan c).op.port _)) c _ _

/-- A grant of a command without a write phase: READ at once (R141). -/
theorem State.grantStep_of_read (hc : c < s.chans.length) (hw : (s.chan c).op.hasWrite = false) :
    s.grantStep p c true true
      = ((s.modPort p (Port.start c (grantLine s c))).modChan c
          fun ch => { ch with line := grantLine s c, watch := true }).enterRead c := by
  rw [State.grantStep_of_begin hl, State.beginExchange, State.chan_update _ _ hc]
  dsimp only
  rw [if_neg (by simp [hw])]
  exact congrArg (State.enterRead · c) (State.modChan_modChan (s.modPort p (Port.start c (grantLine s c))) c _ _)

end Grant

/-! ### The deadline steps (R142, R143, R144) -/

section Deadline

variable {s : State} {c : Nat} (writeOk : Bool)

theorem State.deadlineStep_of_write (h : (s.chan c).phase = .write) :
    s.deadlineStep c writeOk = s.writeDeadline c writeOk := by
  simp only [State.deadlineStep, h]

theorem State.deadlineStep_of_settle (h : (s.chan c).phase = .settle) :
    s.deadlineStep c writeOk = s.endExchange c (.ok []) := by
  simp only [State.deadlineStep, h]

theorem State.deadlineStep_of_quiet (h : (s.chan c).phase = .read) (hq : QuietElapsed s (s.chan c))
    (hm : (s.chan c).op.mode = .q) : s.deadlineStep c writeOk = s.endExchange c (.ok (s.chan c).acc) := by
  simp only [State.deadlineStep, h, State.readDeadline, (Chan.quietDue_iff _ _).2 hq, hm, if_true]

theorem State.deadlineStep_of_short (h : (s.chan c).phase = .read) (hq : QuietElapsed s (s.chan c))
    (hm : (s.chan c).op.mode ≠ .q) : s.deadlineStep c writeOk = s.endExchange c (.error .shortRead) := by
  simp only [State.deadlineStep, h, State.readDeadline, (Chan.quietDue_iff _ _).2 hq, hm, if_true, if_false]

theorem State.deadlineStep_of_timeout (h : (s.chan c).phase = .read) (hq : ¬QuietElapsed s (s.chan c)) :
    s.deadlineStep c writeOk = s.endExchange c (.error .readTimeout) := by
  simp only [State.deadlineStep, h, State.readDeadline, Chan.quietDue_iff, hq, if_false]

theorem State.writeDeadline_of_failed : s.writeDeadline c false = s.endExchange c (.error .writeFailed) := rfl

theorem State.writeDeadline_of_settle (hm : (s.chan c).op.mode = .w) :
    s.writeDeadline c true
      = s.modChan c fun ch => { ch with phase := .settle, tEnd := s.now + Config.settleNs ch.line.bt } :=
  if_pos hm

theorem State.writeDeadline_of_read (hm : (s.chan c).op.mode ≠ .w) : s.writeDeadline c true = s.enterRead c :=
  if_neg hm

end Deadline

/-! ### A received octet (R139) -/

section Octet

variable {s : State} {c : Nat} (b : Byte)

theorem State.takeOctet_of_full (h : (s.chan c).acc.length = s.cfg.bufBytes) :
    s.takeOctet c b = s.endExchange c (.error .rxOverflow) :=
  if_pos h

theorem State.takeOctet_of_ends {out : Bytes} (hc : c < s.chans.length) (h : (s.chan c).acc.length ≠ s.cfg.bufBytes)
    (ho : (octetTaken s (s.chan c) b).octetEnd = some out) :
    s.takeOctet c b = (s.modChan c (octetTaken s · b)).endExchange c (.ok out) := by
  have hchan : (s.modChan c fun ch => { ch with acc := ch.acc ++ [b], lastRx := some s.now }).chan c
      = octetTaken s (s.chan c) b := State.chan_modChan_self _ hc
  rw [State.takeOctet, if_neg h]
  dsimp only
  rw [hchan, ho]
  rfl

theorem State.takeOctet_of_kept (hc : c < s.chans.length) (h : (s.chan c).acc.length ≠ s.cfg.bufBytes)
    (ho : (octetTaken s (s.chan c) b).octetEnd = none) : s.takeOctet c b = s.modChan c (octetTaken s · b) := by
  have hchan : (s.modChan c fun ch => { ch with acc := ch.acc ++ [b], lastRx := some s.now }).chan c
      = octetTaken s (s.chan c) b := State.chan_modChan_self _ hc
  rw [State.takeOctet, if_neg h]
  dsimp only
  rw [hchan, ho]
  rfl

end Octet

theorem endsWith_iff (s d : Bytes) : endsWith s d = true ↔ d <:+ s := by
  rw [endsWith, Bool.and_eq_true, decide_eq_true_eq, decide_eq_true_eq, List.suffix_iff_eq_drop]
  refine ⟨fun ⟨_, h⟩ => h.symm, fun h => ⟨?_, h.symm⟩⟩
  rw [h, List.length_drop]
  omega

/-- An appended octet meets an end condition exactly where the rule says the frame ends (R139). -/
theorem Chan.octetEnd_isSome_iff (ch : Chan) : ch.octetEnd.isSome = true ↔ FrameEnds ch ch.acc := by
  unfold Chan.octetEnd FrameEnds
  cases ch.op.mode <;> simp [endsWith_iff]

/-- The delimiter or the marker at the end is stripped. -/
theorem dropTail_append (out d : Bytes) : dropTail (out ++ d) d.length = out := by
  simp [dropTail]

/-- The outcome of an octet in the modes that end on a sequence. -/
theorem Chan.octetEnd_of_suffix {ch : Chan} {out : Bytes}
    (h : ch.op.mode = .d ∧ ch.acc = out ++ ch.op.delim ∨ ch.op.mode = .l ∧ ch.acc = out ++ ch.op.eolSeq) :
    ch.octetEnd = some out := by
  rcases h with ⟨hm, ha⟩ | ⟨hm, ha⟩ <;>
    simp only [Chan.octetEnd, hm, ha, dropTail_append, (endsWith_iff _ _).2 (List.suffix_append _ _), if_true]

/-- The output that an octet ends a frame with is no longer than the accumulated octets. -/
theorem Chan.octetEnd_length {ch : Chan} {out : Bytes} (h : ch.octetEnd = some out) : out.length ≤ ch.acc.length := by
  unfold Chan.octetEnd at h
  split at h
  · cases h
  · cases h
  all_goals
    split at h
    · cases h
      simp [dropTail]
    · cases h

end Sys2Proof.Machine
end

section
/-! PROOF. The statements about the exchange after its acceptance: the grant, the deadlines, the octets and the clock
(42_transceiver.md R134 to R145). -/

namespace Sys2Proof.Machine

open Sys2Proof.Safety

/-! ### The entries of the schedule -/

/-- A due grant is taken (R140). -/
theorem step_of_grantNext {s : State} {rest : List Event} {p c : Nat} {openOk applyOk : Bool}
    (h : GrantNext s rest p c openOk applyOk) : step s = .next ((s.setSched rest).grantStep p c openOk applyOk) := by
  obtain ⟨hs, hp, hc, hfree, hw, -⟩ := h
  have hdue : ¬(((s.setSched rest).port p).owner.isSome = true ∨ c ∉ ((s.setSched rest).port p).waiters) := by
    simp [hfree, hw]
  rw [step_of_sched hs, State.run_of_issued?_none rfl, State.agentStep, State.grant]
  exact (if_neg (Nat.not_le.2 hp)).trans <| (if_neg (Nat.not_le.2 hc)).trans (if_neg hdue)

/-- A deadline entry is taken where it is due (R142, R143, R144). -/
theorem step_of_deadlineDue {s : State} {rest : List Event} {c : Nat} {writeOk : Bool}
    (hs : s.sched = .deadline c writeOk :: rest) (hc : c < s.chans.length) (hd : DeadlineDue s (s.chan c)) :
    step s = .next ((s.setSched rest).deadlineStep c writeOk) := by
  have hdue : ¬((s.setSched rest).chan c).due (s.setSched rest).now = false := by
    simpa using (Chan.due_iff s (s.chan c)).2 hd
  rw [step_of_sched hs, State.run_of_issued?_none rfl, State.agentStep, State.deadline]
  exact (if_neg (Nat.not_le.2 hc)).trans (if_neg hdue)

/-- A deadline entry is refused where it is not due (log 3). -/
theorem step_of_deadlineNotDue {s : State} {rest : List Event} {c : Nat} {writeOk : Bool}
    (h : DeadlineNext s rest c writeOk) (hd : ¬DeadlineDue s (s.chan c)) : step s = .refused .stepNotEnabled := by
  obtain ⟨hs, hc, -⟩ := h
  have hdue : ((s.setSched rest).chan c).due (s.setSched rest).now = false := by
    simpa using mt (Chan.due_iff s (s.chan c)).1 hd
  rw [step_of_sched hs, State.run_of_issued?_none rfl, State.agentStep, State.deadline]
  exact (if_neg (Nat.not_le.2 hc)).trans (if_pos hdue)

/-- In WRITE and in SETTLE the deadline is T_END. -/
theorem deadlineDue_iff_tEnd {s : State} {ch : Chan} (h : ch.phase = .write ∨ ch.phase = .settle) :
    DeadlineDue s ch ↔ s.now = ch.tEnd := by
  rcases h with h | h <;> simp [DeadlineDue, h]

/-- In READ the deadlines are the quiet interval and the timeout. -/
theorem deadlineDue_iff_read {s : State} {ch : Chan} (h : ch.phase = .read) :
    DeadlineDue s ch ↔ QuietElapsed s ch ∨ TimeoutElapsed s ch := by
  simp [DeadlineDue, h]

/-- An octet entry is its step, the octet kept where a deadline step fired first (R138). -/
theorem step_of_rx {s : State} {rest : List Event} {p : Nat} {b : Byte} {writeOk : Bool}
    (hs : s.sched = .rx p b writeOk :: rest) (hp : p < s.ports.length) {t : State} {kept : Bool}
    (hx : (s.setSched rest).rxStep p b writeOk = (t, kept)) :
    step s = .next (if kept then t.setSched (.rx p b writeOk :: t.sched) else t) := by
  rw [step_of_sched hs, State.run_of_issued?_none rfl, State.agentStep, State.rx, State.setSched_ports,
    if_neg (Nat.not_le.2 hp), hx]
  cases kept <;> rfl

/-- An octet for a channel in READ with no deadline due is taken (R139, third case). -/
theorem step_of_octetNext {s : State} {rest : List Event} {p c : Nat} {b : Byte} (h : OctetNext s rest p c b) :
    step s = .next ((s.setSched rest).takeOctet c b) := by
  obtain ⟨⟨writeOk, hs⟩, hp, -, hown, -, hread, hwatch, hquiet, htime⟩ := h
  have hdue : ¬DeadlineDue s (s.chan c) := by
    rw [deadlineDue_iff_read hread]
    exact not_or.2 ⟨hquiet, htime⟩
  refine step_of_rx (kept := false) hs hp ?_
  rcases State.rxStep_cases (s.setSched rest) p b writeOk with ⟨c', ho, hd, -⟩ | ⟨c', ho, -, -, -, hx⟩ | ⟨hno, -⟩
  · cases hown.symm.trans ho
    exact absurd hd hdue
  · cases hown.symm.trans ho
    exact hx
  · rcases (hno c hown).1 with hr | hr
    · exact absurd hread hr
    · rw [State.setSched_chan, hwatch] at hr
      cases hr

/-! ### The grant -/

/-- Settles O25: the first failing check of the line configuration, then the two draws. -/
theorem grantFailuresEndInOrder : Obligations.GrantFailuresEndInOrder := by
  intro s rest p c openOk applyOk h
  obtain ⟨-, hp, hc, -, -, hop⟩ := id h
  have hfails : ∀ (g : Port → Port) (e : CmdError),
      (∀ pt, { g pt with opened := false, owner := none, dir := .idle }
        = { pt with waiters := pt.waiters.filter (· ≠ c), owner := none, opened := false, dir := .idle }) →
      EndsErr (s.setSched rest) ((((s.setSched rest).modPort p g).modChan c fun ch =>
          { ch with line := grantLine s c }).endExchange c (.error e)) c
          { s.chan c with line := grantLine s c, watch := false } e.errCode e.sub
        ∧ PortBecomes (s.setSched rest) ((((s.setSched rest).modPort p g).modChan c fun ch =>
            { ch with line := grantLine s c }).endExchange c (.error e)) p
            { s.port p with waiters := (s.port p).waiters.filter (· ≠ c), owner := none, opened := false,
                            dir := .idle } := fun g e hg => by
    rw [← hg]
    exact State.endExchange_error_update (s := s.setSched rest) g (fun ch => { ch with line := grantLine s c }) e hc hp hop
  have hcheck : ∀ e, lineError (grantLine s c) = some e → (s.setSched rest).grantStep p c openOk applyOk
      = (((s.setSched rest).modPort p (Port.take c)).modChan c fun ch =>
          { ch with line := grantLine s c }).endExchange c (.error e) := fun e he =>
    State.grantStep_of_lineError (s := s.setSched rest) openOk applyOk he
  refine ⟨_, step_of_grantNext h, fun hb => ?_, fun hb => ⟨fun hd => ?_, fun hd => ⟨fun hpar => ?_, fun hpar => ?_⟩⟩⟩
  · rw [hcheck .baudZero (if_pos hb)]
    exact hfails _ .baudZero fun _ => rfl
  · rw [hcheck .badData ((if_neg hb).trans (if_pos (not_or.1 hd)))]
    exact hfails _ .badData fun _ => rfl
  · have hdata : ¬((grantLine s c).data ≠ 7#4 ∧ (grantLine s c).data ≠ 8#4) := fun hn => hd.elim hn.1 hn.2
    rw [hcheck .badParity ((if_neg hb).trans <| (if_neg hdata).trans (if_pos hpar))]
    exact hfails _ .badParity fun _ => rfl
  · have hl : lineError (grantLine (s.setSched rest) c) = none := lineError_eq_none ⟨hb, hd, hpar⟩
    refine ⟨fun ho => ?_, fun ho ha => ?_⟩
    · rw [ho, State.grantStep_of_openFailed applyOk hl]
      exact hfails _ .openFailed fun _ => rfl
    · rw [ho, ha, State.grantStep_of_applyFailed hl]
      exact hfails _ .applyFailed fun _ => rfl

/-- Settles O26: the grant that writes, as one update of the channel and of its port. -/
theorem grantStartsWrite : Obligations.GrantStartsWrite := by
  intro s rest p c h hok hw
  obtain ⟨-, hp, hc, -, -, hop⟩ := id h
  have hstep := step_of_grantNext h
  rw [State.grantStep_of_write (s := s.setSched rest) (lineError_eq_none hok) hc hw, State.setSched_chan, hop,
    State.modPort_modPort] at hstep
  exact ⟨_, hstep, State.othersSame_update _ _, fun _ => rfl, State.chan_update (s := s.setSched rest) _ _ hc,
    State.portBecomes_update (s := s.setSched rest) _ _ hp⟩

/-- A grant without a write phase, as an update of the channel and of its port, then the end where nothing is to be
read. -/
theorem State.grantStep_read_update {s : State} {p c : Nat} (hl : lineError (grantLine s c) = none)
    (hc : c < s.chans.length) (hop : (s.chan c).op.port = p) (hw : (s.chan c).op.hasWrite = false) :
    let u := (s.modPort p fun pt => { pt.start c (grantLine s c) with dir := .rx }).modChan c fun ch =>
      readEntered s { ch with line := grantLine s c, watch := true }
    ((s.chan c).op.readsNothing → s.grantStep p c true true = u.endExchange c (.ok []))
      ∧ (¬(s.chan c).op.readsNothing → s.grantStep p c true true = u) := by
  subst hop
  have hstart := State.chan_update (s := s) (p := (s.chan c).op.port) (Port.start c (grantLine s c))
    (fun ch => { ch with line := grantLine s c, watch := true }) hc
  have hrecv : ((s.modPort (s.chan c).op.port (Port.start c (grantLine s c))).modChan c fun ch =>
        { ch with line := grantLine s c, watch := true }).receiving c
      = (s.modPort (s.chan c).op.port fun pt => { pt.start c (grantLine s c) with dir := .rx }).modChan c fun ch =>
          readEntered s { ch with line := grantLine s c, watch := true } := by
    rw [State.receiving, hstart, State.modChan_modPort, State.modPort_modPort, State.modChan_modChan]
    rfl
  rw [State.grantStep_of_read hl hc hw]
  refine ⟨fun hn => ?_, fun hn => ?_⟩
  · rw [State.enterRead_of_readsNothing (by rw [hstart]; exact hn), hrecv]
  · rw [State.enterRead_of_not_readsNothing (by rw [hstart]; exact hn), hrecv]

/-- Settles O27: the grant that reads. -/
theorem grantWithoutWriteStartsRead : Obligations.GrantWithoutWriteStartsRead := by
  intro s rest p c h hok hw
  obtain ⟨-, hp, hc, -, -, hop⟩ := id h
  obtain ⟨hnothing, hsome⟩ :=
    State.grantStep_read_update (s := s.setSched rest) (lineError_eq_none hok) hc hop hw
  refine ⟨_, step_of_grantNext h, fun hn => ?_, fun hm hn hk => ?_⟩
  · rw [hsome hn]
    exact ⟨State.othersSame_update _ _, fun _ => rfl, State.chan_update (s := s.setSched rest) _ _ hc,
      State.portBecomes_update (s := s.setSched rest) _ _ hp⟩
  · rw [hnothing ⟨hm, hn⟩]
    exact State.endExchange_plain_update (s := s.setSched rest) _ _ [] hc hp hop hk

/-! ### The deadlines -/

/-- Settles O28: the three outcomes of the end of WRITE. -/
theorem writeDeadlineEndsPhase : Obligations.WriteDeadlineEndsPhase := by
  intro s rest c writeOk h hw
  obtain ⟨hs, hc, hp⟩ := id h
  have hdue := deadlineDue_iff_tEnd (s := s) (.inl hw)
  refine ⟨fun hne => step_of_deadlineNotDue h (mt hdue.1 hne), fun heq => ⟨_, step_of_deadlineDue hs hc (hdue.2 heq), ?_⟩⟩
  rw [State.deadlineStep_of_write (s := s.setSched rest) writeOk hw]
  refine ⟨fun hf => ?_, fun ht hm => ?_, fun ht hm hn => ?_, fun ht hm hn hk => ?_⟩
  · rw [hf, State.writeDeadline_of_failed]
    exact State.endExchange_error (s := s.setSched rest) .writeFailed hc hp
  · rw [ht, State.writeDeadline_of_settle (s := s.setSched rest) hm]
    exact ⟨State.othersSame_modChan _ _ _, fun _ => rfl, rfl, State.chan_modChan_self (s := s.setSched rest) _ hc⟩
  · rw [ht, State.writeDeadline_of_read (s := s.setSched rest) hm,
      State.enterRead_of_not_readsNothing (s := s.setSched rest) hn]
    exact ⟨State.othersSame_update _ _, fun _ => rfl, State.chan_update (s := s.setSched rest) _ _ hc,
      State.portBecomes_update (s := s.setSched rest) _ _ hp⟩
  · have hm' : (s.chan c).op.mode ≠ .w := by simp [hm]
    rw [ht, State.writeDeadline_of_read (s := s.setSched rest) hm',
      State.enterRead_of_readsNothing (s := s.setSched rest) ⟨hm, hn⟩]
    exact State.endExchange_plain_update (s := s.setSched rest) _ _ [] hc hp rfl hk

/-- Settles O29: the end of SETTLE completes with no output. -/
theorem settleDeadlineCompletesWrite : Obligations.SettleDeadlineCompletesWrite := by
  intro s rest c writeOk h hw
  obtain ⟨hs, hc, hp⟩ := id h
  have hdue := deadlineDue_iff_tEnd (s := s) (.inr hw)
  refine ⟨fun hne => step_of_deadlineNotDue h (mt hdue.1 hne), fun heq hk =>
    ⟨_, step_of_deadlineDue hs hc (hdue.2 heq), ?_⟩⟩
  rw [State.deadlineStep_of_settle (s := s.setSched rest) writeOk hw]
  exact State.endExchange_plain (s := s.setSched rest) [] hc hp hk

/-- Settles O30: silence first, then the timeout. -/
theorem readDeadlineEndsExchange : Obligations.ReadDeadlineEndsExchange := by
  intro s rest c writeOk h hr
  obtain ⟨hs, hc, hp⟩ := id h
  have hdue := deadlineDue_iff_read (s := s) hr
  refine ⟨fun hq ht => step_of_deadlineNotDue h (mt hdue.1 (not_or.2 ⟨hq, ht⟩)), fun hd =>
    ⟨_, step_of_deadlineDue hs hc (hdue.2 hd), ?_⟩⟩
  by_cases hq : QuietElapsed s (s.chan c)
  · by_cases hm : (s.chan c).op.mode = .q
    · rw [State.deadlineStep_of_quiet (s := s.setSched rest) writeOk hr hq hm]
      refine ⟨(State.endExchange_cases (s := s.setSched rest) _ hc hp).1, fun _ _ hk =>
        (State.endExchange_plain (s := s.setSched rest) _ hc hp hk).1, fun _ hn => ?_, fun hn => absurd hq hn⟩
      rw [hm] at hn
      cases hn
    · rw [State.deadlineStep_of_short (s := s.setSched rest) writeOk hr hq hm]
      obtain ⟨hends, hrel⟩ := State.endExchange_error (s := s.setSched rest) .shortRead hc hp
      exact ⟨hrel, fun _ hm' => absurd hm' hm, fun _ _ => hends, fun hn => absurd hq hn⟩
  · rw [State.deadlineStep_of_timeout (s := s.setSched rest) writeOk hr hq]
    obtain ⟨hends, hrel⟩ := State.endExchange_error (s := s.setSched rest) .readTimeout hc hp
    exact ⟨hrel, fun hq' => absurd hq' hq, fun hq' => absurd hq' hq, fun _ => hends⟩

/-! ### The octets -/

/-- Settles O31: the octet is discarded. -/
theorem octetOutsideReadIsLost : Obligations.OctetOutsideReadIsLost := by
  intro s rest p b writeOk hs hp hlost
  refine step_of_rx (kept := false) hs hp ?_
  rcases State.rxStep_cases (s.setSched rest) p b writeOk with ⟨c, ho, hd, -⟩ | ⟨c, ho, -, hr, hw, -⟩ | ⟨-, hx⟩
  · exact absurd hd (hlost c ho).2
  · rcases (hlost c ho).1 with hn | hn
    · exact absurd hr hn
    · cases hw.symm.trans hn
  · exact hx

/-- Settles O32: the octet that meets no end condition is kept. -/
theorem octetExtendsFrame : Obligations.OctetExtendsFrame := by
  intro s rest p c b h hroom hends
  obtain ⟨-, -, hc, -⟩ := id h
  have hno : (octetTaken (s.setSched rest) (s.chan c) b).octetEnd = none := by
    rw [← Option.not_isSome_iff_eq_none, Chan.octetEnd_isSome_iff]
    exact hends
  refine ⟨_, step_of_octetNext h, ?_⟩
  rw [State.takeOctet_of_kept (s := s.setSched rest) b hc hroom hno]
  exact ⟨State.othersSame_modChan _ _ _, fun _ => rfl, rfl, State.chan_modChan_self (s := s.setSched rest) _ hc⟩

/-- An octet that ends a transceiver command's frame with `out`. -/
theorem step_of_lastOctet {s : State} {rest : List Event} {p c : Nat} {b : Byte} {out : Bytes}
    (h : OctetNext s rest p c b) (hroom : (s.chan c).acc.length ≠ s.cfg.bufBytes) (hk : (s.chan c).op.reply = .plain)
    (ho : (octetTaken s (s.chan c) b).octetEnd = some out) :
    ∃ t, step s = .next t ∧ PortReleased (s.setSched rest) t p
      ∧ EndsOk (s.setSched rest) t c { octetTaken s (s.chan c) b with watch := false, result := false } out := by
  obtain ⟨-, hp, hc, -, hop, -⟩ := id h
  obtain ⟨hends, hport⟩ := State.endExchange_plain_update (s := s.setSched rest) (p := p) id (octetTaken s · b) out hc hp
    hop hk
  refine ⟨_, step_of_octetNext h, ?_⟩
  rw [State.takeOctet_of_ends (s := s.setSched rest) b hc hroom ho]
  rw [State.modPort_id] at hends hport
  exact ⟨hport, hends⟩

/-- Settles O33: in mode N the count ends the frame. -/
theorem exactLengthEndsOnLastOctet : Obligations.ExactLengthEndsOnLastOctet := by
  intro s rest p c b h hroom hm hk hn
  refine step_of_lastOctet h hroom hk ?_
  simp only [octetTaken, Chan.octetEnd, hm, List.length_append, List.length_singleton, hn, if_true]

/-- Settles O34: in modes D and L the sequence ends the frame and is stripped. -/
theorem delimiterEndsFrame : Obligations.DelimiterEndsFrame := by
  intro s rest p c b out h hroom hk hd
  exact step_of_lastOctet h hroom hk (Chan.octetEnd_of_suffix hd)

/-- Settles O35: a full buffer is checked before the octet is taken. -/
theorem overflowEndsExchange : Obligations.OverflowEndsExchange := by
  intro s rest p c b h hfull
  obtain ⟨-, hp, hc, -, rfl, -⟩ := id h
  refine ⟨_, step_of_octetNext h, ?_⟩
  rw [State.takeOctet_of_full (s := s.setSched rest) b hfull]
  exact (State.endExchange_error (s := s.setSched rest) .rxOverflow hc hp).symm

/-! ### The request commands -/

/-- The end of a request command's exchange with success: the verdict of its parse. -/
theorem State.endExchange_request {s : State} {c : Nat} {out : Bytes} {parsed : Except CmdError Rec}
    (hc : c < s.chans.length) (hp : (s.chan c).op.port < s.ports.length)
    (hk : (s.chan c).op.reply = .ascii
          ∧ ascParse (s.chan c).op.addr (s.chan c).op.addrEn (s.chan c).op.sumEn out = parsed
        ∨ (s.chan c).op.reply = .binary ∧ rtuParse (s.chan c).op.addr (s.chan c).op.crcEn out = parsed) :
    PortReleased s (s.endExchange c (.ok out)) (s.chan c).op.port
      ∧ (∀ r, parsed = .ok r →
          EndsOk s (s.endExchange c (.ok out)) c { s.chan c with watch := false, result := false, res := r.res } r.body)
      ∧ ∀ e, parsed = .error e →
          EndsErr s (s.endExchange c (.ok out)) c { s.chan c with watch := false } e.errCode e.sub := by
  refine ⟨(State.endExchange_cases _ hc hp).1, ?_, ?_⟩
  · rintro r rfl
    exact (State.endExchange_parsed out r hc hp hk).1
  · rintro e rfl
    exact (State.endExchange_unparsed out e hc hp hk).1

/-- Settles O37: the parse of what was received, in the step that ends the exchange. -/
theorem requestReplyIsParsed : Obligations.RequestReplyIsParsed := by
  refine ⟨fun s rest p c b out h hroom hk hm ha => ?ascii, fun s rest c writeOk h hr hq hm hk => ?binary⟩
  case ascii =>
    obtain ⟨-, hp, hc, -, rfl, -⟩ := id h
    have hchan : ((s.setSched rest).modChan c (octetTaken (s.setSched rest) · b)).chan c = octetTaken s (s.chan c) b :=
      State.chan_modChan_self (s := s.setSched rest) _ hc
    have hothers := State.othersSame_modChan (s.setSched rest) c (octetTaken (s.setSched rest) · b)
    obtain ⟨hport, hok, herr⟩ := State.endExchange_request
      (s := (s.setSched rest).modChan c (octetTaken (s.setSched rest) · b)) (c := c) (out := out) (by simpa using hc)
      (by rw [hchan]; exact hp) (.inl ⟨by rw [hchan]; exact hk, rfl⟩)
    rw [hchan] at hport hok herr
    refine ⟨_, step_of_octetNext h, ?_⟩
    rw [State.takeOctet_of_ends (s := s.setSched rest) b hc hroom (Chan.octetEnd_of_suffix (.inr ⟨hm, ha⟩))]
    exact ⟨hport, fun r hpr => endsOk_of_modChan (hok r hpr), fun e hpe => endsErr_of_modChan (herr e hpe)⟩
  case binary =>
    obtain ⟨hs, hc, hp⟩ := id h
    refine ⟨_, step_of_deadlineDue hs hc ((deadlineDue_iff_read hr).2 (.inl hq)), ?_⟩
    rw [State.deadlineStep_of_quiet (s := s.setSched rest) writeOk hr hq hm]
    exact State.endExchange_request (s := s.setSched rest) hc hp (.inr ⟨hk, rfl⟩)

/-! ### The clock -/

/-- The clock may advance exactly where the rule says so (R134). -/
theorem State.mayAdvance_iff (s : State) (x : Nat) :
    s.mayAdvance x = true ↔
      s.now < x ∧ (∀ ch ∈ s.chans, ch.due s.now = false) ∧ (∀ pt ∈ s.ports, pt.owner = none → pt.waiters = [])
        ∧ ∀ ch ∈ s.chans, ∀ d ∈ ch.deadlines, x ≤ d := by
  have hgrant : ∀ pt : Port, pt.grantDue = false ↔ (pt.owner = none → pt.waiters = []) := fun pt => by
    unfold Port.grantDue
    cases pt.owner <;> simp
  simp only [State.mayAdvance, Bool.and_eq_true, decide_eq_true_eq, List.all_eq_true, Bool.not_eq_true', hgrant,
    and_assoc]

/-- Settles O38: the clock's check is the rule's. -/
theorem clockStopsAtDeadlines : Obligations.ClockStopsAtDeadlines := by
  intro s rest x hs
  rw [← State.mayAdvance_iff, step_of_sched hs, State.run_of_issued?_none rfl, State.agentStep, State.advance]
  exact ⟨fun h => if_pos h, fun h => if_neg h⟩

end Sys2Proof.Machine
end

section
/-! PROOF. The end of an exchange as a function of its channel alone (42_transceiver.md R145): the verdict, what it makes of
the channel, and the output it writes. It needs nothing of the ports. -/

namespace Sys2Proof.Machine

open Sys2Proof.Safety

/-- The verdict of an exchange that ends with `r`: its error, or RES and the output, parsed for a request command. -/
def Chan.verdict (ch : Chan) (r : Except CmdError Bytes) : Except CmdError Rec :=
  match r, ch.op.reply with
  | .error e, _ => .error e
  | .ok out, .plain => .ok ⟨ch.res, out⟩
  | .ok out, .ascii => ascParse ch.op.addr ch.op.addrEn ch.op.sumEn out
  | .ok out, .binary => rtuParse ch.op.addr ch.op.crcEn out

/-- The channel after the end of its exchange with the verdict `v` (R213, R214). -/
def Chan.ended (ch : Chan) (v : Except CmdError Rec) : Chan :=
  match v with
  | .error e => Chan.raise e { ch with watch := false }
  | .ok r => Chan.complete r.body.length { ch with watch := false, result := false, res := r.res }

/-- The output that a verdict writes to RXBUF. -/
def outputOf (v : Except CmdError Rec) : Bytes :=
  match v with
  | .error _ => []
  | .ok r => r.body

/-! ### What an end leaves on the channel -/

section Ended

variable (ch : Chan) (v : Except CmdError Rec)

@[simp] theorem Chan.ended_phase : (ch.ended v).phase = .idle := by cases v <;> rfl
@[simp] theorem Chan.ended_busy : (ch.ended v).busy = false := by cases v <;> rfl
@[simp] theorem Chan.ended_op : (ch.ended v).op = ch.op := by cases v <;> rfl
@[simp] theorem Chan.ended_acc : (ch.ended v).acc = ch.acc := by cases v <;> rfl
@[simp] theorem Chan.ended_deadlines : (ch.ended v).deadlines = [] := by cases v <;> rfl

/-- The output length that an end records. -/
theorem Chan.ended_rxlen_le : (ch.ended v).rxlen.toNat ≤ (outputOf v).length := by
  cases v with
  | error e => exact Nat.zero_le _
  | ok r => exact (BitVec.toNat_ofNat ..).trans_le (Nat.mod_le _ _)

/-- The error record that an end leaves. -/
theorem Chan.ended_record :
    (∃ e : CmdError, v = .error e ∧ (ch.ended v).err = e.errCode ∧ (ch.ended v).sub = e.sub
        ∧ (ch.ended v).rxlen = 0#16 ∧ (ch.ended v).res = 0#8 ∧ (ch.ended v).result = false)
      ∨ (∃ r, v = .ok r) ∧ (ch.ended v).err = 0#4 ∧ (ch.ended v).sub = 0#8 := by
  cases v with
  | error e => exact .inl ⟨e, rfl, rfl, rfl, rfl, rfl, rfl⟩
  | ok r => exact .inr ⟨⟨r, rfl⟩, rfl, rfl⟩

end Ended

/-- A parse does not lengthen what was received. -/
theorem Chan.outputOf_verdict_length {ch : Chan} {r : Except CmdError Bytes} {n : Nat}
    (h : ∀ out, r = .ok out → out.length ≤ n) : (outputOf (ch.verdict r)).length ≤ n := by
  cases hv : ch.verdict r with
  | error e => exact Nat.zero_le n
  | ok rec =>
    cases r with
    | error e => cases hv
    | ok out =>
      refine le_trans ?_ (h out rfl)
      unfold Chan.verdict at hv
      split at hv
      · cases hv
      · rename_i heq _
        cases heq
        cases hv
        exact le_rfl
      · rename_i heq _
        cases heq
        exact ascParse_length hv
      · rename_i heq _
        cases heq
        exact rtuParse_length hv

/-- The error of a verdict is the exchange's own, or a request command's parse found it. -/
theorem Chan.verdict_error {ch : Chan} {r : Except CmdError Bytes} {e : CmdError} (h : ch.verdict r = .error e) :
    r = .error e ∨ (∃ out, r = .ok out) ∧ ch.op.reply ≠ .plain ∧ (e.cls = .checksum ∨ e.cls = .semantic) := by
  unfold Chan.verdict at h
  split at h
  · exact .inl (by cases h; rfl)
  · cases h
  · rename_i hk
    exact .inr ⟨⟨_, rfl⟩, by simp [hk], ascParse_error_cls h⟩
  · rename_i hk
    exact .inr ⟨⟨_, rfl⟩, by simp [hk], rtuParse_error_cls h⟩

/-! ### Steps that drive one channel -/

/-- The step from `s` to `t` made channel `c` into `ch` and wrote `out` to its RXBUF; but for ports it did nothing else. -/
structure Drives (s t : State) (c : Nat) (ch : Chan) (out : Bytes) : Prop where
  others : OthersSame s t c
  chan : t.chan c = ch
  mem : t.mem = s.mem.writeBytes (rxAddr c 0) out

theorem Drives.update {s : State} {c : Nat} (p : Nat) (g : Port → Port) (f : Chan → Chan) (hc : c < s.chans.length) :
    Drives s ((s.modPort p g).modChan c f) c (f (s.chan c)) [] :=
  ⟨State.othersSame_update g f, State.chan_update g f hc, rfl⟩

theorem Drives.modChan {s : State} {c : Nat} (f : Chan → Chan) (hc : c < s.chans.length) :
    Drives s (s.modChan c f) c (f (s.chan c)) [] :=
  ⟨State.othersSame_modChan s c f, State.chan_modChan_self f hc, rfl⟩

theorem Drives.length_eq {s t : State} {c : Nat} {ch : Chan} {out : Bytes} (h : Drives s t c ch out) :
    t.chans.length = s.chans.length := by
  obtain ⟨⟨-, -, -, -, -, -, hl, -⟩, -, -⟩ := h
  exact hl

/-- A step after an update that wrote nothing. -/
theorem Drives.after {s m t : State} {c : Nat} {ch ch' : Chan} {out : Bytes} (h : Drives s m c ch [])
    (h' : Drives m t c ch' out) : Drives s t c ch' out :=
  ⟨othersSame_trans h.others h'.others, h'.chan, h'.mem.trans (by rw [h.mem]; rfl)⟩

theorem Drives.complete {s : State} {c : Nat} (out : Bytes) (hc : c < s.chans.length) :
    Drives s (s.complete c out) c (Chan.complete out.length (s.chan c)) out := by
  obtain ⟨⟨ho, hch, -⟩, -⟩ := State.complete_spec out hc
  exact ⟨ho, hch, rfl⟩

/-- The end of an exchange is its verdict on the channel. -/
theorem State.endExchange_drives {s : State} {c : Nat} (r : Except CmdError Bytes) (hc : c < s.chans.length) :
    Drives s (s.endExchange c r) c ((s.chan c).ended ((s.chan c).verdict r)) (outputOf ((s.chan c).verdict r)) := by
  generalize hm : (s.modPort (s.chan c).op.port Port.release).modChan c
    (fun ch => { ch with watch := false, phase := .idle, result := false }) = m
  have hmid : Drives s m c { s.chan c with watch := false, phase := .idle, result := false } [] :=
    hm ▸ Drives.update (s.chan c).op.port Port.release _ hc
  have hcm : c < m.chans.length := hmid.length_eq ▸ hc
  have hraise : ∀ e, Drives s (m.raise c e) c ((s.chan c).ended (.error e)) [] := fun e => by
    have := hmid.after (Drives.modChan (Chan.raise e) hcm)
    rwa [hmid.chan] at this
  have hparse : ∀ v, Drives s (m.endParse c v) c ((s.chan c).ended v) (outputOf v) := fun v => by
    cases v with
    | error e => exact hraise e
    | ok rec =>
      have hset := hmid.after (Drives.modChan (Chan.setRes rec.res) hcm)
      have := hset.after (Drives.complete rec.body (by simpa using hcm))
      rwa [hset.chan, hmid.chan] at this
  have hend : s.endExchange c r = (match r with | .ok out => m.endReply c out | .error e => m.raise c e) := by
    subst hm
    cases r <;> rfl
  rw [hend]
  cases r with
  | error e => exact hraise e
  | ok out =>
    have hop : (m.chan c).op = (s.chan c).op := by rw [hmid.chan]
    simp only [State.endReply, hop, Chan.verdict]
    cases (s.chan c).op.reply with
    | plain =>
      have := hmid.after (Drives.complete out hcm)
      rwa [hmid.chan] at this
    | ascii => exact hparse _
    | binary => exact hparse _

/-- The end of an exchange after an update of its channel. -/
theorem Drives.endExchange {s m : State} {c : Nat} {ch : Chan} (h : Drives s m c ch []) (hc : c < s.chans.length)
    (r : Except CmdError Bytes) :
    Drives s (m.endExchange c r) c (ch.ended (ch.verdict r)) (outputOf (ch.verdict r)) := by
  have := h.after (State.endExchange_drives r (h.length_eq ▸ hc))
  rwa [h.chan] at this

end Sys2Proof.Machine
end

section
/-! PROOF. Everything a step of an exchange can do to its channel, with its cause (42_transceiver.md R141 to R145, R139), and
the precedence of a due deadline over an octet (R138). -/

namespace Sys2Proof.Machine

open Sys2Proof.Safety

/-- The grant of the port that channel `c` waits for. -/
def GrantedBy (s : State) (e : Event) (c : Nat) : Prop :=
  ∃ p openOk applyOk, e = .grant p c openOk applyOk ∧ c ∈ (s.port p).waiters

/-- An octet for channel `c`, which is in READ. -/
def OctetBy (s : State) (e : Event) (c : Nat) (b : Byte) : Prop :=
  ∃ p writeOk, e = .rx p b writeOk ∧ (s.port p).owner = some c ∧ (s.chan c).phase = .read

/-- Why the exchange of channel `c` ends at the event `e`, with the channel as it is just before and what it ends with. -/
inductive EndCause (s : State) (e : Event) (c : Nat) : Chan → Except CmdError Bytes → Prop
  | grantFailed (l : Line) (err : CmdError) (hg : GrantedBy s e c) (he : err.cls = .configuration ∨ err.cls = .transport) :
      EndCause s e c { s.chan c with line := l } (.error err)
  | grantReadsNothing (l : Line) (hg : GrantedBy s e c) :
      EndCause s e c (readEntered s { s.chan c with line := l, watch := true }) (.ok [])
  | writeFailed (h : (s.chan c).phase = .write) (hd : s.now = (s.chan c).tEnd) :
      EndCause s e c (s.chan c) (.error .writeFailed)
  | writeReadsNothing (h : (s.chan c).phase = .write) (hd : s.now = (s.chan c).tEnd) :
      EndCause s e c (readEntered s (s.chan c)) (.ok [])
  | settled (h : (s.chan c).phase = .settle) (hd : s.now = (s.chan c).tEnd) : EndCause s e c (s.chan c) (.ok [])
  | quiet (h : (s.chan c).phase = .read) (hq : QuietElapsed s (s.chan c)) (hm : (s.chan c).op.mode = .q) :
      EndCause s e c (s.chan c) (.ok (s.chan c).acc)
  | short (h : (s.chan c).phase = .read) (hq : QuietElapsed s (s.chan c)) (hm : (s.chan c).op.mode = .n) :
      EndCause s e c (s.chan c) (.error .shortRead)
  | timeout (h : (s.chan c).phase = .read) (ht : TimeoutElapsed s (s.chan c)) :
      EndCause s e c (s.chan c) (.error .readTimeout)
  | overflow (b : Byte) (h : OctetBy s e c b) (hfull : (s.chan c).acc.length = s.cfg.bufBytes) :
      EndCause s e c (s.chan c) (.error .rxOverflow)
  | frame (b : Byte) (out : Bytes) (h : OctetBy s e c b) (hroom : (s.chan c).acc.length ≠ s.cfg.bufBytes)
      (ho : (octetTaken s (s.chan c) b).octetEnd = some out) : EndCause s e c (octetTaken s (s.chan c) b) (.ok out)

/-- What a step of the exchange of channel `c` at the event `e` makes of the channel, and the output it writes. -/
inductive ExchangeStep (s : State) (e : Event) (c : Nat) : Chan → Bytes → Prop
  | ends (ch : Chan) (r : Except CmdError Bytes) (h : EndCause s e c ch r) :
      ExchangeStep s e c (ch.ended (ch.verdict r)) (outputOf (ch.verdict r))
  | writes (l : Line) (k : Nat) (w : Bool) (hg : GrantedBy s e c) :
      ExchangeStep s e c { s.chan c with line := l, phase := .write, tEnd := s.now + k, watch := w } []
  | readsFirst (l : Line) (hg : GrantedBy s e c) :
      ExchangeStep s e c (readEntered s { s.chan c with line := l, watch := true }) []
  | settles (k : Nat) (h : (s.chan c).phase = .write) (hd : s.now = (s.chan c).tEnd) :
      ExchangeStep s e c { s.chan c with phase := .settle, tEnd := s.now + k } []
  | reads (h : (s.chan c).phase = .write) (hd : s.now = (s.chan c).tEnd) :
      ExchangeStep s e c (readEntered s (s.chan c)) []
  | keeps (b : Byte) (h : OctetBy s e c b) (hroom : (s.chan c).acc.length ≠ s.cfg.bufBytes) :
      ExchangeStep s e c (octetTaken s (s.chan c) b) []

/-- The step from `s` to `t` is a step of the exchange of channel `c`. -/
def Exchanges (s t : State) (e : Event) (c : Nat) : Prop :=
  c < s.chans.length ∧ ∃ ch out, ExchangeStep s e c ch out ∧ Drives s t c ch out

section Exchanges

variable {s : State} {e : Event} {c : Nat}

theorem Exchanges.of_end {m : State} {ch : Chan} {r : Except CmdError Bytes} (hc : c < s.chans.length)
    (h : EndCause s e c ch r) (hm : Drives s m c ch []) : Exchanges s (m.endExchange c r) e c :=
  ⟨hc, _, _, .ends ch r h, hm.endExchange hc r⟩

theorem Drives.self (s : State) (c : Nat) : Drives s s c (s.chan c) [] :=
  ⟨othersSame_refl s c, rfl, rfl⟩

/-- Entering READ turns the receiver on, or the exchange that reads nothing ends. -/
theorem State.enterRead_drives {m : State} {ch : Chan} (hc : c < s.chans.length) (hm : Drives s m c ch []) :
    Drives s (m.enterRead c) c (readEntered s ch) []
      ∨ ∃ u, Drives s u c (readEntered s ch) [] ∧ m.enterRead c = u.endExchange c (.ok []) := by
  have hcm : c < m.chans.length := hm.length_eq ▸ hc
  have hnow : m.now = s.now := hm.others.2.2.1
  have hrecv : Drives s (m.receiving c) c (readEntered s ch) [] := by
    have := hm.after (Drives.update (m.chan c).op.port (fun pt => { pt with dir := .rx }) (readEntered m) hcm)
    rwa [show readEntered m (m.chan c) = readEntered s ch by rw [hm.chan, readEntered, readEntered, hnow]] at this
  by_cases hn : (m.chan c).op.readsNothing
  · exact .inr ⟨_, hrecv, State.enterRead_of_readsNothing hn⟩
  · rw [State.enterRead_of_not_readsNothing hn]
    exact .inl hrecv

theorem lineError_cls {l : Line} {err : CmdError} (h : lineError l = some err) : err.cls = .configuration := by
  unfold lineError at h
  split_ifs at h <;> cases h <;> rfl

/-- The grant is a step of the granted channel's exchange (R141). -/
theorem State.grantStep_exchanges {p : Nat} {openOk applyOk : Bool} (hc : c < s.chans.length)
    (hw : c ∈ (s.port p).waiters) :
    Exchanges s (s.grantStep p c openOk applyOk) (.grant p c openOk applyOk) c := by
  have hg : GrantedBy s (.grant p c openOk applyOk) c := ⟨p, openOk, applyOk, rfl, hw⟩
  have hline : ∀ g, Drives s ((s.modPort p g).modChan c fun ch => { ch with line := grantLine s c }) c
      { s.chan c with line := grantLine s c } [] := fun g => Drives.update p g _ hc
  cases hl : lineError (grantLine s c) with
  | some err =>
    rw [State.grantStep_of_lineError _ _ hl]
    exact .of_end hc (.grantFailed _ err hg (.inl (lineError_cls hl))) (hline _)
  | none =>
    cases openOk with
    | false =>
      rw [State.grantStep_of_openFailed _ hl]
      exact .of_end hc (.grantFailed _ .openFailed hg (.inr rfl)) (hline _)
    | true =>
      cases applyOk with
      | false =>
        rw [State.grantStep_of_applyFailed hl]
        exact .of_end hc (.grantFailed _ .applyFailed hg (.inr rfl)) (hline _)
      | true =>
        cases hwr : (s.chan c).op.hasWrite with
        | true =>
          rw [State.grantStep_of_write hl hc hwr, State.modPort, State.modPort]
          exact ⟨hc, _, _, .writes _ _ _ hg, ⟨State.othersSame_modChan s c _, State.chan_modChan_self (s := s) _ hc, rfl⟩⟩
        | false =>
          rw [State.grantStep_of_read hl hc hwr]
          rcases State.enterRead_drives hc (Drives.update p (Port.start c (grantLine s c))
            (fun ch => { ch with line := grantLine s c, watch := true }) hc) with h | ⟨u, hu, heq⟩
          · exact ⟨hc, _, _, .readsFirst _ hg, h⟩
          · rw [heq]
            exact .of_end hc (.grantReadsNothing _ hg) hu

/-- A due deadline step is a step of its channel's exchange (R142, R143, R144), whatever the event at which it fires. -/
theorem State.deadlineStep_exchanges (e : Event) {writeOk : Bool} (hd : DeadlineDue s (s.chan c)) :
    Exchanges s (s.deadlineStep c writeOk) e c := by
  have hc : c < s.chans.length := State.lt_of_due ((Chan.due_iff s _).2 hd)
  rcases hd with ⟨hw | hs, hnow⟩ | ⟨hr, hdue⟩
  · rw [State.deadlineStep_of_write _ hw]
    cases writeOk with
    | false => exact .of_end hc (.writeFailed hw hnow) (Drives.self s c)
    | true =>
      by_cases hm : (s.chan c).op.mode = .w
      · rw [State.writeDeadline_of_settle hm]
        exact ⟨hc, _, _, .settles _ hw hnow, Drives.modChan _ hc⟩
      · rw [State.writeDeadline_of_read hm]
        rcases State.enterRead_drives hc (Drives.self s c) with h | ⟨u, hu, heq⟩
        · exact ⟨hc, _, _, .reads hw hnow, h⟩
        · rw [heq]
          exact .of_end hc (.writeReadsNothing hw hnow) hu
  · rw [State.deadlineStep_of_settle _ hs]
    exact .of_end hc (.settled hs hnow) (Drives.self s c)
  · by_cases hq : QuietElapsed s (s.chan c)
    · by_cases hm : (s.chan c).op.mode = .q
      · rw [State.deadlineStep_of_quiet _ hr hq hm]
        exact .of_end hc (.quiet hr hq hm) (Drives.self s c)
      · rw [State.deadlineStep_of_short _ hr hq hm]
        exact .of_end hc (.short hr hq (hq.1.resolve_left hm)) (Drives.self s c)
    · rw [State.deadlineStep_of_timeout _ hr hq]
      exact .of_end hc (.timeout hr (hdue.resolve_left hq)) (Drives.self s c)

/-- A taken octet is a step of its channel's exchange (R139). -/
theorem State.takeOctet_exchanges {b : Byte} (ho : OctetBy s e c b) : Exchanges s (s.takeOctet c b) e c := by
  obtain ⟨p, writeOk, -, -, hr⟩ := id ho
  have hc : c < s.chans.length := by
    by_contra hn
    rw [State.chan, List.getD_eq_default _ _ (by omega)] at hr
    cases hr
  by_cases hfull : (s.chan c).acc.length = s.cfg.bufBytes
  · rw [State.takeOctet_of_full b hfull]
    exact .of_end hc (.overflow b ho hfull) (Drives.self s c)
  · cases hend : (octetTaken s (s.chan c) b).octetEnd with
    | some out =>
      rw [State.takeOctet_of_ends b hc hfull hend]
      exact .of_end hc (.frame b out ho hfull hend) (Drives.modChan _ hc)
    | none =>
      rw [State.takeOctet_of_kept b hc hfull hend]
      exact ⟨hc, _, _, .keeps b ho hfull, Drives.modChan _ hc⟩

end Exchanges

/-- A due deadline step takes its channel out of its phase, and out of SETTLE and READ to IDLE. -/
theorem State.deadlineStep_leaves_phase {s : State} {c : Nat} (writeOk : Bool) (hd : DeadlineDue s (s.chan c)) :
    ((s.deadlineStep c writeOk).chan c).phase ≠ (s.chan c).phase
      ∧ ((s.chan c).phase ≠ .write → ((s.deadlineStep c writeOk).chan c).phase = .idle) := by
  -- an event that is neither a grant nor an octet
  obtain ⟨-, ch, out, hx, hdrives⟩ := State.deadlineStep_exchanges .reset (writeOk := writeOk) hd
  have hphase : (s.chan c).phase ≠ .idle := by
    rcases hd with ⟨h | h, -⟩ | ⟨h, -⟩ <;> rw [h] <;> decide
  rw [hdrives.chan]
  cases hx with
  | ends ch r h => exact ⟨by rw [Chan.ended_phase]; exact hphase.symm, fun _ => Chan.ended_phase _ _⟩
  | settles k h => exact ⟨by rw [h]; exact Phase.noConfusion, fun hn => absurd h hn⟩
  | reads h => exact ⟨by rw [h]; exact Phase.noConfusion, fun hn => absurd h hn⟩
  | writes l k w hg | readsFirst l hg =>
    obtain ⟨_, _, _, he, -⟩ := hg
    cases he
  | keeps b h =>
    obtain ⟨_, _, he, -⟩ := h
    cases he

/-- Settles O36: the octet's step is the owner's due deadline step, and puts the octet back on the schedule. -/
theorem deadlineFiresBeforeOctet : Obligations.DeadlineFiresBeforeOctet := by
  intro s rest p c b writeOk hs hp hc hown hd _
  have hrx : (s.setSched rest).rxStep p b writeOk = ((s.setSched rest).deadlineStep c writeOk, true) := by
    rcases State.rxStep_cases (s.setSched rest) p b writeOk with ⟨c', ho, -, hx⟩ | ⟨c', ho, hn, -⟩ | ⟨hno, -⟩
    · cases hown.symm.trans ho
      exact hx
    · cases hown.symm.trans ho
      exact absurd hd hn
    · exact absurd hd (hno c hown).2
  obtain ⟨-, _, _, -, hdrives⟩ := State.deadlineStep_exchanges (s := s.setSched rest) .reset (writeOk := writeOk) hd
  have hsched : ((s.setSched rest).deadlineStep c writeOk).sched = rest := hdrives.others.2.2.2.1
  have hstep := step_of_rx hs hp hrx
  rw [if_pos rfl, hsched] at hstep
  exact ⟨_, step_of_deadlineDue (s := { s with sched := .deadline c writeOk :: rest }) rfl hc hd, hstep,
    State.deadlineStep_leaves_phase (s := s.setSched rest) writeOk hd⟩

end Sys2Proof.Machine
end

section
/-! PROOF. Everything one step of the machine can do, by the event that is its cause (10_state.md R20), and what of it each
part of the state sees: the channels, the handle slots and the memory. -/

namespace Sys2Proof.Machine

open Sys2Proof.Safety

/-- The two states agree on everything but the schedule, the bus response and the count of free values. -/
structure SameBlock (s t : State) : Prop where
  cfg : t.cfg = s.cfg
  chans : t.chans = s.chans
  handles : t.handles = s.handles
  ports : t.ports = s.ports
  mem : t.mem = s.mem
  now : t.now = s.now

/-- What the event `e` makes of the state `s`, from which it is taken off the schedule. It says of `StepEnds` which event is
the cause of which end. -/
inductive StepOf (s : State) : Event → State → Prop
  /-- A read, a bus error, a write to a read-only target, an octet that is lost. -/
  | nothing {e : Event} {t : State} (h : SameBlock s t) : StepOf s e t
  | handleWrite (addr : BitVec 16) (v : Word) (h : Nat) (r : HandleReg) (ha : addr.toNat % 4 = 0)
      (ht : targetAt s.cfg addr = .handleReg h r) :
      StepOf s (.hostWrite addr 4 v) ((s.modHandle h fun hd => hd.writeReg r v).setResp .ack)
  | operandWrite {e : Event} (c : Nat) (r : ChanReg) (v : Word) :
      StepOf s e ((s.modChan c fun ch => ch.writeReg r v).setResp .ack)
  | txWrite {e : Event} (c k : Nat) (v : Word) (hc : c < s.cfg.nchan) (hk : k < s.cfg.bufBytes) (ha : k % 4 = 0) :
      StepOf s e ((s.setMem (s.mem.writeBytes (txAddr c k) (wordBytes v))).setResp .ack)
  | reject {e : Event} (c : Nat) : StepOf s e ((s.modChan c Chan.reject).setResp .ack)
  /-- The acceptance of a word, decoded or not. -/
  | accept (c : Nat) (w : Word) (t : State) (hc : c < s.cfg.nchan) (hb : (s.chan c).busy = false)
      (hx : ExecEnds ((s.setResp .ack).accept c w) t) : StepOf s (.hostWrite (cmdAddress c) 4 w) t
  | grant (p c : Nat) (openOk applyOk : Bool) (hp : p < s.ports.length) (hc : c < s.chans.length)
      (hfree : (s.port p).owner = none) (hw : c ∈ (s.port p).waiters) :
      StepOf s (.grant p c openOk applyOk) (s.grantStep p c openOk applyOk)
  /-- A due deadline step, at its own entry or before an octet, which then stays on the schedule. -/
  | deadline {e : Event} (c : Nat) (writeOk : Bool) (l : List Event) (hd : DeadlineDue s (s.chan c)) :
      StepOf s e ((s.deadlineStep c writeOk).setSched l)
  | octet {e : Event} (c : Nat) (b : Byte) (ho : OctetBy s e c b) : StepOf s e (s.takeOctet c b)
  | advance (x : Nat) (ha : s.mayAdvance x = true) : StepOf s (.advance x) (s.setNow x)
  | reset : StepOf s .reset s.resetInput

section Inversion

variable {s t : State}

theorem SameBlock.refl (s : State) : SameBlock s s := ⟨rfl, rfl, rfl, rfl, rfl, rfl⟩

/-- An issue of a command is rejected or accepted (R22, R211). -/
theorem State.issue_stepOf {c : Nat} {w : Word} (hc : c < s.cfg.nchan) (h : s.issue c w = .next t) :
    StepOf s (.hostWrite (cmdAddress c) 4 w) t := by
  unfold State.issue at h
  split_ifs at h with hb
  · injection h with h
    exact h ▸ .reject c
  · have hb : (s.chan c).busy = false := by simpa using hb
    cases hd : decode w with
    | error e =>
      rw [State.acceptStep_of_error hd] at h
      injection h with h
      exact h ▸ .accept c w _ hc hb (ExecEnds.raise _ _)
    | ok i =>
      rw [State.acceptStep_of_ok hd] at h
      obtain ⟨t', ht', hends⟩ := exec_ends i ((s.setResp .ack).accept c w)
      rw [ht'] at h
      injection h with h
      exact .accept c w t hc hb (h ▸ hends)

/-- A host write that issues no command (R62, R63). -/
theorem State.hostWrite_stepOf (addr : BitVec 16) (width : Nat) (v : Word) :
    StepOf s (.hostWrite addr width v) (s.hostWrite addr width v) := by
  unfold State.hostWrite
  split_ifs with hok
  · obtain ⟨rfl, ha⟩ : width = 4 ∧ addr.toNat % 4 = 0 := by simpa [busAccessOk] using hok
    cases ht : targetAt s.cfg addr with
    | id | params | reserved | portStatus _ | rxbuf _ _ => exact .nothing ⟨rfl, rfl, rfl, rfl, rfl, rfl⟩
    | handleReg h r => exact .handleWrite addr v h r ha ht
    | chanReg c r => exact .operandWrite c r v
    | txbuf c k =>
      obtain ⟨hc, hk, hk4⟩ := targetAt_txbuf_inv ht ha
      simp only [State.writeTarget]
      split_ifs
      · exact .nothing ⟨rfl, rfl, rfl, rfl, rfl, rfl⟩
      · exact .txWrite c k v hc hk hk4
  · exact .nothing ⟨rfl, rfl, rfl, rfl, rfl, rfl⟩

theorem State.hostRead_sameBlock (s : State) (addr : BitVec 16) (width : Nat) : SameBlock s (s.hostRead addr width) := by
  unfold State.hostRead
  split_ifs <;> exact ⟨rfl, rfl, rfl, rfl, rfl, rfl⟩

theorem State.grant_stepOf {p c : Nat} {openOk applyOk : Bool} (h : s.grant p c openOk applyOk = .next t) :
    StepOf s (.grant p c openOk applyOk) t := by
  unfold State.grant at h
  split_ifs at h with hp hc hdue
  injection h with h
  obtain ⟨hfree, hw⟩ := not_or.1 hdue
  exact h ▸ .grant p c openOk applyOk (by omega) (by omega) (by simpa using hfree) (by simpa using hw)

theorem State.deadline_stepOf {c : Nat} {writeOk : Bool} (h : s.deadline c writeOk = .next t) :
    StepOf s (.deadline c writeOk) t := by
  unfold State.deadline at h
  split_ifs at h with hc hdue
  injection h with h
  have hd : DeadlineDue s (s.chan c) := (Chan.due_iff s _).1 (by simpa using hdue)
  exact h ▸ .deadline c writeOk (s.deadlineStep c writeOk).sched hd

theorem State.rx_stepOf {p : Nat} {b : Byte} {writeOk : Bool} (h : s.rx p b writeOk = .next t) :
    StepOf s (.rx p b writeOk) t := by
  unfold State.rx at h
  split_ifs at h
  rcases State.rxStep_cases s p b writeOk with ⟨c, -, hd, hx⟩ | ⟨c, ho, -, hr, -, hx⟩ | ⟨-, hx⟩ <;>
    simp only [hx] at h <;> injection h with h <;> subst h
  · exact .deadline c writeOk _ hd
  · exact .octet c b ⟨p, writeOk, rfl, ho, hr⟩
  · exact .nothing (SameBlock.refl s)

theorem State.advance_stepOf {x : Nat} (h : s.advance x = .next t) : StepOf s (.advance x) t := by
  unfold State.advance at h
  split_ifs at h with ha
  injection h with h
  exact h ▸ .advance x ha

theorem State.run_stepOf {e : Event} (h : s.run e = .next t) : StepOf s e t := by
  unfold State.run at h
  split at h
  · rename_i c w hi
    rw [issued?_inv hi]
    exact State.issue_stepOf (issued?_lt hi) h
  · cases e with
    | hostWrite addr width v =>
      injection h with h
      exact h ▸ State.hostWrite_stepOf addr width v
    | hostRead addr width =>
      injection h with h
      exact h ▸ .nothing (State.hostRead_sameBlock s addr width)
    | grant p c openOk applyOk => exact State.grant_stepOf h
    | deadline c writeOk => exact State.deadline_stepOf h
    | rx p b writeOk => exact State.rx_stepOf h
    | advance x => exact State.advance_stepOf h
    | reset =>
      injection h with h
      exact h ▸ .reset

/-- A step that answers a next state is a step of the schedule's first entry. -/
theorem step_stepOf {e : Event} {rest : List Event} (hs : s.sched = e :: rest) (h : step s = .next t) :
    StepOf (s.setSched rest) e t :=
  State.run_stepOf ((step_of_sched hs).symm.trans h)

end Inversion

/-! ### What a step makes of a channel -/

/-- What the event `e` makes of channel `c`, with its cause. -/
inductive ChanStep (s : State) (e : Event) (c : Nat) : Chan → Prop
  | same : ChanStep s e c (s.chan c)
  | operands (tl a0 : Half) (dl : BitVec 5) (dm : Quad) :
      ChanStep s e c { s.chan c with txlen := tl, arg0 := a0, dlen := dl, delim := dm }
  | reject : ChanStep s e c { s.chan c with rej := true }
  | refused (w : Word) (err : CmdError) (he : e = .hostWrite (cmdAddress c) 4 w) (hb : (s.chan c).busy = false) :
      ChanStep s e c (Chan.raise err (Chan.accept w (s.chan c)))
  | completed (w : Word) (out : Bytes) (result : Bool) (res : Byte) (he : e = .hostWrite (cmdAddress c) 4 w)
      (hb : (s.chan c).busy = false) (hl : out.length ≤ s.cfg.bufBytes) :
      ChanStep s e c (Chan.complete out.length { Chan.accept w (s.chan c) with result := result, res := res })
  | waits (w : Word) (o : Op) (he : e = .hostWrite (cmdAddress c) 4 w) (hb : (s.chan c).busy = false)
      (hl : o.out.length ≤ s.cfg.bufBytes) :
      ChanStep s e c { Chan.accept w (s.chan c) with op := o, phase := .waitLock }
  | exchange (ch : Chan) (out : Bytes) (hx : ExchangeStep s e c ch out) : ChanStep s e c ch
  | reset (he : e = .reset) : ChanStep s e c Chan.reset

section ChanStep

variable {s t : State} {e : Event}

/-- An update of a channel as every channel sees it. -/
theorem State.chan_modChan_cases (s : State) (c : Nat) (f : Chan → Chan) (c' : Nat) :
    c' = c ∧ c < s.chans.length ∧ (s.modChan c f).chan c' = f (s.chan c) ∨ (s.modChan c f).chan c' = s.chan c' := by
  by_cases hne : c' = c
  · subst hne
    by_cases hc : c' < s.chans.length
    · exact .inl ⟨rfl, hc, State.chan_modChan_self f hc⟩
    · refine .inr ?_
      rw [State.chan, State.chan, List.getD_eq_default _ _ (by simpa using hc), List.getD_eq_default _ _ (by omega)]
  · exact .inr (State.chan_modChan_ne s f hne)

/-- The end of a command's meaning on its own channel and on the ports. -/
theorem ExecEnds.sel_cases (h : ExecEnds s t) (hc : s.sel < s.chans.length) :
    (∃ err, t.chan s.sel = Chan.raise err (s.chan s.sel) ∧ t.ports = s.ports)
      ∨ (∃ (out : Bytes) (result : Bool) (res : Byte), out.length ≤ s.cfg.bufBytes
        ∧ t.chan s.sel = Chan.complete out.length { s.chan s.sel with result := result, res := res }
        ∧ t.ports = s.ports)
      ∨ ∃ o : Op, o.out.length ≤ s.cfg.bufBytes ∧ o.port < s.cfg.nport
        ∧ t.chan s.sel = { s.chan s.sel with op := o, phase := .waitLock }
        ∧ t.ports = s.ports.modify o.port fun pt => { pt with waiters := waitersAdd pt.waiters s.sel } := by
  cases h with
  | error k f err hf =>
    refine .inl ⟨err, ?_, rfl⟩
    rw [State.raise, State.modChan_modChan]
    refine (State.chan_modChan_self (s := s.addFree k) _ hc).trans ?_
    rw [Function.comp_apply, hf]
    rfl
  | ok k f out hf hl =>
    refine .inr (.inl ⟨out, (f (s.chan s.sel)).result, (f (s.chan s.sel)).res, hl, ?_, rfl⟩)
    rw [State.complete, State.setMem_chan, State.modChan_modChan, ← hf]
    exact State.chan_modChan_self (s := s.addFree k) _ hc
  | wait k o hp hl => exact .inr (.inr ⟨o, hl, hp, State.chan_modChan_self (s := s.addFree k) _ hc, rfl⟩)

/-- The end of a command's meaning on any other channel, present or not. -/
theorem ExecEnds.chan_other (h : ExecEnds s t) {c : Nat} (hc : ¬(c = s.sel ∧ c < s.chans.length)) :
    t.chan c = s.chan c := by
  obtain ⟨⟨-, -, -, -, -, -, hlen, hother⟩, -⟩ := h.frame
  by_cases hne : c = s.sel
  · have hlt : s.chans.length ≤ c := Nat.not_lt.1 fun hlt => hc ⟨hne, hlt⟩
    rw [State.chan, State.chan, List.getD_eq_default _ _ (hlen ▸ hlt), List.getD_eq_default _ _ hlt]
  · exact hother c hne

/-- The end of an accepted word as every channel sees it. -/
theorem ExecEnds.chanStep {c : Nat} {w : Word} (hb : (s.chan c).busy = false)
    (h : ExecEnds ((s.setResp .ack).accept c w) t) (c' : Nat) :
    ChanStep s (.hostWrite (cmdAddress c) 4 w) c' (t.chan c') := by
  have hlen : ((s.setResp .ack).accept c w).chans.length = s.chans.length := List.length_modify ..
  by_cases hc : c' = c ∧ c' < s.chans.length
  · obtain ⟨rfl, hc⟩ := hc
    have hacc : ((s.setResp .ack).accept c' w).chan c' = Chan.accept w (s.chan c') :=
      State.chan_modChan_self (s := s.setResp .ack) (Chan.accept w) hc
    have hsel := h.sel_cases (hlen ▸ hc)
    rw [show ((s.setResp .ack).accept c' w).sel = c' from rfl, hacc] at hsel
    obtain ⟨err, hx, -⟩ | ⟨out, result, res, hl, hx, -⟩ | ⟨o, hl, -, hx, -⟩ := hsel <;> rw [hx]
    · exact .refused w err rfl hb
    · exact .completed w out result res rfl hb hl
    · exact .waits w o rfl hb hl
  · rw [h.chan_other (c := c') (by rw [hlen]; exact hc)]
    obtain ⟨rfl, hlt, -⟩ | hsame := State.chan_modChan_cases (s.setResp .ack) c (Chan.accept w) c'
    · exact absurd ⟨rfl, hlt⟩ hc
    · have : ((s.setResp .ack).accept c w).chan c' = s.chan c' := hsame
      rw [this]
      exact .same

/-- A step of one channel's exchange as every channel sees it. -/
theorem Exchanges.chanStep {c : Nat} (h : Exchanges s t e c) (c' : Nat) : ChanStep s e c' (t.chan c') := by
  obtain ⟨-, ch, out, hx, hd⟩ := h
  by_cases hne : c' = c
  · subst hne
    rw [hd.chan]
    exact .exchange ch out hx
  · obtain ⟨-, -, -, -, -, -, -, hother⟩ := hd.others
    rw [hother c' hne]
    exact .same

/-- An update of a channel that is a step of it, as every channel sees it. -/
theorem ChanStep.of_modChan {c : Nat} {f : Chan → Chan} (hf : ChanStep s e c (f (s.chan c))) (c' : Nat) :
    ChanStep s e c' ((s.modChan c f).chan c') := by
  obtain ⟨rfl, -, hx⟩ | hx := State.chan_modChan_cases s c f c' <;> rw [hx]
  · exact hf
  · exact .same

theorem State.resetOf_chan (p : Config.Params) (c : Nat) : (State.resetOf p).chan c = Chan.reset := by
  simp only [State.chan, State.resetOf, List.getD_eq_getElem?_getD, List.getElem?_replicate]
  split <;> rfl

theorem State.resetInput_chan (s : State) (c : Nat) : s.resetInput.chan c = Chan.reset :=
  State.resetOf_chan s.cfg c

/-- What one step makes of every channel. -/
theorem StepOf.chanStep (h : StepOf s e t) (c : Nat) : ChanStep s e c (t.chan c) := by
  cases h with
  | nothing h =>
    rw [State.chan, h.chans]
    exact .same
  | operandWrite c' r v =>
    obtain ⟨tl, a0, dl, dm, hx⟩ := Chan.writeReg_operands (s.chan c') r v
    exact ChanStep.of_modChan (f := fun ch => ch.writeReg r v) (by rw [hx]; exact .operands tl a0 dl dm) c
  | reject c' => exact ChanStep.of_modChan (f := Chan.reject) .reject c
  | accept c' w _ hc hb hx => exact hx.chanStep hb c
  | grant p c' openOk applyOk hp hc hfree hw => exact (State.grantStep_exchanges hc hw).chanStep c
  | deadline c' writeOk l hd => exact (State.deadlineStep_exchanges e hd).chanStep c
  | octet c' b ho => exact (State.takeOctet_exchanges ho).chanStep c
  | handleWrite | txWrite | advance => exact .same
  | reset =>
    rw [State.resetInput_chan]
    exact .reset rfl

/-- The clock moves only at its own step. -/
theorem StepOf.now_cases (h : StepOf s e t) :
    t.now = s.now ∨ ∃ x, s.mayAdvance x = true ∧ t = s.setNow x := by
  have hexch : ∀ {c : Nat} {u : State}, Exchanges s u e c → u.now = s.now := fun ⟨_, _, _, _, hd⟩ => hd.others.2.2.1
  cases h with
  | nothing h => exact .inl h.now
  | accept c w _ hc hb hx =>
    obtain ⟨⟨-, -, hnow, -⟩, -⟩ := hx.frame
    exact .inl hnow
  | grant p c openOk applyOk hp hc hfree hw => exact .inl (hexch (State.grantStep_exchanges hc hw))
  | deadline c writeOk l hd => exact .inl (hexch (u := s.deadlineStep c writeOk) (State.deadlineStep_exchanges e hd))
  | octet c b ho => exact .inl (hexch (State.takeOctet_exchanges ho))
  | advance x ha => exact .inr ⟨x, ha, rfl⟩
  | handleWrite | operandWrite | txWrite | reject | reset => exact .inl rfl

end ChanStep

/-! ### What a step makes of the handle slots -/

/-- Only the reset input and a write to a handle register change the handle slots (R47). -/
theorem StepOf.handles_cases {s t : State} {e : Event} (h : StepOf s e t) :
    t.handles = s.handles
      ∨ (e = .reset ∧ t.handles = List.replicate s.cfg.nhandle Handle.reset)
      ∨ ∃ addr v k r, e = .hostWrite addr 4 v ∧ addr.toNat % 4 = 0 ∧ targetAt s.cfg addr = .handleReg k r
        ∧ t.handles = s.handles.modify k fun hd => hd.writeReg r v := by
  have hexch : ∀ {c : Nat} {u : State}, Exchanges s u e c → u.handles = s.handles := fun ⟨_, _, _, _, hd⟩ => hd.others.2.1
  cases h with
  | nothing h => exact .inl h.handles
  | handleWrite addr v k r ha ht => exact .inr (.inr ⟨addr, v, k, r, rfl, ha, ht, rfl⟩)
  | accept c w _ hc hb hx =>
    obtain ⟨⟨-, hh, -⟩, -⟩ := hx.frame
    exact .inl hh
  | grant p c openOk applyOk hp hc hfree hw => exact .inl (hexch (State.grantStep_exchanges hc hw))
  | deadline c writeOk l hd => exact .inl (hexch (u := s.deadlineStep c writeOk) (State.deadlineStep_exchanges e hd))
  | octet c b ho => exact .inl (hexch (State.takeOctet_exchanges ho))
  | operandWrite | txWrite | reject | advance => exact .inl rfl
  | reset => exact .inr (.inl ⟨rfl, rfl⟩)

end Sys2Proof.Machine
end

section
/-! PROOF. The invariants that speak of each channel by itself, of the handle slots, and of the memory: every step keeps them
(42_transceiver.md R134; 60_exceptions.md R210, R214, R218; 10_state.md R36, R40; 20_memory.md R60). -/

namespace Sys2Proof.Machine

open Sys2Proof.Safety

/-! ### A property of every channel -/

/-- A property that a channel after reset has holds of every listed channel exactly where it holds of every index. -/
theorem forall_chans_iff {P : Chan → Prop} (h0 : P Chan.reset) (s : State) :
    (∀ ch ∈ s.chans, P ch) ↔ ∀ c, P (s.chan c) := by
  constructor
  · intro h c
    by_cases hc : c < s.chans.length
    · have : s.chan c = s.chans[c] := by simp [State.chan, hc]
      exact this ▸ h _ (List.getElem_mem hc)
    · rw [State.chan, List.getD_eq_default _ _ (by omega)]
      exact h0
  · intro h ch hch
    obtain ⟨c, hc, rfl⟩ := List.mem_iff_getElem.1 hch
    have : s.chan c = s.chans[c] := by simp [State.chan, hc]
    exact this ▸ h c

/-- A step keeps a property of every channel where each step of a channel keeps it. -/
theorem step_keeps_chans {P Q : Chan → Prop} (hP : P Chan.reset) (hQ : Q Chan.reset) {s t : State} {e : Event}
    {rest : List Event} (hs : s.sched = e :: rest) (hstep : step s = .next t) (h : ∀ ch ∈ s.chans, P ch)
    (hkeep : ∀ c ch, ChanStep (s.setSched rest) e c ch → P (s.chan c) → Q ch) : ∀ ch ∈ t.chans, Q ch := by
  rw [forall_chans_iff hP] at h
  rw [forall_chans_iff hQ]
  exact fun c => hkeep c _ ((step_stepOf hs hstep).chanStep c) (h c)

/-- A step of an empty schedule is no step (log 2). -/
theorem step_of_nil {s t : State} (hs : s.sched = []) (h : step s = .next t) : t = s := by
  rw [step, hs] at h
  injection h with h
  exact h.symm

/-! ### Deadlines (R134) -/

/-- The pending deadlines of a channel are now or later. -/
def Chan.DeadlinesFrom (now : Nat) (ch : Chan) : Prop := ∀ d ∈ ch.deadlines, now ≤ d

theorem Chan.deadlinesFrom_readEntered (s : State) (ch : Chan) : (readEntered s ch).DeadlinesFrom s.now := by
  intro d hd
  simp only [Chan.deadlines, readEntered, Chan.quietDeadline, Chan.timeoutDeadline, ne_eq, not_true, and_false, if_false,
    Option.toList_none, List.nil_append, Option.mem_toList, Option.map_eq_some_iff] at hd
  obtain ⟨x, -, rfl⟩ := hd
  exact Nat.le_add_right _ _

theorem Chan.deadlinesFrom_octetTaken {s : State} {ch : Chan} (b : Byte) (hr : ch.phase = .read)
    (h : ch.DeadlinesFrom s.now) : (octetTaken s ch b).DeadlinesFrom s.now := by
  intro d hd
  simp only [Chan.deadlines, octetTaken, hr, List.mem_append, Option.mem_toList] at hd
  rcases hd with hd | hd
  · unfold Chan.quietDeadline at hd
    split_ifs at hd
    obtain rfl : s.now + ch.line.quiet = d := by simpa using hd
    exact Nat.le_add_right _ _
  · refine h d ?_
    simp only [Chan.deadlines, hr, List.mem_append, Option.mem_toList]
    exact .inr hd

/-- Every step of a channel at one instant leaves its deadlines at that instant or later. -/
theorem ChanStep.deadlinesFrom {s : State} {e : Event} {c : Nat} {ch : Chan} (h : ChanStep s e c ch)
    (hd : (s.chan c).DeadlinesFrom s.now) : ch.DeadlinesFrom s.now := by
  have hnone : ∀ {x : Chan}, x.deadlines = [] → x.DeadlinesFrom s.now := fun hx d hd => by
    rw [hx] at hd
    cases hd
  have hone : ∀ {x : Chan} {k : Nat}, x.deadlines = [s.now + k] → x.DeadlinesFrom s.now := fun hx d hd => by
    rw [hx] at hd
    exact List.mem_singleton.1 hd ▸ Nat.le_add_right _ _
  cases h with
  | same | operands | reject => exact hd
  | refused | completed | waits | reset => exact hnone rfl
  | exchange _ out hx =>
    cases hx with
    | ends base r hc => exact hnone (Chan.ended_deadlines _ _)
    | writes | settles => exact hone rfl
    | readsFirst | reads => exact Chan.deadlinesFrom_readEntered s _
    | keeps b ho hroom =>
      obtain ⟨-, -, -, -, hr⟩ := ho
      exact Chan.deadlinesFrom_octetTaken b hr hd

/-- Settles O53: at one instant by the channels' steps; the clock's own step is refused past a pending deadline. -/
theorem stepKeepsDeadlinesAhead : Obligations.StepKeepsDeadlinesAhead := by
  intro s t h hstep
  cases hs : s.sched with
  | nil =>
    obtain rfl := step_of_nil hs hstep
    exact ⟨h, le_rfl⟩
  | cons e rest =>
    obtain hnow | ⟨x, ha, rfl⟩ := (step_stepOf hs hstep).now_cases
    · rw [State.setSched_now] at hnow
      refine ⟨?_, hnow.ge⟩
      rw [DeadlinesAhead, hnow]
      exact step_keeps_chans (P := Chan.DeadlinesFrom s.now) (Q := Chan.DeadlinesFrom s.now) nofun nofun hs hstep h
        fun c ch hc hd => hc.deadlinesFrom hd
    · obtain ⟨hlt, -, -, hpass⟩ := (State.mayAdvance_iff _ _).1 ha
      exact ⟨hpass, hlt.le⟩

/-! ### Error records (R210, R218) -/

/-- The channel's error record is one of the table, and an error left no output. -/
def Chan.RecordOk (ch : Chan) : Prop :=
  (ch.err, ch.sub) ∈ errPairs ∧ (ch.err ≠ 0#4 → ch.rxlen = 0#16 ∧ ch.res = 0#8 ∧ ch.result = false)

theorem CmdError.mem_errPairs (e : CmdError) : (e.errCode, e.sub) ∈ errPairs := by
  cases e <;> decide

theorem Chan.recordOk_of_none {ch : Chan} (he : ch.err = 0#4) (hs : ch.sub = 0#8) : ch.RecordOk :=
  ⟨by rw [he, hs]; decide, fun hn => absurd he hn⟩

theorem Chan.recordOk_of_error {ch : Chan} (e : CmdError) (he : ch.err = e.errCode) (hs : ch.sub = e.sub)
    (hl : ch.rxlen = 0#16) (hv : ch.res = 0#8) (hr : ch.result = false) : ch.RecordOk :=
  ⟨by rw [he, hs]; exact e.mem_errPairs, fun _ => ⟨hl, hv, hr⟩⟩

theorem Chan.recordOk_ended (ch : Chan) (v : Except CmdError Rec) : (ch.ended v).RecordOk := by
  obtain ⟨e, -, he, hs, hl, hv, hr⟩ | ⟨-, he, hs⟩ := ch.ended_record v
  · exact Chan.recordOk_of_error e he hs hl hv hr
  · exact Chan.recordOk_of_none he hs

/-- Every step of a channel keeps its error record one of the table. -/
theorem ChanStep.recordOk {s : State} {e : Event} {c : Nat} {ch : Chan} (h : ChanStep s e c ch)
    (hr : (s.chan c).RecordOk) : ch.RecordOk := by
  cases h with
  | same | operands | reject => exact hr
  | refused w err => exact Chan.recordOk_of_error err rfl rfl rfl rfl rfl
  | completed | waits | reset => exact Chan.recordOk_of_none rfl rfl
  | exchange _ out hx =>
    cases hx with
    | ends base r hc => exact Chan.recordOk_ended _ _
    | writes | settles | readsFirst | reads | keeps => exact hr

/-- Settles O54: channel by channel. -/
theorem stepKeepsErrorRecords : Obligations.StepKeepsErrorRecords := by
  intro s t h hstep
  cases hs : s.sched with
  | nil => exact step_of_nil hs hstep ▸ h
  | cons e rest =>
    have hreset : Chan.reset.RecordOk := Chan.recordOk_of_none rfl rfl
    exact step_keeps_chans (P := Chan.RecordOk) (Q := Chan.RecordOk) hreset hreset hs hstep h
      fun c ch hc hr => hc.recordOk hr

/-! ### Lengths (R83, R139, R214) -/

/-- The channel's output, its outgoing and its accumulated octets fit a buffer of `n` bytes. -/
def Chan.Fits (n : Nat) (ch : Chan) : Prop := ch.rxlen.toNat ≤ n ∧ ch.op.out.length ≤ n ∧ ch.acc.length ≤ n

theorem octetTaken_fits {s : State} {ch : Chan} {n : Nat} (b : Byte) (h : ch.Fits n) (hroom : ch.acc.length ≠ n) :
    (octetTaken s ch b).Fits n := by
  obtain ⟨hrx, hout, hacc⟩ := h
  refine ⟨hrx, hout, ?_⟩
  simp only [octetTaken, List.length_append, List.length_singleton]
  omega

theorem readEntered_fits {s : State} {ch : Chan} {n : Nat} (h : ch.Fits n) : (readEntered s ch).Fits n := by
  obtain ⟨hrx, hout, -⟩ := h
  exact ⟨hrx, hout, Nat.zero_le n⟩

/-- What an exchange ends with fits the buffer, and so does the channel it ends on. -/
theorem EndCause.fits {s : State} {e : Event} {c : Nat} {ch : Chan} {r : Except CmdError Bytes}
    (h : EndCause s e c ch r) (hf : (s.chan c).Fits s.cfg.bufBytes) :
    ch.Fits s.cfg.bufBytes ∧ ∀ out, r = .ok out → out.length ≤ s.cfg.bufBytes := by
  have hnil : ∀ out : Bytes, (Except.ok [] : Except CmdError Bytes) = .ok out → out.length ≤ s.cfg.bufBytes := by
    rintro _ ⟨⟩
    exact Nat.zero_le _
  cases h with
  | grantFailed l err hg => exact ⟨hf, nofun⟩
  | grantReadsNothing l hg => exact ⟨readEntered_fits (ch := { s.chan c with line := l, watch := true }) hf, hnil⟩
  | writeReadsNothing => exact ⟨readEntered_fits hf, hnil⟩
  | settled => exact ⟨hf, hnil⟩
  | writeFailed | short | timeout | overflow => exact ⟨hf, nofun⟩
  | quiet =>
    obtain ⟨-, -, hacc⟩ := id hf
    refine ⟨hf, ?_⟩
    rintro _ ⟨⟩
    exact hacc
  | frame b out ho hroom hend =>
    obtain ⟨-, -, hacc⟩ := id (octetTaken_fits (s := s) b hf hroom)
    refine ⟨octetTaken_fits b hf hroom, ?_⟩
    rintro _ ⟨⟩
    exact (Chan.octetEnd_length hend).trans hacc

/-- A step of an exchange leaves its channel within the buffer and writes an output that fits it. -/
theorem ExchangeStep.fits {s : State} {e : Event} {c : Nat} {ch : Chan} {out : Bytes} (h : ExchangeStep s e c ch out)
    (hf : (s.chan c).Fits s.cfg.bufBytes) : ch.Fits s.cfg.bufBytes ∧ out.length ≤ s.cfg.bufBytes := by
  cases h with
  | ends base r hc =>
    obtain ⟨⟨-, hout, hacc⟩, hr⟩ := hc.fits hf
    have hlen := Chan.outputOf_verdict_length (ch := base) hr
    exact ⟨⟨(Chan.ended_rxlen_le _ _).trans hlen, by rwa [Chan.ended_op], by rwa [Chan.ended_acc]⟩, hlen⟩
  | writes | settles => exact ⟨hf, Nat.zero_le _⟩
  | readsFirst l => exact ⟨readEntered_fits (ch := { s.chan c with line := l, watch := true }) hf, Nat.zero_le _⟩
  | reads => exact ⟨readEntered_fits hf, Nat.zero_le _⟩
  | keeps b ho hroom => exact ⟨octetTaken_fits b hf hroom, Nat.zero_le _⟩

/-- Every step of a channel keeps it within the buffer. -/
theorem ChanStep.fits {s : State} {e : Event} {c : Nat} {ch : Chan} (h : ChanStep s e c ch)
    (hf : (s.chan c).Fits s.cfg.bufBytes) : ch.Fits s.cfg.bufBytes := by
  obtain ⟨-, hout, hacc⟩ := id hf
  cases h with
  | same | operands | reject => exact hf
  | refused => exact ⟨Nat.zero_le _, hout, hacc⟩
  | completed w out result res he hb hl =>
    exact ⟨((BitVec.toNat_ofNat ..).trans_le (Nat.mod_le _ _)).trans hl, hout, hacc⟩
  | waits w o he hb hl => exact ⟨Nat.zero_le _, hl, hacc⟩
  | exchange _ out hx => exact (hx.fits hf).1
  | reset => exact ⟨Nat.zero_le _, Nat.zero_le _, Nat.zero_le _⟩

/-- Settles O55: channel by channel. -/
theorem stepKeepsLengthsInBuffer : Obligations.StepKeepsLengthsInBuffer := by
  intro s t h hstep
  rw [FitsBuffers, step_cfg hstep]
  cases hs : s.sched with
  | nil => exact step_of_nil hs hstep ▸ h
  | cons e rest =>
    have hreset : Chan.reset.Fits s.cfg.bufBytes := ⟨Nat.zero_le _, Nat.zero_le _, Nat.zero_le _⟩
    exact step_keeps_chans (P := Chan.Fits s.cfg.bufBytes) (Q := Chan.Fits s.cfg.bufBytes) hreset hreset hs hstep h
      fun c ch hc hf => hc.fits hf

/-! ### Handle slots (R36, R40, R47) -/

/-- The reserved bits of FRAME and of PROTO are 0. -/
def Handle.ReservedOk (hd : Handle) : Prop :=
  hd.frame &&& ~~~0x0000F37F#32 = 0#32 ∧ hd.proto &&& ~~~0x000007FF#32 = 0#32

theorem Handle.reservedOk_reset : Handle.reset.ReservedOk := ⟨by decide, by decide⟩

theorem and_and_not_self (v m : Word) : v &&& m &&& ~~~m = 0#32 := by
  rw [BitVec.and_assoc, BitVec.and_not_self]
  exact BitVec.and_zero

/-- A write to a handle register stores no reserved bit. -/
theorem Handle.reservedOk_writeReg {hd : Handle} (r : HandleReg) (v : Word) (h : hd.ReservedOk) :
    (hd.writeReg r v).ReservedOk := by
  obtain ⟨hframe, hproto⟩ := id h
  cases r with
  | frame => exact ⟨and_and_not_self v _, hproto⟩
  | proto => exact ⟨hframe, and_and_not_self v _⟩
  | _ => exact h

/-- Settles O51: the handle slots change by the reset input and by register writes only. -/
theorem stepKeepsReservedBitsZero : Obligations.StepKeepsReservedBitsZero := by
  intro s t h hstep
  cases hs : s.sched with
  | nil => exact step_of_nil hs hstep ▸ h
  | cons e rest =>
    rw [ReservedZero]
    obtain hsame | ⟨-, hreset⟩ | ⟨addr, v, k, r, -, -, -, hwrite⟩ := (step_stepOf hs hstep).handles_cases
    · rw [hsame]
      exact h
    · rw [hreset]
      intro hd hmem
      rw [List.eq_of_mem_replicate hmem]
      exact Handle.reservedOk_reset
    · rw [hwrite]
      intro hd hmem
      obtain ⟨i, hi, rfl⟩ := List.mem_iff_getElem.1 hmem
      have hi' : i < s.handles.length := by simpa using hi
      have hold : (s.handles[i]).ReservedOk := h _ (List.getElem_mem hi')
      simp only [State.setSched_handles, List.getElem_modify]
      split_ifs
      · exact Handle.reservedOk_writeReg r v hold
      · exact hold

/-- Settles O60: a changed handle slot was reset or written, and its registers stand in the handle windows. -/
theorem handlesChangeOnlyByHost : Obligations.HandlesChangeOnlyByHost := by
  intro s t hstep hne
  cases hs : s.sched with
  | nil => exact absurd (congrArg State.handles (step_of_nil hs hstep)) hne
  | cons e rest =>
    obtain hsame | ⟨rfl, -⟩ | ⟨addr, v, k, r, rfl, hal, ht, -⟩ := (step_stepOf hs hstep).handles_cases
    · exact absurd hsame hne
    · exact .inl ⟨rest, rfl⟩
    · obtain ⟨hlo, hhi⟩ := targetAt_handleReg_inv ht
      exact .inr ⟨addr, v, rest, rfl, hlo, hhi, hal⟩

/-! ### Memory (20_memory.md R60, R62) -/

/-- The address is a byte's of TXBUF or RXBUF of a present channel. -/
def WindowByte (p : Config.Params) (a : Nat) : Prop :=
  ∃ c k, c < p.nchan ∧ k < p.bufBytes ∧ (a = txAddr c k ∨ a = rxAddr c k)

theorem windowByte_tx {p : Config.Params} {c k a : Nat} (hc : c < p.nchan) (hlo : txAddr c k ≤ a)
    (hhi : a < txAddr c k + 4) (hk : k + 4 ≤ p.bufBytes) : WindowByte p a := by
  unfold txAddr at hlo hhi
  exact ⟨c, a - chanBase c - 0x400, hc, by omega, .inl (by unfold txAddr; omega)⟩

theorem windowByte_rx {p : Config.Params} {c n a : Nat} (hc : c < p.nchan) (hlo : rxAddr c 0 ≤ a)
    (hhi : a < rxAddr c 0 + n) (hn : n ≤ p.bufBytes) : WindowByte p a := by
  unfold rxAddr at hlo hhi
  exact ⟨c, a - chanBase c - 0x800, hc, by omega, .inr (by unfold rxAddr; omega)⟩

/-- The end of a command's meaning writes an output that fits to its channel's RXBUF, or nothing. -/
theorem ExecEnds.mem_eq {s t : State} (h : ExecEnds s t) :
    ∃ out : Bytes, out.length ≤ s.cfg.bufBytes ∧ t.mem = s.mem.writeBytes (rxAddr s.sel 0) out := by
  cases h with
  | error k f e hf => exact ⟨[], Nat.zero_le _, rfl⟩
  | ok k f out hf hl => exact ⟨out, hl, rfl⟩
  | wait k o hp hl => exact ⟨[], Nat.zero_le _, rfl⟩

/-- Every step writes bytes of the buffer windows only, or clears the memory. -/
theorem StepOf.mem_cases {s t : State} {e : Event} (h : StepOf s e t) (hwf : s.cfg.wf = true) (hshape : Shape s)
    (hfits : FitsBuffers s) :
    t.mem = [] ∨ ∃ (a : Nat) (bs : Bytes), t.mem = s.mem.writeBytes a bs
      ∧ ∀ x, a ≤ x → x < a + bs.length → WindowByte s.cfg x := by
  have hsame : t.mem = s.mem → ∃ (a : Nat) (bs : Bytes), t.mem = s.mem.writeBytes a bs
      ∧ ∀ x, a ≤ x → x < a + bs.length → WindowByte s.cfg x := fun h =>
    ⟨0, [], h, fun x _ hx => by simp only [List.length_nil] at hx; omega⟩
  have hexch : ∀ {c : Nat} {u : State}, Exchanges s u e c → ∃ (a : Nat) (bs : Bytes), u.mem = s.mem.writeBytes a bs
      ∧ ∀ x, a ≤ x → x < a + bs.length → WindowByte s.cfg x := fun {c u} ⟨hc, ch, out, hx, hd⟩ => by
    have hfit : (s.chan c).Fits s.cfg.bufBytes :=
      (forall_chans_iff (P := Chan.Fits s.cfg.bufBytes) ⟨Nat.zero_le _, Nat.zero_le _, Nat.zero_le _⟩ s).1 hfits c
    exact ⟨_, _, hd.mem, fun x hlo hhi => windowByte_rx (hshape.1 ▸ hc) hlo hhi (hx.fits hfit).2⟩
  cases h with
  | nothing h => exact .inr (hsame h.mem)
  | txWrite c k v hc hk ha =>
    have hbuf : s.cfg.bufBytes % 4 = 0 := by
      simp only [Config.Params.wf, Bool.and_eq_true, decide_eq_true_eq] at hwf
      omega
    exact .inr ⟨_, _, rfl, fun x hlo hhi => windowByte_tx hc hlo hhi (by omega)⟩
  | accept c w _ hc hb hx =>
    obtain ⟨out, hl, hm⟩ := hx.mem_eq
    exact .inr ⟨_, _, hm, fun x hlo hhi => windowByte_rx hc hlo hhi hl⟩
  | grant p c openOk applyOk hp hc hfree hw => exact .inr (hexch (State.grantStep_exchanges hc hw))
  | deadline c writeOk l hd =>
    exact .inr (hexch (u := s.deadlineStep c writeOk) (State.deadlineStep_exchanges e hd))
  | octet c b ho => exact .inr (hexch (State.takeOctet_exchanges ho))
  | handleWrite | operandWrite | reject | advance => exact .inr (hsame rfl)
  | reset => exact .inl rfl

/-- Settles O50: written bytes lie in the windows and are put in order. -/
theorem stepKeepsMemoryCanonical : Obligations.StepKeepsMemoryCanonical := by
  intro s t hwf hshape hfits hcan hstep
  refine ⟨?_, step_cfg hstep⟩
  cases hs : s.sched with
  | nil => exact step_of_nil hs hstep ▸ hcan
  | cons e rest =>
    obtain ⟨hord, hwin⟩ := hcan
    rw [Canonical, step_cfg hstep]
    obtain hnil | ⟨a, bs, hm, hx⟩ := (step_stepOf hs hstep).mem_cases hwf hshape hfits
    · rw [hnil]
      exact ⟨List.Pairwise.nil, nofun⟩
    · rw [hm]
      refine ⟨Memory.wf_writeBytes a bs hord, fun cell hcell => ?_⟩
      obtain ⟨hlo, hhi⟩ | hold := Memory.mem_writeBytes hcell
      · exact hx _ hlo hhi
      · exact hwin cell hold

end Sys2Proof.Machine
end

section
/-! PROOF. The exclusive section of every port (10_state.md R45; 42_transceiver.md R147, R162): what it says of one port and of
one channel, the steps that keep it by leaving every role alone, and those that change the role of one channel. -/

namespace Sys2Proof.Machine

open Sys2Proof.Safety

/-! ### The invariant at one port and at one channel -/

/-- The part of the exclusive section that speaks of port `p`. -/
def PortSerial (s : State) (p : Nat) : Prop :=
  ((s.port p).owner = none → (s.port p).opened = false ∧ (s.port p).dir = .idle)
    ∧ (∀ c, (s.port p).owner = some c →
        c < s.chans.length ∧ (s.chan c).op.port = p ∧ OwnedOk (s.port p) (s.chan c))
    ∧ (s.port p).waiters.Pairwise (· < ·)
    ∧ ∀ c, c ∈ (s.port p).waiters → c < s.chans.length ∧ (s.chan c).phase = .waitLock ∧ (s.chan c).op.port = p

/-- The part of the exclusive section that speaks of channel `c`. -/
def ChanSerial (s : State) (c : Nat) : Prop :=
  (holding (s.chan c).phase = true →
      (s.chan c).op.port < s.ports.length ∧ (s.port (s.chan c).op.port).owner = some c)
    ∧ ((s.chan c).phase = .waitLock →
      (s.chan c).op.port < s.ports.length ∧ c ∈ (s.port (s.chan c).op.port).waiters)

theorem serialised_iff (s : State) :
    Serialised s ↔ (∀ p, p < s.ports.length → PortSerial s p) ∧ ∀ c, c < s.chans.length → ChanSerial s c := Iff.rfl

theorem Serialised.portSerial {s : State} {p : Nat} (h : Serialised s) (hp : p < s.ports.length) : PortSerial s p :=
  h.1 p hp

theorem Serialised.chanSerial {s : State} {c : Nat} (h : Serialised s) (hc : c < s.chans.length) : ChanSerial s c :=
  h.2 c hc

/-- The two channels play the same role for the ports. -/
def SameRole (a b : Chan) : Prop := b.phase = a.phase ∧ b.op = a.op ∧ b.watch = a.watch

/-- What an owner shows depends on its role alone. -/
theorem OwnedOk.of_sameRole {pt : Port} {a b : Chan} (h : OwnedOk pt a) (hr : SameRole a b) : OwnedOk pt b := by
  obtain ⟨hphase, hop, hwatch⟩ := hr
  unfold OwnedOk
  rw [hphase, hop, hwatch]
  exact h

/-- An owner is in a phase that holds its port. -/
theorem OwnedOk.holding {pt : Port} {ch : Chan} (h : OwnedOk pt ch) : holding ch.phase = true := by
  obtain ⟨-, ⟨hw | hs, -⟩ | ⟨hr, -⟩⟩ := h
  · rw [hw]; rfl
  · rw [hs]; rfl
  · rw [hr]; rfl

/-- A port that did not change keeps its part where its owner and its waiters keep their roles. -/
theorem PortSerial.of_same {s t : State} {p : Nat} (h : PortSerial s p) (hp : t.port p = s.port p)
    (hl : t.chans.length = s.chans.length)
    (hr : ∀ c, (s.port p).owner = some c ∨ c ∈ (s.port p).waiters → SameRole (s.chan c) (t.chan c)) :
    PortSerial t p := by
  obtain ⟨hfree, hown, hord, hwait⟩ := h
  unfold PortSerial
  rw [hp, hl]
  refine ⟨hfree, fun c hc => ?_, hord, fun c hc => ?_⟩
  · obtain ⟨hlt, hop, hok⟩ := hown c hc
    have hrole := hr c (.inl hc)
    exact ⟨hlt, hrole.2.1 ▸ hop, OwnedOk.of_sameRole hok hrole⟩
  · obtain ⟨hlt, hphase, hop⟩ := hwait c hc
    have hrole := hr c (.inr hc)
    exact ⟨hlt, hrole.1.trans hphase, hrole.2.1 ▸ hop⟩

/-- A channel that keeps its role keeps its part where no port forgets it. -/
theorem ChanSerial.of_same {s t : State} {c : Nat} (h : ChanSerial s c) (hr : SameRole (s.chan c) (t.chan c))
    (hl : t.ports.length = s.ports.length)
    (hown : ∀ p, (s.port p).owner = some c → (t.port p).owner = some c)
    (hwait : ∀ p, c ∈ (s.port p).waiters → c ∈ (t.port p).waiters) : ChanSerial t c := by
  obtain ⟨hhold, hlock⟩ := h
  obtain ⟨hphase, hop, -⟩ := hr
  unfold ChanSerial
  rw [hphase, hop, hl]
  exact ⟨fun h => ⟨(hhold h).1, hown _ (hhold h).2⟩, fun h => ⟨(hlock h).1, hwait _ (hlock h).2⟩⟩

/-! ### Steps that keep every role -/

theorem State.port_of_ports {s t : State} (h : t.ports = s.ports) (p : Nat) : t.port p = s.port p := by
  rw [State.port, State.port, h]

/-- Where no port changes and every channel keeps its role, the exclusive section stays. -/
theorem Serialised.of_same {s t : State} (h : Serialised s) (hp : t.ports = s.ports)
    (hl : t.chans.length = s.chans.length) (hr : ∀ c, SameRole (s.chan c) (t.chan c)) : Serialised t := by
  rw [serialised_iff] at h ⊢
  obtain ⟨hports, hchans⟩ := h
  rw [hp, hl]
  refine ⟨fun p hlt => (hports p hlt).of_same (State.port_of_ports hp p) hl fun c _ => hr c, fun c hlt =>
    (hchans c hlt).of_same (hr c) (congrArg _ hp) (fun p hown => ?_) fun p hw => ?_⟩
  · rwa [State.port_of_ports hp]
  · rwa [State.port_of_ports hp]

/-! ### Steps that change the role of one channel -/

section OneChannel

variable {s t : State} {c : Nat}

/-- A port has a channel for its owner or among its waiters only if it is the port of the channel's exchange. -/
theorem Serialised.port_eq (h : Serialised s) {p : Nat} (hp : p < s.ports.length)
    (hc : (s.port p).owner = some c ∨ c ∈ (s.port p).waiters) : (s.chan c).op.port = p := by
  obtain ⟨-, hown, -, hwait⟩ := Serialised.portSerial h hp
  exact hc.elim (fun h => (hown c h).2.1) fun h => (hwait c h).2.2

/-- A port with an owner or with waiters exists. -/
theorem State.port_lt {p : Nat} (h : (s.port p).owner = some c ∨ c ∈ (s.port p).waiters) : p < s.ports.length := by
  by_contra hn
  rw [State.port, List.getD_eq_default _ _ (Nat.not_lt.1 hn)] at h
  rcases h with h | h <;> cases h

/-- How the exclusive section survives a step of the exchange of channel `c`, which was not IDLE, at its port `p`, which had
no other owner: the channel has left the waiters, and it holds the port or has released it and is IDLE. -/
theorem Serialised.of_exchange {p : Nat} (h : Serialised s) (ho : OthersSame s t c)
    (hlen : t.ports.length = s.ports.length) (hport : ∀ p', p' ≠ p → t.port p' = s.port p')
    (hc : c < s.chans.length) (hop : (s.chan c).op.port = p)
    (hown : ∀ c', (s.port p).owner = some c' → c' = c)
    (hw : (t.port p).waiters.Pairwise (· < ·) ∧ ∀ x, x ∈ (t.port p).waiters ↔ x ∈ (s.port p).waiters ∧ x ≠ c)
    (hend : ((t.port p).owner = some c ∧ (t.chan c).op.port = p ∧ OwnedOk (t.port p) (t.chan c))
      ∨ ((t.port p).owner = none ∧ (t.port p).opened = false ∧ (t.port p).dir = .idle ∧ (t.chan c).phase = .idle)) :
    Serialised t := by
  obtain ⟨-, -, -, -, -, -, hl, hother⟩ := ho
  obtain ⟨hord, hmem⟩ := hw
  have hsame : ∀ c', c' ≠ c → SameRole (s.chan c') (t.chan c') := fun c' hne => by
    rw [hother c' hne]
    exact ⟨rfl, rfl, rfl⟩
  have hwaiters : ∀ c' p', c' ≠ c → c' ∈ (s.port p').waiters → c' ∈ (t.port p').waiters := fun c' p' hne hin => by
    by_cases hp' : p' = p
    · subst hp'
      exact (hmem c').2 ⟨hin, hne⟩
    · rwa [hport p' hp']
  have howner : ∀ c' p', c' ≠ c → (s.port p').owner = some c' → (t.port p').owner = some c' := fun c' p' hne hin => by
    have hp' : p' ≠ p := by
      rintro rfl
      exact hne (hown c' hin)
    rwa [hport p' hp']
  rw [serialised_iff]
  refine ⟨fun p' hp' => ?_, fun c' hc' => ?_⟩
  · have hp' : p' < s.ports.length := hlen ▸ hp'
    by_cases hpp : p' = p
    · subst hpp
      have hwait : ∀ x, x ∈ (t.port p').waiters →
          x < t.chans.length ∧ (t.chan x).phase = .waitLock ∧ (t.chan x).op.port = p' := fun x hx => by
        obtain ⟨hin, hne⟩ := (hmem x).1 hx
        rw [hother x hne, hl]
        obtain ⟨-, -, -, hwait⟩ := Serialised.portSerial h hp'
        exact hwait x hin
      rcases hend with ⟨how, hcop, hok⟩ | ⟨how, hopened, hdir, -⟩
      · refine ⟨fun hn => (by rw [how] at hn; cases hn), fun x hx => ?_, hord, hwait⟩
        obtain rfl : c = x := Option.some.inj (how.symm.trans hx)
        exact ⟨hl ▸ hc, hcop, hok⟩
      · exact ⟨fun _ => ⟨hopened, hdir⟩, fun x hx => (by rw [how] at hx; cases hx), hord, hwait⟩
    · refine (Serialised.portSerial h hp').of_same (hport p' hpp) hl fun x hx => hsame x ?_
      rintro rfl
      exact hpp ((Serialised.port_eq h hp' hx).symm.trans hop)
  · by_cases hne : c' = c
    · subst hne
      rcases hend with ⟨how, hcop, hok⟩ | ⟨-, -, -, hidle⟩
      · have hhold := OwnedOk.holding hok
        refine ⟨fun _ => ?_, fun hlock => ?_⟩
        · rw [hcop]
          exact ⟨State.port_lt (.inl how), how⟩
        · rw [hlock] at hhold
          cases hhold
      · refine ⟨fun hhold => ?_, fun hlock => ?_⟩
        · rw [hidle] at hhold
          cases hhold
        · rw [hidle] at hlock
          cases hlock
    · exact (Serialised.chanSerial h (hl ▸ hc')).of_same (hsame c' hne) hlen (fun p' => howner c' p' hne) fun p' => hwaiters c' p' hne

/-- How the exclusive section survives an IDLE channel's entering WAIT_LOCK. -/
theorem Serialised.of_wait {o : Op} (h : Serialised s) (hc : c < s.chans.length) (hidle : (s.chan c).phase = .idle)
    (hp : o.port < s.ports.length) (hl : t.chans.length = s.chans.length)
    (hother : ∀ c', c' ≠ c → SameRole (s.chan c') (t.chan c'))
    (hchan : (t.chan c).phase = .waitLock ∧ (t.chan c).op = o)
    (hports : PortBecomes s t o.port { s.port o.port with waiters := waitersAdd (s.port o.port).waiters c }) :
    Serialised t := by
  obtain ⟨hlen, hport, hrest⟩ := hports
  obtain ⟨hphase, hop⟩ := hchan
  have hout : ∀ p, p < s.ports.length → ¬((s.port p).owner = some c ∨ c ∈ (s.port p).waiters) := fun p hp hin => by
    obtain ⟨-, hown, -, hwait⟩ := Serialised.portSerial h hp
    rcases hin with hin | hin
    · have := OwnedOk.holding (hown c hin).2.2
      rw [hidle] at this
      cases this
    · have := (hwait c hin).2.1
      rw [hidle] at this
      cases this
  have hne : ∀ {p x}, p < s.ports.length → (s.port p).owner = some x ∨ x ∈ (s.port p).waiters → x ≠ c := by
    rintro p x hp hx rfl
    exact hout p hp hx
  rw [serialised_iff]
  refine ⟨fun p hp' => ?_, fun c' hc' => ?_⟩
  · have hp' : p < s.ports.length := hlen ▸ hp'
    by_cases hpp : p = o.port
    · subst hpp
      obtain ⟨hfree, hown, hord, hwait⟩ := Serialised.portSerial h hp'
      unfold PortSerial
      rw [hport, hl]
      refine ⟨hfree, fun x hx => ?_, pairwise_waitersAdd c hord, fun x hx => ?_⟩
      · obtain ⟨hlt, hxop, hok⟩ := hown x hx
        have hrole := hother x (hne hp' (.inl hx))
        exact ⟨hlt, hrole.2.1 ▸ hxop, OwnedOk.of_sameRole hok hrole⟩
      · rcases (mem_waitersAdd _ c x).1 hx with rfl | hin
        · exact ⟨hc, hphase, by rw [hop]⟩
        · obtain ⟨hlt, hxphase, hxop⟩ := hwait x hin
          have hrole := hother x (hne hp' (.inr hin))
          exact ⟨hlt, hrole.1.trans hxphase, hrole.2.1 ▸ hxop⟩
    · exact (Serialised.portSerial h hp').of_same (hrest p hpp) hl fun x hx => hother x (hne hp' hx)
  · by_cases hcc : c' = c
    · subst hcc
      refine ⟨fun hhold => ?_, fun _ => ?_⟩
      · rw [hphase] at hhold
        cases hhold
      · rw [hop, hport, hlen]
        exact ⟨hp, (mem_waitersAdd _ _ _).2 (.inl rfl)⟩
    · refine (Serialised.chanSerial h (hl ▸ hc')).of_same (hother c' hcc) hlen (fun p hown => ?_) fun p hin => ?_
      · by_cases hpp : p = o.port
        · subst hpp
          rw [hport]
          exact hown
        · rwa [hrest p hpp]
      · by_cases hpp : p = o.port
        · subst hpp
          rw [hport]
          exact (mem_waitersAdd _ _ _).2 (.inr hin)
        · rwa [hrest p hpp]

end OneChannel

end Sys2Proof.Machine
end

section
/-! PROOF. Every step keeps the exclusive section of every port, BUSY, and the sizes of the state (10_state.md R23, R45;
42_transceiver.md R147, R162). -/

namespace Sys2Proof.Machine

open Sys2Proof.Safety

/-! ### Steps of an exchange -/

section Exchange

variable {s t : State} {c : Nat}

/-- A channel that is not in WAIT_LOCK waits for no port. -/
theorem Serialised.not_waiting (h : Serialised s) (hph : (s.chan c).phase ≠ .waitLock) (p : Nat) :
    c ∉ (s.port p).waiters := fun hin => by
  obtain ⟨-, -, -, hwait⟩ := Serialised.portSerial h (State.port_lt (.inr hin))
  exact hph (hwait c hin).2.1

/-- A channel that holds its port is its owner, as the owner of a port shows. -/
theorem Serialised.owns (h : Serialised s) (hc : c < s.chans.length) (hhold : holding (s.chan c).phase = true) :
    (s.chan c).op.port < s.ports.length ∧ (s.port (s.chan c).op.port).owner = some c
      ∧ OwnedOk (s.port (s.chan c).op.port) (s.chan c) := by
  obtain ⟨hp, how⟩ := (Serialised.chanSerial h hc).1 hhold
  obtain ⟨-, hown, -, -⟩ := Serialised.portSerial h hp
  exact ⟨hp, how, (hown c how).2.2⟩

/-- The waiters of the port of a channel that is not in WAIT_LOCK, as a step finds and leaves them. -/
theorem Serialised.waiters_without (h : Serialised s) (hph : (s.chan c).phase ≠ .waitLock) {p : Nat}
    (hp : p < s.ports.length) :
    (s.port p).waiters.Pairwise (· < ·) ∧ ∀ x, x ∈ (s.port p).waiters ↔ x ∈ (s.port p).waiters ∧ x ≠ c := by
  obtain ⟨-, -, hord, -⟩ := Serialised.portSerial h hp
  refine ⟨hord, fun x => ⟨fun hx => ⟨hx, ?_⟩, And.left⟩⟩
  rintro rfl
  exact Serialised.not_waiting h hph p hx

/-- The end of an exchange keeps the exclusive section. -/
theorem Ended.serialised {ws : List Nat} {n : Nat} (he : Ended s t c ws n) (h : Serialised s) (hc : c < s.chans.length)
    (hown : ∀ c', (s.port (s.chan c).op.port).owner = some c' → c' = c)
    (hw : ws.Pairwise (· < ·) ∧ ∀ x, x ∈ ws ↔ x ∈ (s.port (s.chan c).op.port).waiters ∧ x ≠ c) : Serialised t := by
  obtain ⟨hlen, hrest⟩ := he.ports
  obtain ⟨hfree, hopened, hdir, hws⟩ := he.port
  exact Serialised.of_exchange h he.others hlen hrest hc rfl hown (hws.symm ▸ hw) (.inr ⟨hfree, hopened, hdir, he.phase⟩)

/-- Every step of an exchange but an octet keeps the exclusive section. -/
theorem PhaseStep.serialised {ws : List Nat} (hx : PhaseStep s t c ws) (h : Serialised s) (hc : c < s.chans.length)
    (hown : ∀ c', (s.port (s.chan c).op.port).owner = some c' → c' = c)
    (hw : ws.Pairwise (· < ·) ∧ ∀ x, x ∈ ws ↔ x ∈ (s.port (s.chan c).op.port).waiters ∧ x ≠ c) : Serialised t := by
  cases hx with
  | ended n hn he => exact he.serialised h hc hown hw
  | write l k sent ho hm hch hp =>
    obtain ⟨hlen, hport, hrest⟩ := hp
    refine Serialised.of_exchange h ho hlen hrest hc rfl hown (by rw [hport]; exact hw) (.inl ?_)
    rw [hport, hch]
    exact ⟨rfl, rfl, rfl, .inl ⟨.inl rfl, rfl, decide_eq_true⟩⟩
  | readFirst l ho hm hch hp =>
    obtain ⟨hlen, hport, hrest⟩ := hp
    refine Serialised.of_exchange h ho hlen hrest hc rfl hown (by rw [hport]; exact hw) (.inl ?_)
    rw [hport, hch]
    exact ⟨rfl, rfl, rfl, .inr ⟨rfl, rfl, rfl⟩⟩
  | settle k ho hm hf hmode hch hp =>
    obtain ⟨hplt, how, hopened, ⟨-, hdir, -⟩ | ⟨hr, -⟩⟩ := Serialised.owns h hc (by rw [hf]; rfl)
    · have hport := State.port_of_ports hp
      refine Serialised.of_exchange h ho (congrArg _ hp) (fun p' _ => hport p') hc rfl hown ?_ (.inl ?_)
      · rw [hport]
        exact Serialised.waiters_without h (by rw [hf]; exact Phase.noConfusion) hplt
      · rw [hport, hch]
        exact ⟨how, rfl, hopened, .inl ⟨.inr rfl, hdir, fun hn => absurd hmode hn⟩⟩
    · cases hf.symm.trans hr
  | readOn ho hm hf hmode hch hp =>
    obtain ⟨hlen, hport, hrest⟩ := hp
    obtain ⟨hplt, how, hopened, ⟨-, -, hwatch⟩ | ⟨hr, -⟩⟩ := Serialised.owns h hc (by rw [hf]; rfl)
    · refine Serialised.of_exchange h ho hlen hrest hc rfl hown ?_ (.inl ?_)
      · rw [hport]
        exact Serialised.waiters_without h (by rw [hf]; exact Phase.noConfusion) hplt
      · rw [hport, hch]
        exact ⟨how, rfl, hopened, .inr ⟨rfl, rfl, hwatch hmode⟩⟩
    · cases hf.symm.trans hr

/-- Every step of an exchange but an octet keeps the number of ports. -/
theorem PhaseStep.ports_length {ws : List Nat} (hx : PhaseStep s t c ws) : t.ports.length = s.ports.length := by
  cases hx with
  | ended n hn he => exact he.ports.1
  | write l k sent ho hm hch hp => exact hp.1
  | readFirst l ho hm hch hp => exact hp.1
  | settle k ho hm hf hmode hch hp => exact congrArg _ hp
  | readOn ho hm hf hmode hch hp => exact hp.1

/-- The grant keeps the ports and their exclusive section (R141). -/
theorem Serialised.grantStep {p : Nat} (h : Serialised s) (openOk applyOk : Bool) (hp : p < s.ports.length)
    (hc : c < s.chans.length) (hfree : (s.port p).owner = none) (hw : c ∈ (s.port p).waiters) :
    Serialised (s.grantStep p c openOk applyOk) ∧ (s.grantStep p c openOk applyOk).ports.length = s.ports.length := by
  obtain rfl := Serialised.port_eq h hp (.inr hw)
  obtain ⟨-, -, hord, -⟩ := Serialised.portSerial h hp
  obtain ⟨hx, -⟩ := State.grantStep_cases openOk applyOk hc hp rfl
  refine ⟨hx.serialised h hc (fun c' hc' => ?_) ⟨pairwise_waitersRemove c hord, mem_waitersRemove _ c⟩, hx.ports_length⟩
  rw [hfree] at hc'
  cases hc'

/-- The owner of a channel's port, where the channel holds it. -/
theorem Serialised.owner_unique (h : Serialised s) (hc : c < s.chans.length)
    (hhold : holding (s.chan c).phase = true) (c' : Nat) (hc' : (s.port (s.chan c).op.port).owner = some c') : c' = c :=
  Option.some.inj (hc'.symm.trans (Serialised.owns h hc hhold).2.1)

/-- A due deadline step keeps the ports and their exclusive section (R142, R143, R144). -/
theorem Serialised.deadlineStep (h : Serialised s) (writeOk : Bool) (hd : DeadlineDue s (s.chan c)) :
    Serialised (s.deadlineStep c writeOk) ∧ (s.deadlineStep c writeOk).ports.length = s.ports.length := by
  have hdue := (Chan.due_iff s _).2 hd
  have hc : c < s.chans.length := State.lt_of_due hdue
  have hphase : holding (s.chan c).phase = true ∧ (s.chan c).phase ≠ .waitLock := by
    rcases hd with ⟨h | h, -⟩ | ⟨h, -⟩ <;> rw [h] <;> decide
  obtain ⟨hhold, hlock⟩ := hphase
  obtain ⟨hp, -, -⟩ := Serialised.owns h hc hhold
  obtain ⟨hx, -⟩ := State.deadlineStep_cases writeOk hc hp hdue
  exact ⟨hx.serialised h hc (Serialised.owner_unique h hc hhold) (Serialised.waiters_without h hlock hp), hx.ports_length⟩

/-- An octet keeps the ports and their exclusive section (R139). -/
theorem Serialised.takeOctet {e : Event} {b : Byte} (h : Serialised s) (ho : OctetBy s e c b) :
    Serialised (s.takeOctet c b) ∧ (s.takeOctet c b).ports.length = s.ports.length := by
  obtain ⟨p, writeOk, -, how, hr⟩ := ho
  have hp : p < s.ports.length := State.port_lt (.inl how)
  obtain ⟨-, hown, -, -⟩ := Serialised.portSerial h hp
  obtain ⟨hc, rfl, -⟩ := hown c how
  have hhold : holding (s.chan c).phase = true := by rw [hr]; rfl
  have hlock : (s.chan c).phase ≠ .waitLock := by rw [hr]; exact Phase.noConfusion
  rcases State.takeOctet_cases b hc hp with ⟨⟨-, -, -, -, -, -, hlen, hother⟩, -, hports, -, hch⟩ | ⟨n, -, he⟩
  · refine ⟨Serialised.of_same h hports hlen fun c' => ?_, congrArg _ hports⟩
    by_cases hne : c' = c
    · rw [hne, hch]
      exact ⟨rfl, rfl, rfl⟩
    · rw [hother c' hne]
      exact ⟨rfl, rfl, rfl⟩
  · exact ⟨he.serialised h hc (Serialised.owner_unique h hc hhold) (Serialised.waiters_without h hlock hp), he.ports.1⟩

end Exchange

/-! ### Host accesses -/

section Host

variable {s t : State}

theorem SameRole.refl (ch : Chan) : SameRole ch ch := ⟨rfl, rfl, rfl⟩

/-- An update of a channel that keeps its role keeps the exclusive section. -/
theorem Serialised.modChan (h : Serialised s) {c : Nat} {f : Chan → Chan} (hf : SameRole (s.chan c) (f (s.chan c))) :
    Serialised (s.modChan c f) := by
  refine Serialised.of_same h rfl (List.length_modify ..) fun c' => ?_
  obtain ⟨rfl, -, hx⟩ | hx := State.chan_modChan_cases s c f c' <;> rw [hx]
  · exact hf
  · exact SameRole.refl _

/-- The end of the acceptance on an IDLE channel keeps the ports and their exclusive section: the channel is
IDLE again, or waits. -/
theorem ExecEnds.serialised (hx : ExecEnds s t) (h : Serialised s) (hc : s.sel < s.chans.length)
    (hidle : (s.chan s.sel).phase = .idle) (hn : s.ports.length = s.cfg.nport) :
    Serialised t ∧ t.ports.length = s.ports.length := by
  obtain ⟨⟨-, -, -, -, -, -, hlen, hother⟩, -⟩ := hx.frame
  have hrole : ∀ c', c' ≠ s.sel → SameRole (s.chan c') (t.chan c') := fun c' hne => by
    rw [hother c' hne]
    exact SameRole.refl _
  have hsame : t.ports = s.ports → SameRole (s.chan s.sel) (t.chan s.sel) → Serialised t := fun hp hsel => by
    refine Serialised.of_same h hp hlen fun c' => ?_
    by_cases hne : c' = s.sel
    · exact hne ▸ hsel
    · exact hrole c' hne
  obtain ⟨err, hch, hp⟩ | ⟨out, result, res, -, hch, hp⟩ | ⟨o, -, hport, hch, hp⟩ := hx.sel_cases hc
  · exact ⟨hsame hp (by rw [hch]; exact ⟨hidle.symm, rfl, rfl⟩), congrArg _ hp⟩
  · exact ⟨hsame hp (by rw [hch]; exact ⟨hidle.symm, rfl, rfl⟩), congrArg _ hp⟩
  · have hbecomes : PortBecomes s t o.port { s.port o.port with waiters := waitersAdd (s.port o.port).waiters s.sel } := by
      refine ⟨by rw [hp, List.length_modify], ?_, fun p' hne => ?_⟩ <;> rw [State.port_of_ports (s := s.modPort o.port _) hp]
      · exact State.port_modPort_self _ (hn ▸ hport)
      · exact State.port_modPort_ne _ _ hne
    exact ⟨Serialised.of_wait h hc hidle (hn ▸ hport) hlen hrole (by rw [hch]; exact ⟨rfl, rfl⟩) hbecomes, hbecomes.1⟩

/-- Where no port has an owner or waiters and every channel is IDLE, the exclusive section holds. -/
theorem serialised_of_idle (hport : ∀ p, (s.port p).owner = none ∧ (s.port p).opened = false ∧ (s.port p).dir = .idle
    ∧ (s.port p).waiters = []) (hchan : ∀ c, (s.chan c).phase = .idle) : Serialised s := by
  rw [serialised_iff]
  refine ⟨fun p _ => ?_, fun c _ => ?_⟩
  · obtain ⟨hfree, hopened, hdir, hws⟩ := hport p
    unfold PortSerial
    rw [hfree, hws]
    exact ⟨fun _ => ⟨hopened, hdir⟩, nofun, List.Pairwise.nil, nofun⟩
  · unfold ChanSerial
    rw [hchan c]
    exact ⟨nofun, nofun⟩

theorem State.resetInput_port (s : State) (p : Nat) : ∃ l, s.resetInput.port p = { Port.reset with sent := l } := by
  simp only [State.port, State.resetInput, List.getD_eq_getElem?_getD, List.getElem?_map]
  cases s.ports[p]? with
  | none => exact ⟨[], rfl⟩
  | some pt => exact ⟨pt.sent, rfl⟩

end Host

/-! ### BUSY -/

section Busy

variable {s : State} {e : Event} {c : Nat}

/-- The channel shows BUSY exactly outside IDLE. -/
def Chan.BusyOk (ch : Chan) : Prop := ch.busy = true ↔ ch.phase ≠ .idle

theorem busyOk_iff (s : State) : BusyOk s ↔ ∀ c, (s.chan c).BusyOk :=
  forall_chans_iff (P := Chan.BusyOk) (by simp [Chan.BusyOk, Chan.reset]) s

theorem Chan.busyOk_of_busy {ch : Chan} (hb : ch.busy = true) (hp : ch.phase ≠ .idle) : ch.BusyOk :=
  ⟨fun _ => hp, fun _ => hb⟩

theorem Chan.busyOk_of_idle {ch : Chan} (hb : ch.busy = false) (hp : ch.phase = .idle) : ch.BusyOk :=
  ⟨fun h => absurd (hb.symm.trans h) Bool.false_ne_true, fun h => absurd hp h⟩

theorem BusyOk.idle_of_not_busy (h : BusyOk s) (hb : (s.chan c).busy = false) : (s.chan c).phase = .idle := by
  by_contra hn
  have := ((busyOk_iff s).1 h c).2 hn
  rw [hb] at this
  cases this

/-- A channel that is granted its port was in WAIT_LOCK for it. -/
theorem Serialised.of_granted (h : Serialised s) {p : Nat} (hw : c ∈ (s.port p).waiters) :
    c < s.chans.length ∧ (s.chan c).phase = .waitLock ∧ (s.chan c).op.port = p := by
  obtain ⟨-, -, -, hwait⟩ := Serialised.portSerial h (State.port_lt (.inr hw))
  exact hwait c hw

/-- A step of an exchange keeps BUSY: it starts at a busy channel. -/
theorem ExchangeStep.busyOk {ch : Chan} {out : Bytes} (hx : ExchangeStep s e c ch out) (hser : Serialised s)
    (h : (s.chan c).BusyOk) : ch.BusyOk := by
  have hbusy : ∀ {ph : Phase}, (s.chan c).phase = ph → ph ≠ .idle → (s.chan c).busy = true := fun hph hne =>
    h.2 (by rw [hph]; exact hne)
  have hgrant : GrantedBy s e c → (s.chan c).busy = true := fun ⟨_, _, _, _, hw⟩ =>
    hbusy (Serialised.of_granted hser hw).2.1 Phase.noConfusion
  cases hx with
  | ends base r hc => exact Chan.busyOk_of_idle (Chan.ended_busy _ _) (Chan.ended_phase _ _)
  | writes l k w hg => exact Chan.busyOk_of_busy (hgrant hg) Phase.noConfusion
  | readsFirst l hg => exact Chan.busyOk_of_busy (hgrant hg) Phase.noConfusion
  | settles k hw => exact Chan.busyOk_of_busy (hbusy hw Phase.noConfusion) Phase.noConfusion
  | reads hw => exact Chan.busyOk_of_busy (hbusy hw Phase.noConfusion) Phase.noConfusion
  | keeps b ho hroom => exact h

/-- Every step of a channel keeps BUSY as its phase says. -/
theorem ChanStep.busyOk {ch : Chan} (hx : ChanStep s e c ch) (hser : Serialised s) (h : (s.chan c).BusyOk) :
    ch.BusyOk := by
  cases hx with
  | same | operands | reject => exact h
  | refused | completed | reset => exact Chan.busyOk_of_idle rfl rfl
  | waits => exact Chan.busyOk_of_busy rfl Phase.noConfusion
  | exchange _ out hx => exact hx.busyOk hser h

end Busy

/-! ### Every step -/

section Step

variable {s t : State} {e : Event}

/-- Every step keeps the exclusive section of every port, and the number of ports. -/
theorem StepOf.serialised (hx : StepOf s e t) (hshape : Shape s) (hbusy : BusyOk s) (h : Serialised s) :
    Serialised t ∧ t.ports.length = s.ports.length := by
  obtain ⟨hchans, -, hports⟩ := hshape
  cases hx with
  | nothing hs =>
    refine ⟨Serialised.of_same h hs.ports (congrArg _ hs.chans) fun c => ?_, congrArg _ hs.ports⟩
    rw [State.chan, State.chan, hs.chans]
    exact SameRole.refl _
  | operandWrite c r v =>
    obtain ⟨tl, a0, dl, dm, hr⟩ := Chan.writeReg_operands (s.chan c) r v
    exact ⟨Serialised.modChan h (f := fun ch => ch.writeReg r v) (by rw [hr]; exact SameRole.refl _), rfl⟩
  | reject c => exact ⟨Serialised.modChan h (f := Chan.reject) (SameRole.refl _), rfl⟩
  | accept c w _ hc hb hx =>
    have hc : c < s.chans.length := hchans ▸ hc
    have hch : ((s.setResp .ack).accept c w).chan c = Chan.accept w (s.chan c) :=
      State.chan_modChan_self (s := s.setResp .ack) (Chan.accept w) hc
    have hacc : Serialised ((s.setResp .ack).accept c w) :=
      Serialised.modChan (s := s.setResp .ack) (f := Chan.accept w) h (SameRole.refl _)
    have hidle : (((s.setResp .ack).accept c w).chan c).phase = .idle :=
      (congrArg Chan.phase hch).trans (BusyOk.idle_of_not_busy hbusy hb)
    exact hx.serialised hacc (hc.trans_eq (List.length_modify ..).symm) hidle hports
  | grant p c openOk applyOk hp hc hfree hw => exact Serialised.grantStep h openOk applyOk hp hc hfree hw
  | deadline c writeOk l hd => exact Serialised.deadlineStep h writeOk hd
  | octet c b ho => exact Serialised.takeOctet h ho
  | handleWrite | txWrite | advance => exact ⟨h, rfl⟩
  | reset =>
    refine ⟨serialised_of_idle (fun p => ?_) fun c => by rw [State.resetInput_chan]; rfl, List.length_map ..⟩
    obtain ⟨l, hp⟩ := State.resetInput_port s p
    rw [hp]
    exact ⟨rfl, rfl, rfl, rfl⟩

/-- Every step keeps the number of channels and of handle slots. -/
theorem StepOf.lengths (hx : StepOf s e t) (hshape : Shape s) :
    t.chans.length = s.chans.length ∧ t.handles.length = s.handles.length := by
  obtain ⟨hchans, hhandles, -⟩ := hshape
  refine ⟨?_, ?_⟩
  · have hexch : ∀ {c : Nat} {u : State}, Exchanges s u e c → u.chans.length = s.chans.length :=
      fun ⟨_, _, _, _, hd⟩ => hd.length_eq
    cases hx with
    | nothing h => exact congrArg _ h.chans
    | accept c w _ hc hb hx =>
      obtain ⟨⟨-, -, -, -, -, -, hlen, -⟩, -⟩ := hx.frame
      exact hlen.trans (List.length_modify ..)
    | grant p c openOk applyOk hp hc hfree hw => exact hexch (State.grantStep_exchanges hc hw)
    | deadline c writeOk l hd => exact hexch (u := s.deadlineStep c writeOk) (State.deadlineStep_exchanges e hd)
    | octet c b ho => exact hexch (State.takeOctet_exchanges ho)
    | operandWrite | reject => exact List.length_modify ..
    | handleWrite | txWrite | advance => rfl
    | reset => exact List.length_replicate.trans hchans.symm
  · obtain hsame | ⟨-, hreset⟩ | ⟨addr, v, k, r, -, -, -, hwrite⟩ := hx.handles_cases
    · rw [hsame]
    · rw [hreset, List.length_replicate, hhandles]
    · rw [hwrite, List.length_modify]

/-- Settles O52: the ports by the kind of the step, BUSY channel by channel. -/
theorem stepKeepsPortsSerialised : Obligations.StepKeepsPortsSerialised := by
  intro s t hshape hbusy hser hstep
  cases hs : s.sched with
  | nil =>
    obtain rfl := step_of_nil hs hstep
    exact ⟨hshape, hbusy, hser⟩
  | cons e rest =>
    have hx := step_stepOf hs hstep
    obtain ⟨hchans, hhandles⟩ := hx.lengths hshape
    obtain ⟨hser', hports⟩ := hx.serialised hshape hbusy hser
    refine ⟨?_, ?_, hser'⟩
    · rw [Shape, hchans, hhandles, hports, step_cfg hstep]
      exact hshape
    · rw [busyOk_iff] at hbusy ⊢
      exact fun c => (hx.chanStep c).busyOk hser (hbusy c)

end Step

end Sys2Proof.Machine
end

section
/-! PROOF. The state after reset (10_state.md R48; 70_reset_and_hazards.md R240 to R242): its registers, and the invariants. -/

namespace Sys2Proof.Machine

open Sys2Proof.Safety

/-- What holds of the reset value holds of every entry of a list that is filled with it. -/
theorem forall_mem_replicate {α : Type} {P : α → Prop} {a : α} (h : P a) (n : Nat) : ∀ x ∈ List.replicate n a, P x :=
  fun _ hx => List.eq_of_mem_replicate hx ▸ h

theorem chanAtReset_reset : ChanAtReset Chan.reset :=
  ⟨rfl, rfl, rfl, rfl, rfl, rfl, rfl, rfl, rfl, rfl, rfl, rfl, rfl, rfl, rfl, rfl, rfl⟩

theorem handleAtReset_reset : HandleAtReset Handle.reset := ⟨rfl, rfl, rfl, rfl, rfl, rfl, rfl, rfl⟩

/-- The record of sent octets is no register of a port (log 11). -/
theorem portAtReset_reset (l : List (Nat × Byte)) : PortAtReset { Port.reset with sent := l } := ⟨rfl, rfl, rfl, rfl, rfl⟩

theorem atReset_resetOf (p : Config.Params) : AtReset (State.resetOf p) :=
  ⟨⟨List.length_replicate, List.length_replicate, List.length_replicate⟩, forall_mem_replicate chanAtReset_reset _,
    forall_mem_replicate handleAtReset_reset _, forall_mem_replicate (portAtReset_reset []) _, fun _ => rfl⟩

theorem atReset_resetInput {s : State} (hp : s.ports.length = s.cfg.nport) : AtReset s.resetInput := by
  refine ⟨⟨List.length_replicate, List.length_replicate, (List.length_map ..).trans hp⟩,
    forall_mem_replicate chanAtReset_reset _, forall_mem_replicate handleAtReset_reset _, fun pt hpt => ?_, fun _ => rfl⟩
  obtain ⟨old, -, rfl⟩ := List.mem_map.1 hpt
  exact portAtReset_reset old.sent

/-- Settles O49: the reset step is the reset input. -/
theorem resetInputRestoresReset : Obligations.ResetInputRestoresReset := by
  intro s rest hs hshape
  obtain ⟨-, -, hports⟩ := hshape
  exact ⟨(s.setSched rest).resetInput, step_of_sched hs, atReset_resetInput hports, rfl, rfl, rfl⟩

/-! ### The invariants after reset -/

section Invariants

variable (p : Config.Params)

theorem canonical_resetOf : Canonical (State.resetOf p) := ⟨List.Pairwise.nil, nofun⟩

theorem reservedZero_resetOf : ReservedZero (State.resetOf p) :=
  forall_mem_replicate (P := Handle.ReservedOk) Handle.reservedOk_reset _

theorem busyOk_resetOf : BusyOk (State.resetOf p) :=
  forall_mem_replicate (P := Chan.BusyOk) (Chan.busyOk_of_idle rfl rfl) _

theorem serialised_resetOf : Serialised (State.resetOf p) := by
  refine serialised_of_idle (fun q => ?_) fun c => by rw [State.resetOf_chan]; rfl
  rw [State.resetOf_port]
  exact ⟨rfl, rfl, rfl, rfl⟩

theorem deadlinesAhead_resetOf : DeadlinesAhead (State.resetOf p) :=
  forall_mem_replicate (P := Chan.DeadlinesFrom 0) (fun _ hd => absurd hd List.not_mem_nil) _

theorem errorsOk_resetOf : ErrorsOk (State.resetOf p) :=
  forall_mem_replicate (P := Chan.RecordOk) (Chan.recordOk_of_none rfl rfl) _

theorem fitsBuffers_resetOf : FitsBuffers (State.resetOf p) :=
  forall_mem_replicate (P := Chan.Fits p.bufBytes) ⟨Nat.zero_le _, Nat.zero_le _, Nat.zero_le _⟩ _

end Invariants

/-- Settles O48: the registers and the invariants one by one. -/
theorem resetStateMeetsInvariants : Obligations.ResetStateMeetsInvariants :=
  ⟨rfl, by decide, fun p => ⟨atReset_resetOf p, rfl, canonical_resetOf p, reservedZero_resetOf p, busyOk_resetOf p,
    serialised_resetOf p, deadlinesAhead_resetOf p, errorsOk_resetOf p, fitsBuffers_resetOf p⟩⟩

end Sys2Proof.Machine
end

section
/-! PROOF. What a step can do to a channel that has a command: the phases it leaves and why, and how its exchange ends
(42_transceiver.md R146, R160, R161, R163). -/

namespace Sys2Proof.Machine

open Sys2Proof.Safety

/-! ### Causes -/

/-- The causes on which channel `c` leaves a phase at the event `e` (R146). -/
def LeaveCause (s : State) (e : Event) (c : Nat) : Phase → Prop
  | .idle => ∃ w, e = .hostWrite (cmdAddress c) 4 w
  | .waitLock => ∃ openOk applyOk, e = .grant (s.chan c).op.port c openOk applyOk
  | .write | .settle => s.now = (s.chan c).tEnd
  | .read => QuietElapsed s (s.chan c) ∨ TimeoutElapsed s (s.chan c)
      ∨ ∃ b writeOk, e = .rx (s.chan c).op.port b writeOk
        ∧ ((s.chan c).acc.length = s.cfg.bufBytes ∨ FrameEnds (s.chan c) ((s.chan c).acc ++ [b]))

section Cause

variable {s : State} {e : Event} {c : Nat} {ch : Chan}

/-- A granted channel leaves WAIT_LOCK on the grant of its port. -/
theorem GrantedBy.leaveCause (h : GrantedBy s e c) (hser : Serialised s) :
    (s.chan c).phase = .waitLock ∧ LeaveCause s e c .waitLock := by
  obtain ⟨p, openOk, applyOk, rfl, hw⟩ := h
  obtain ⟨-, hphase, rfl⟩ := Serialised.of_granted hser hw
  exact ⟨hphase, openOk, applyOk, rfl⟩

/-- An octet for a channel comes on the channel's port. -/
theorem OctetBy.event_eq {b : Byte} (h : OctetBy s e c b) (hser : Serialised s) :
    (s.chan c).phase = .read ∧ ∃ writeOk, e = .rx (s.chan c).op.port b writeOk := by
  obtain ⟨p, writeOk, rfl, hown, hr⟩ := h
  obtain rfl := Serialised.port_eq hser (State.port_lt (.inl hown)) (.inl hown)
  exact ⟨hr, writeOk, rfl⟩

/-- An exchange that ends was in a phase and leaves it on its cause. -/
theorem EndCause.leaveCause {r : Except CmdError Bytes} (h : EndCause s e c ch r) (hser : Serialised s) :
    (s.chan c).phase ≠ .idle ∧ LeaveCause s e c (s.chan c).phase := by
  have hgrant : GrantedBy s e c → (s.chan c).phase ≠ .idle ∧ LeaveCause s e c (s.chan c).phase := fun hg => by
    obtain ⟨hphase, hcause⟩ := hg.leaveCause hser
    rw [hphase]
    exact ⟨Phase.noConfusion, hcause⟩
  cases h with
  | grantFailed l err hg => exact hgrant hg
  | grantReadsNothing l hg => exact hgrant hg
  | writeFailed h hd | writeReadsNothing h hd | settled h hd =>
    rw [h]
    exact ⟨Phase.noConfusion, hd⟩
  | quiet h hq | short h hq =>
    rw [h]
    exact ⟨Phase.noConfusion, .inl hq⟩
  | timeout h ht =>
    rw [h]
    exact ⟨Phase.noConfusion, .inr (.inl ht)⟩
  | overflow b ho hfull =>
    obtain ⟨hr, writeOk, he⟩ := ho.event_eq hser
    rw [hr]
    exact ⟨Phase.noConfusion, .inr (.inr ⟨b, writeOk, he, .inl hfull⟩)⟩
  | frame b out ho hroom hend =>
    obtain ⟨hr, writeOk, he⟩ := ho.event_eq hser
    have hframe : FrameEnds (s.chan c) ((s.chan c).acc ++ [b]) :=
      (Chan.octetEnd_isSome_iff (octetTaken s (s.chan c) b)).1 (Option.isSome_of_eq_some hend)
    rw [hr]
    exact ⟨Phase.noConfusion, .inr (.inr ⟨b, writeOk, he, .inr hframe⟩)⟩

/-- Every phase but IDLE can end in IDLE. -/
theorem idle_mem_transitions {ph : Phase} (h : ph ≠ .idle) : (ph, .idle) ∈ transitions := by
  cases ph with
  | idle => exact absurd rfl h
  | waitLock | write | settle | read => decide

/-- A step of an exchange keeps the channel's phase, or takes a listed transition on its cause. -/
theorem ExchangeStep.transition {out : Bytes} (hx : ExchangeStep s e c ch out) (hser : Serialised s) :
    ch.phase = (s.chan c).phase
      ∨ ((s.chan c).phase, ch.phase) ∈ transitions ∧ LeaveCause s e c (s.chan c).phase := by
  cases hx with
  | ends base r hend =>
    obtain ⟨hne, hcause⟩ := hend.leaveCause hser
    rw [Chan.ended_phase]
    exact .inr ⟨idle_mem_transitions hne, hcause⟩
  | writes l k w hg =>
    obtain ⟨hphase, hcause⟩ := hg.leaveCause hser
    rw [hphase]
    exact .inr ⟨show (Phase.waitLock, Phase.write) ∈ transitions by decide, hcause⟩
  | readsFirst l hg =>
    obtain ⟨hphase, hcause⟩ := hg.leaveCause hser
    rw [hphase]
    exact .inr ⟨show (Phase.waitLock, Phase.read) ∈ transitions by decide, hcause⟩
  | settles k h hd =>
    rw [h]
    exact .inr ⟨show (Phase.write, Phase.settle) ∈ transitions by decide, hd⟩
  | reads h hd =>
    rw [h]
    exact .inr ⟨show (Phase.write, Phase.read) ∈ transitions by decide, hd⟩
  | keeps => exact .inl rfl

/-- Every step of a channel but the reset input keeps its phase, or takes a listed transition on its cause. -/
theorem ChanStep.transition (hx : ChanStep s e c ch) (hbusy : BusyOk s) (hser : Serialised s) (he : e ≠ .reset) :
    ch.phase = (s.chan c).phase
      ∨ ((s.chan c).phase, ch.phase) ∈ transitions ∧ LeaveCause s e c (s.chan c).phase := by
  cases hx with
  | same | operands | reject => exact .inl rfl
  | refused w err _ hb | completed w out result res _ hb => exact .inl (BusyOk.idle_of_not_busy hbusy hb).symm
  | waits w o he hb =>
    rw [BusyOk.idle_of_not_busy hbusy hb]
    exact .inr ⟨show (Phase.idle, Phase.waitLock) ∈ transitions by decide, w, he⟩
  | exchange _ out hx => exact hx.transition hser
  | reset h => exact absurd h he

end Cause

/-- Settles O56: the cause is that of the phase that is left. -/
theorem phaseTransitionsAreComplete : Obligations.PhaseTransitionsAreComplete := by
  intro s t e rest c _ hbusy hser hs he hstep
  have hx : (t.chan c).phase = (s.chan c).phase
      ∨ ((s.chan c).phase, (t.chan c).phase) ∈ transitions ∧ LeaveCause s e c (s.chan c).phase :=
    ((step_stepOf hs hstep).chanStep c).transition hbusy hser he
  refine ⟨hx.imp_right And.left, fun hne => ?_⟩
  obtain ⟨-, hcause⟩ := hx.resolve_left hne
  refine ⟨fun h => ?_, fun h => ?_, fun h => ?_, fun h => ?_⟩
  · rwa [h] at hcause
  · rwa [h] at hcause
  · rcases h with h | h <;> rwa [h] at hcause
  · rwa [h] at hcause

/-! ### The end of an exchange -/

section End

variable {s : State} {e : Event} {c : Nat} {ch : Chan}

/-- A step that ends a running command, the reset input apart, ends its exchange. -/
theorem ChanStep.ended_of_done (hx : ChanStep s e c ch) (hb : (s.chan c).busy = true) (hd : (s.chan c).done = false)
    (hdone : ch.done = true) : ∃ base r, EndCause s e c base r ∧ ch = base.ended (base.verdict r) := by
  have hstays : (s.chan c).done = true → ∃ base r, EndCause s e c base r ∧ ch = base.ended (base.verdict r) := fun h =>
    absurd (hd.symm.trans h) Bool.false_ne_true
  have hidle : (s.chan c).busy = false → ∃ base r, EndCause s e c base r ∧ ch = base.ended (base.verdict r) := fun h =>
    absurd (h.symm.trans hb) Bool.false_ne_true
  cases hx with
  | same | operands | reject => exact hstays hdone
  | refused w err _ h => exact hidle h
  | completed w out result res _ h => exact hidle h
  | waits w o _ h => exact hidle h
  | reset => cases hdone
  | exchange _ out hx =>
    cases hx with
    | ends base r hend => exact ⟨base, r, hend, rfl⟩
    | writes | readsFirst | settles | reads | keeps => exact hstays hdone

/-- An exchange ends with the snapshot it ran with, and its own errors are of two classes (R163). -/
theorem EndCause.op_eq_and_cls {r : Except CmdError Bytes} (h : EndCause s e c ch r) :
    ch.op = (s.chan c).op ∧ ∀ err, r = .error err → err.cls = .configuration ∨ err.cls = .transport := by
  cases h with
  | grantFailed l err hg he =>
    refine ⟨rfl, ?_⟩
    rintro _ ⟨⟩
    exact he
  | writeFailed | short | timeout | overflow =>
    refine ⟨rfl, ?_⟩
    rintro _ ⟨⟩
    exact .inr rfl
  | grantReadsNothing | writeReadsNothing | settled | quiet | frame => exact ⟨rfl, nofun⟩

end End

/-- Settles O59: a plain exchange has no parse that could find another error. -/
theorem transceiverErrorClasses : Obligations.TransceiverErrorClasses := by
  intro s t e rest c _ _ _ _ hb hplain hs _ hstep hdone hd
  obtain ⟨base, r, hend, hch⟩ := ((step_stepOf hs hstep).chanStep c).ended_of_done hb hd hdone
  obtain ⟨hop, hcls⟩ := hend.op_eq_and_cls
  rw [hch]
  obtain ⟨err, hv, herr, -⟩ | ⟨-, herr, -⟩ := base.ended_record (base.verdict r)
  · obtain hr | ⟨-, hreply, -⟩ := Chan.verdict_error hv
    · rw [herr, CmdError.errCode]
      rcases hcls err hr with h | h <;> rw [h]
      · exact .inr (.inr rfl)
      · exact .inr (.inl rfl)
    · exact absurd (hop ▸ hplain) hreply
  · exact .inl herr

/-! ### READ -/

section Read

variable {s : State} {e : Event} {c : Nat} {ch : Chan}

/-- Silence as the law of quiet-interval framing has it (R160): an octet was received and now is LAST_RX + QUIET. -/
def AtSilence (s : State) (ch : Chan) : Prop :=
  ch.acc ≠ [] ∧ ∃ l, ch.lastRx = some l ∧ s.now = l + ch.line.quiet

/-- A quiet interval that has elapsed and was not passed over elapses now. -/
theorem QuietElapsed.atSilence (hq : QuietElapsed s ch) (hr : ch.phase = .read) (hd : ch.DeadlinesFrom s.now) :
    AtSilence s ch := by
  obtain ⟨hmode, hacc, l, hl, hle⟩ := hq
  have hquiet : ch.op.mode.hasQuiet = true := by rcases hmode with h | h <;> rw [h] <;> rfl
  have hmem : l + ch.line.quiet ∈ ch.deadlines := by
    simp [Chan.deadlines, hr, Chan.quietDeadline, hquiet, hacc, hl]
  exact ⟨hacc, l, hl, Nat.le_antisymm (hd _ hmem) hle⟩

/-- A timeout that has elapsed and was not passed over elapses now. -/
theorem TimeoutElapsed.at_timeout (ht : TimeoutElapsed s ch) (hr : ch.phase = .read) (hd : ch.DeadlinesFrom s.now) :
    ∃ d, ch.line.timeout = some d ∧ s.now = ch.tRead + d := by
  obtain ⟨d, htimeout, hle⟩ := ht
  have hmem : ch.tRead + d ∈ ch.deadlines := by
    simp [Chan.deadlines, hr, Chan.timeoutDeadline, htimeout]
  exact ⟨d, htimeout, Nat.le_antisymm (hd _ hmem) hle⟩

/-- In READ a mode Q exchange ends without error on silence alone: no octet ends its frame. -/
theorem EndCause.quiet_of_ok {out : Bytes} (h : EndCause s e c ch (.ok out)) (hser : Serialised s)
    (hr : (s.chan c).phase = .read) (hm : (s.chan c).op.mode = .q) : QuietElapsed s (s.chan c) := by
  cases h with
  | grantReadsNothing l hg => cases hr.symm.trans (hg.leaveCause hser).1
  | writeReadsNothing h | settled h => cases hr.symm.trans h
  | quiet h hq => exact hq
  | frame b out ho hroom hend =>
    rw [Chan.octetEnd, show (octetTaken s (s.chan c) b).op.mode = .q from hm] at hend
    cases hend

/-- In READ an exchange ends with a read timeout where the timeout has elapsed, and with a short read in mode N where the
quiet interval has. -/
theorem EndCause.of_readError {err : CmdError} (h : EndCause s e c ch (.error err)) (hser : Serialised s)
    (hr : (s.chan c).phase = .read) :
    (err = .readTimeout → TimeoutElapsed s (s.chan c))
      ∧ (err = .shortRead → (s.chan c).op.mode = .n ∧ QuietElapsed s (s.chan c)) := by
  cases h with
  | grantFailed l err hg => cases hr.symm.trans (hg.leaveCause hser).1
  | writeFailed h => cases hr.symm.trans h
  | short h hq hm => exact ⟨nofun, fun _ => ⟨hm, hq⟩⟩
  | timeout h ht => exact ⟨fun _ => ht, nofun⟩
  | overflow => exact ⟨nofun, nofun⟩

/-- The transport errors of a reader by their codes (R210). -/
theorem CmdError.eq_of_transport_code {err : CmdError} (h : err.errCode = 1#4) :
    (err.sub = 4#8 → err = .readTimeout) ∧ (err.sub = 5#8 → err = .shortRead) := by
  revert h
  cases err <;> decide

/-- An error of the exchange's verdict that has the code of TransportError is the exchange's own. -/
theorem Chan.verdict_transport_error {ch : Chan} {r : Except CmdError Bytes} {err : CmdError}
    (h : ch.verdict r = .error err) (hcode : err.errCode = 1#4) : r = .error err := by
  obtain hr | ⟨-, -, hcls | hcls⟩ := Chan.verdict_error h
  · exact hr
  · rw [CmdError.errCode, hcls] at hcode
    cases hcode
  · rw [CmdError.errCode, hcls] at hcode
    cases hcode

/-- An error's code is not that of success. -/
theorem CmdError.errCode_ne_zero (err : CmdError) : err.errCode ≠ 0#4 := by
  cases err <;> decide

end Read

/-- Settles O57: the end's cause is an elapsed interval, and no deadline was passed over. -/
theorem quietFrameEndsOnSilence : Obligations.QuietFrameEndsOnSilence := by
  intro s t c _ hbusy hser hahead _ hr hd hstep hdone
  have hfrom : (s.chan c).DeadlinesFrom s.now :=
    (forall_chans_iff (P := Chan.DeadlinesFrom s.now) (fun _ hd => absurd hd List.not_mem_nil) s).1 hahead c
  have hb : (s.chan c).busy = true := ((busyOk_iff s).1 hbusy c).2 (by rw [hr]; exact Phase.noConfusion)
  cases hs : s.sched with
  | nil =>
    rw [step_of_nil hs hstep, hd] at hdone
    cases hdone
  | cons e rest =>
    obtain ⟨base, r, hend, hch⟩ := ((step_stepOf hs hstep).chanStep c).ended_of_done hb hd hdone
    intro silence
    rw [hch]
    obtain ⟨err, hv, herr, hsub, -⟩ | ⟨⟨rec, hv⟩, herr, -⟩ := base.ended_record (base.verdict r)
    · rw [herr, hsub]
      refine ⟨fun _ h0 => absurd h0 err.errCode_ne_zero, fun h1 h4 => ?_, fun h1 h5 => ?_⟩
      · obtain rfl := Chan.verdict_transport_error hv h1
        have ht := (hend.of_readError hser hr).1 ((CmdError.eq_of_transport_code h1).1 h4)
        exact TimeoutElapsed.at_timeout ht hr hfrom
      · obtain rfl := Chan.verdict_transport_error hv h1
        obtain ⟨hm, hq⟩ := (hend.of_readError hser hr).2 ((CmdError.eq_of_transport_code h1).2 h5)
        exact ⟨hm, QuietElapsed.atSilence hq hr hfrom⟩
    · rw [herr]
      refine ⟨fun hm _ => ?_, nofun, nofun⟩
      cases r with
      | error err => cases hv
      | ok out => exact QuietElapsed.atSilence (hend.quiet_of_ok hser hr hm) hr hfrom

/-! ### A READ that nothing ends -/

/-- A channel in READ with no timeout and no octet keeps its phase, its snapshots and its empty accumulator at every step
but an octet on its port and the reset input. -/
theorem ChanStep.keeps_unbounded_read {s : State} {e : Event} {c : Nat} {ch : Chan} (hx : ChanStep s e c ch)
    (hser : Serialised s) (hb : (s.chan c).busy = true) (hr : (s.chan c).phase = .read)
    (ht : (s.chan c).line.timeout = none) (hacc : (s.chan c).acc = []) (he : e ≠ .reset)
    (hrx : ∀ b w, e ≠ .rx (s.chan c).op.port b w) :
    ch.phase = (s.chan c).phase ∧ ch.busy = (s.chan c).busy ∧ ch.op = (s.chan c).op ∧ ch.line = (s.chan c).line
      ∧ ch.acc = (s.chan c).acc := by
  have hidle : (s.chan c).busy ≠ false := by
    rw [hb]
    exact Bool.noConfusion
  cases hx with
  | same | operands | reject => exact ⟨rfl, rfl, rfl, rfl, rfl⟩
  | refused w err _ h => exact absurd h hidle
  | completed w out result res _ h => exact absurd h hidle
  | waits w o _ h => exact absurd h hidle
  | reset h => exact absurd h he
  | exchange _ out hx =>
    cases hx with
    | ends base r hend =>
      obtain ⟨-, hcause⟩ := hend.leaveCause hser
      rw [hr] at hcause
      obtain ⟨-, hne, -⟩ | ⟨d, hd, -⟩ | ⟨b, writeOk, hevent, -⟩ := hcause
      · exact absurd hacc hne
      · cases ht.symm.trans hd
      · exact absurd hevent (hrx b writeOk)
    | writes l k w hg => cases hr.symm.trans (hg.leaveCause hser).1
    | readsFirst l hg => cases hr.symm.trans (hg.leaveCause hser).1
    | settles k h | reads h => cases hr.symm.trans h
    | keeps b ho =>
      obtain ⟨-, writeOk, hevent⟩ := ho.event_eq hser
      exact absurd hevent (hrx b writeOk)

/-- Settles O58: the channel stays in READ, and the exclusive section, which the step keeps, says what its port shows. -/
theorem unboundedReadWaits : Obligations.UnboundedReadWaits := by
  intro s t e rest c hshape hbusy hser hc hr ht hacc hs he hrx hstep
  have hb : (s.chan c).busy = true := ((busyOk_iff s).1 hbusy c).2 (by rw [hr]; exact Phase.noConfusion)
  have hx := step_stepOf hs hstep
  obtain ⟨hphase, hbusy', hop, hline, hacc'⟩ := (hx.chanStep c).keeps_unbounded_read hser hb hr ht hacc he hrx
  obtain ⟨-, -, hser'⟩ := stepKeepsPortsSerialised s t hshape hbusy hser hstep
  have hc' : c < t.chans.length := (hx.lengths hshape).1 ▸ hc
  obtain ⟨-, hown, hopened, -⟩ := Serialised.owns hser' hc' (by rw [hphase.trans hr]; rfl)
  rw [hop] at hown hopened
  exact ⟨hphase.trans hr, hbusy'.trans hb, hop, hline, hacc'.trans hacc, hown, hopened⟩

end Sys2Proof.Machine
end
